-- ==== Sys2Proof/Word.lean ====
section
/-! DEFINITION. The bit-vector types of the GF2M-ECDH core: a byte of OPMEM, a 32-bit host word or register, a
16-bit host address (00_scope R13, 10_state R20). Polynomials, scalars, offsets and lengths are unbounded naturals
(00_scope R9, R10) and have no type of their own here. -/

namespace Sys2Proof

/-- One byte of the operand memory (20_memory R61). -/
abbrev Byte := BitVec 8

/-- One host word, and the contents of one register: 32 bits (00_scope R13, 10_state section 2). -/
abbrev Word := BitVec 32

/-- A host byte address: 16 bits (00_scope R13, 20_memory R60). -/
abbrev Addr := BitVec 16

end Sys2Proof
end

