-- ==== Sys2Proof/Syntax.lean ====
section
/-! DEFINITION. The command set of the GF2M-ECDH core (30_encoding): the nine words a command consists of, and one
constructor of `Instr` per row of the opcode table, with the operands that its row of 30_encoding R93 names. -/

namespace Sys2Proof

/-- The nine 32-bit words of a command (30_encoding R90): the same nine words are the RW registers of the block
(10_state R28 to R34) and, once START has copied them, the snapshot SNAP (10_state R40). -/
structure Command where
  /-- CMD, the command word: OPCODE in [7:0], RSVD in [31:8] (10_state R28, 30_encoding R90). -/
  cmd : Word
  /-- ARG0, by convention the destination's OPMEM offset (10_state R29). -/
  arg0 : Word
  /-- ARG1, by convention the first source's OPMEM offset (10_state R29). -/
  arg1 : Word
  /-- ARG2, by convention the second source's OPMEM offset (10_state R29). -/
  arg2 : Word
  /-- LEN, the first length (10_state R30). -/
  len : Word
  /-- LEN2, the second length or the shift count (10_state R30). -/
  len2 : Word
  /-- CURVE_BASE, the OPMEM offset of the curve record (10_state R32). -/
  curveBase : Word
  /-- CURVE_FSB, `field_size_bytes` (10_state R33). -/
  curveFsb : Word
  /-- CURVE_M, `binary_degree` (10_state R34). -/
  curveM : Word
deriving DecidableEq, Repr

/-- Nine zero words: the command registers after reset (10_state R45). -/
def Command.zero : Command :=
  { cmd := 0, arg0 := 0, arg1 := 0, arg2 := 0, len := 0, len2 := 0, curveBase := 0, curveFsb := 0, curveM := 0 }

/-- The three curve operands of a point or ECDH command, each a register read as an unsigned integer
(30_encoding R93, R94). -/
structure CurveRegs where
  /-- CURVE_BASE -/
  base : Nat
  /-- CURVE_FSB -/
  fsb : Nat
  /-- CURVE_M -/
  m : Nat
deriving DecidableEq, Repr

/-- The twelve commands (30_encoding R92). An operand is a register's value read as an unsigned integer: an OPMEM
offset, a byte length or a bit count (30_encoding R94). A register that the command's row of 30_encoding R93 leaves
blank is no operand (30_encoding R95). -/
inductive Instr where
  /-- GF_DEG, 0x01: degree of the `n`-byte polynomial at `src` (40_gf2 R120). -/
  | gfDeg (src n : Nat)
  /-- GF_MUL, 0x02: carry-less product of the `n`-byte polynomials at `a` and `b`, to `2n` bytes at `dst` (40_gf2 R121). -/
  | gfMul (dst a b n : Nat)
  /-- GF_RED, 0x03: the `n`-byte polynomial at `poly` reduced in place by the `n2`-byte `modulus` (40_gf2 R122). -/
  | gfRed (poly modulus n n2 : Nat)
  /-- GF_SHL, 0x04: the `n`-byte polynomial at `src` shifted left by `count` bits, truncated, to `dst` (40_gf2 R123). -/
  | gfShl (dst src n count : Nat)
  /-- GF_INV, 0x05: the inverse of `a` modulo `modulus`, `n` bytes each, to `dst` (40_gf2 R124). -/
  | gfInv (dst a modulus n : Nat)
  /-- EC_ADD, 0x10: point addition (41_ec_point R150). -/
  | ecAdd (r p q : Nat) (crv : CurveRegs)
  /-- EC_DBL, 0x11: point doubling (41_ec_point R151). -/
  | ecDbl (r p : Nat) (crv : CurveRegs)
  /-- EC_MUL, 0x12: scalar multiplication (41_ec_point R152). -/
  | ecMul (r p k : Nat) (crv : CurveRegs)
  /-- EC_ONCURVE, 0x13: curve membership (41_ec_point R153). -/
  | ecOncurve (p : Nat) (crv : CurveRegs)
  /-- ECDH_GENPUB, 0x20: public-key generation (42_ecdh R170). -/
  | ecdhGenpub (pub d : Nat) (crv : CurveRegs)
  /-- ECDH_VALIDATE, 0x21: public-key validation (42_ecdh R171). -/
  | ecdhValidate (pub : Nat) (crv : CurveRegs)
  /-- ECDH_SHARED, 0x22: shared-secret derivation (42_ecdh R172). -/
  | ecdhShared (secret d peer : Nat) (crv : CurveRegs)
deriving DecidableEq, Repr

end Sys2Proof
end

