-- ==== Sys2Proof/WellFormed.lean ====
section
/-! DEFINITION. Well-formed commands: every operand is the value of a 32-bit register (30_encoding R94). Whether a
length or a region is legal is no matter of form: a command with an illegal one executes and completes with an
error code (60_exceptions R192). -/

namespace Sys2Proof

/-- A register holds 32 bits, so an operand is below 2^32 (30_encoding R90, R94). -/
def operandFits (v : Nat) : Bool := decide (v < 2 ^ 32)

/-- The three curve registers' values fit (10_state R32 to R34). -/
def CurveRegs.fits (crv : CurveRegs) : Bool := operandFits crv.base && operandFits crv.fsb && operandFits crv.m

/-- A command is well-formed when each of its operands is a 32-bit register value. -/
def Instr.wellFormed : Instr → Bool
  | .gfDeg src n => operandFits src && operandFits n
  | .gfMul dst a b n => operandFits dst && operandFits a && operandFits b && operandFits n
  | .gfRed poly modulus n n2 => operandFits poly && operandFits modulus && operandFits n && operandFits n2
  | .gfShl dst src n count => operandFits dst && operandFits src && operandFits n && operandFits count
  | .gfInv dst a modulus n => operandFits dst && operandFits a && operandFits modulus && operandFits n
  | .ecAdd r p q crv => operandFits r && operandFits p && operandFits q && crv.fits
  | .ecDbl r p crv => operandFits r && operandFits p && crv.fits
  | .ecMul r p k crv => operandFits r && operandFits p && operandFits k && crv.fits
  | .ecOncurve p crv => operandFits p && crv.fits
  | .ecdhGenpub pub d crv => operandFits pub && operandFits d && crv.fits
  | .ecdhValidate pub crv => operandFits pub && crv.fits
  | .ecdhShared secret d peer crv => operandFits secret && operandFits d && operandFits peer && crv.fits

end Sys2Proof
end

