-- ==== Sys2Proof/Decode.lean ====
section
/-! DEFINITION. Decoding a command (30_encoding R91 to R99): total on any nine words, rejecting by name; and the
encoder. The block stores a command as nine words, CMD first, then the eight operand words in the order of
30_encoding R90. -/

namespace Sys2Proof

/-- Why a command word is no command. Both reasons make the command complete with BADOP (30_encoding R91, R96). -/
inductive DecodeError where
  /-- `CMD[31:8]` is not zero (30_encoding R91). Safe: the spec names the outcome. -/
  | reservedBits
  /-- `CMD[31:8]` is zero and OPCODE is not one of the twelve (30_encoding R96). Safe: the spec names the outcome. -/
  | reservedOpcode (op : BitVec 8)
deriving DecidableEq, Repr

/-- OPCODE, `CMD[7:0]` (30_encoding R90). -/
def opcodeField (cmd : Word) : BitVec 8 := cmd.extractLsb' 0 8

/-- RSVD, `CMD[31:8]` (30_encoding R90). -/
def reservedField (cmd : Word) : BitVec 24 := cmd.extractLsb' 8 24

/-- The curve operands of a command (30_encoding R93, R94): registers read as unsigned integers. -/
def curveOperands (c : Command) : CurveRegs :=
  { base := c.curveBase.toNat, fsb := c.curveFsb.toNat, m := c.curveM.toNat }

/-- The command that an OPCODE selects, with the operands its row of 30_encoding R93 reads (R92, R94, R99). -/
def decodeOpcode (op : Nat) (c : Command) : Option Instr :=
  match op with
  | 0x01 => some (.gfDeg c.arg1.toNat c.len.toNat)
  | 0x02 => some (.gfMul c.arg0.toNat c.arg1.toNat c.arg2.toNat c.len.toNat)
  | 0x03 => some (.gfRed c.arg0.toNat c.arg1.toNat c.len.toNat c.len2.toNat)
  | 0x04 => some (.gfShl c.arg0.toNat c.arg1.toNat c.len.toNat c.len2.toNat)
  | 0x05 => some (.gfInv c.arg0.toNat c.arg1.toNat c.arg2.toNat c.len.toNat)
  | 0x10 => some (.ecAdd c.arg0.toNat c.arg1.toNat c.arg2.toNat (curveOperands c))
  | 0x11 => some (.ecDbl c.arg0.toNat c.arg1.toNat (curveOperands c))
  | 0x12 => some (.ecMul c.arg0.toNat c.arg1.toNat c.arg2.toNat (curveOperands c))
  | 0x13 => some (.ecOncurve c.arg1.toNat (curveOperands c))
  | 0x20 => some (.ecdhGenpub c.arg0.toNat c.arg1.toNat (curveOperands c))
  | 0x21 => some (.ecdhValidate c.arg1.toNat (curveOperands c))
  | 0x22 => some (.ecdhShared c.arg0.toNat c.arg1.toNat c.arg2.toNat (curveOperands c))
  | _ => none

/-- Decoding, in the order of 30_encoding R99: first the reserved bits, then OPCODE. -/
def decode (c : Command) : Except DecodeError Instr :=
  if reservedField c.cmd ≠ 0 then .error .reservedBits
  else
    match decodeOpcode (opcodeField c.cmd).toNat c with
    | some i => .ok i
    | none => .error (.reservedOpcode (opcodeField c.cmd))

/-- The OPCODE of each command (30_encoding R92). -/
def opcodeOf : Instr → BitVec 8
  | .gfDeg .. => 0x01
  | .gfMul .. => 0x02
  | .gfRed .. => 0x03
  | .gfShl .. => 0x04
  | .gfInv .. => 0x05
  | .ecAdd .. => 0x10
  | .ecDbl .. => 0x11
  | .ecMul .. => 0x12
  | .ecOncurve .. => 0x13
  | .ecdhGenpub .. => 0x20
  | .ecdhValidate .. => 0x21
  | .ecdhShared .. => 0x22

/-- The command word of a command, `zext_32(OPCODE)` (30_encoding R92). -/
def commandWord (i : Instr) : Word := (opcodeOf i).setWidth 32

/-- A register that holds an operand. -/
def operandWord (v : Nat) : Word := BitVec.ofNat 32 v

/-- A command word with every operand word zero. -/
def bareCommand (cmd : Word) : Command := { Command.zero with cmd }

/-- A command's words with its curve operands put in (30_encoding R93). -/
def withCurve (c : Command) (crv : CurveRegs) : Command :=
  { c with curveBase := operandWord crv.base, curveFsb := operandWord crv.fsb, curveM := operandWord crv.m }

/-- The nine words of a command, each operand in the register of its column of 30_encoding R93. The words of blank
columns are zero: the command ignores them (30_encoding R95). -/
def encode (i : Instr) : Command :=
  let c := bareCommand (commandWord i)
  match i with
  | .gfDeg src n => { c with arg1 := operandWord src, len := operandWord n }
  | .gfMul dst a b n =>
    { c with arg0 := operandWord dst, arg1 := operandWord a, arg2 := operandWord b, len := operandWord n }
  | .gfRed poly modulus n n2 =>
    { c with arg0 := operandWord poly, arg1 := operandWord modulus, len := operandWord n, len2 := operandWord n2 }
  | .gfShl dst src n count =>
    { c with arg0 := operandWord dst, arg1 := operandWord src, len := operandWord n, len2 := operandWord count }
  | .gfInv dst a modulus n =>
    { c with arg0 := operandWord dst, arg1 := operandWord a, arg2 := operandWord modulus, len := operandWord n }
  | .ecAdd r p q crv =>
    withCurve { c with arg0 := operandWord r, arg1 := operandWord p, arg2 := operandWord q } crv
  | .ecDbl r p crv => withCurve { c with arg0 := operandWord r, arg1 := operandWord p } crv
  | .ecMul r p k crv =>
    withCurve { c with arg0 := operandWord r, arg1 := operandWord p, arg2 := operandWord k } crv
  | .ecOncurve p crv => withCurve { c with arg1 := operandWord p } crv
  | .ecdhGenpub pub d crv => withCurve { c with arg0 := operandWord pub, arg1 := operandWord d } crv
  | .ecdhValidate pub crv => withCurve { c with arg1 := operandWord pub } crv
  | .ecdhShared secret d peer crv =>
    withCurve { c with arg0 := operandWord secret, arg1 := operandWord d, arg2 := operandWord peer } crv

/-- Nine words laid out from one number whose bit 0 is bit 0 of CMD: the operand words follow in the order of
30_encoding R90, 32 bits each. -/
def commandOfBits (w : Nat) : Command where
  cmd := BitVec.ofNat 32 w
  arg0 := BitVec.ofNat 32 (w >>> 32)
  arg1 := BitVec.ofNat 32 (w >>> 64)
  arg2 := BitVec.ofNat 32 (w >>> 96)
  len := BitVec.ofNat 32 (w >>> 128)
  len2 := BitVec.ofNat 32 (w >>> 160)
  curveBase := BitVec.ofNat 32 (w >>> 192)
  curveFsb := BitVec.ofNat 32 (w >>> 224)
  curveM := BitVec.ofNat 32 (w >>> 256)

/-- The nine words of an instruction of which only the low `nbits` bits are given, the rest zero. -/
def commandOfTableBits (nbits w : Nat) : Command := commandOfBits (w % 2 ^ nbits)

/-- The instruction the decoder reads from an opcode-table word (bit 0 the least significant bit of CMD, the bits
above `nbits` zero). -/
def decodeTableWord (nbits w : Nat) : Option Instr :=
  match decode (commandOfTableBits nbits w) with
  | .ok i => some i
  | .error _ => none

end Sys2Proof
end

