-- ==== Sys2Proof/Config.lean ====
section
/-! DEFINITION. What a build of the block fixes (00_scope R5, R6) and the one value the spec leaves free: the
contents of an OPMEM byte after reset (10_state R45, 93_implementation_defined A1). -/

namespace Sys2Proof

/-- The build parameters. They are readable as the constant registers CAPS and OPMEM_SIZE (10_state R22, R23), so
they stand in the state (log 4); no step changes them. -/
structure Config where
  /-- `CAP_BYTES`, the field-element capacity and the width of a curve-record slot (00_scope R5). -/
  capBytes : Nat
  /-- `OPMEM_BYTES`, the size of the operand memory in bytes (00_scope R6). -/
  opmemBytes : Nat
deriving DecidableEq, Repr

/-- The ranges 00_scope R5 and R6 allow a build. -/
abbrev Config.Legal (c : Config) : Prop :=
  (1 ≤ c.capBytes ∧ c.capBytes ≤ 255) ∧ 64 ≤ c.opmemBytes ∧ c.opmemBytes ≤ 61440 ∧ c.opmemBytes % 4 = 0

/-- The conformance build, `CAP_BYTES = 40` and `OPMEM_BYTES = 4096` (00_scope R5, R6). -/
def Config.conformance : Config := { capBytes := 40, opmemBytes := 4096 }

/-- FREE VALUE (10_state R45, 70_reset R220; log 3). The value of the OPMEM byte at an offset after reset number `draw`,
as long as nothing has written it: arbitrary, not necessarily equal between bytes or between resets. It has no
body, so no proof can rest on what it is. -/
opaque Config.freeByte (draw offset : Nat) : Byte

end Sys2Proof
end

