-- ==== Sys2Proof/Machine/State.lean ====
section
/-! DEFINITION. The state of the GF2M-ECDH core as plain data (10_state, R45: no other state exists), the model's own
fields beside it, and the state right after reset. -/

namespace Sys2Proof.Machine

/-- The nonzero completion codes of a command (60_exceptions R190). -/
inductive CmdError where
  /-- Code 1: `CMD[31:8]` not zero, or a reserved OPCODE. -/
  | badop
  /-- Code 2: a length, an operand region or the curve record out of range. -/
  | range
  /-- Code 3: inconsistent curve registers, `deg(modulus) ≠ M`, or an unusable modulus. -/
  | param
  /-- Code 4: an inversion of a non-unit. -/
  | noinv
deriving DecidableEq, Repr

/-- OPMEM as data: the bytes that have been written since reset, by rising offset (20_memory R61, R85). An offset
that is not listed has no value here: its byte is the free value of `Config.freeByte` (log 3). -/
abbrev Memory := List Host.Cell

/-- ENG and SNAP (10_state R40). SNAP is meaningful only while ENG = BUSY, so it exists only there (log 5). -/
inductive Engine where
  /-- ENG = IDLE. -/
  | idle
  /-- ENG = BUSY, a command in flight with its snapshot SNAP. -/
  | busy (snap : Command)
deriving DecidableEq, Repr

/-- One transaction of the host port: one aligned 32-bit word (10_state R20). -/
inductive Transaction where
  /-- `BusRead(addr)` -/
  | read (addr : Addr)
  /-- `BusWrite(addr, data)` -/
  | write (addr : Addr) (data : Word)
deriving DecidableEq, Repr

/-- What the next step can be (00_scope R8, 70_reset R220). -/
inductive Event where
  /-- A step of the host: one bus transaction. -/
  | bus (t : Transaction)
  /-- A step of the engine, if a command is in flight (10_state R42). -/
  | engine
  /-- The reset input (70_reset R220). -/
  | reset
deriving DecidableEq, Repr

/-- The whole state of the block (10_state R45), and the model's three own fields. -/
structure State where
  /-- The build's parameters, readable as CAPS and OPMEM_SIZE; constant (10_state R22, R23; log 4). -/
  cfg : Config
  /-- CTRL.IRQ_EN (10_state R24). -/
  irqEn : Bool
  /-- STATUS.DONE (10_state R26). -/
  done : Bool
  /-- STATUS.ACCERR, the sticky host-access error flag (60_exceptions R197). -/
  accErr : Bool
  /-- STATUS.ERRCODE (10_state R26, 60_exceptions R190). -/
  errCode : BitVec 4
  /-- The nine RW registers CMD, ARG0 to ARG2, LEN, LEN2, CURVE_BASE, CURVE_FSB, CURVE_M (10_state R28 to R34). -/
  regs : Command
  /-- RESULT (10_state R31). -/
  result : Word
  /-- ENG and SNAP (10_state R40). -/
  engine : Engine
  /-- OPMEM (20_memory R61). -/
  opmem : Memory
  /-- MODEL'S OWN: how many resets there have been; it selects the free values of the unwritten bytes (log 3). -/
  draw : Nat
  /-- MODEL'S OWN: the inputs still to come and the order of the agents' steps (log 1). -/
  agenda : List Event
  /-- MODEL'S OWN: the data the host port returned in the last step, if that step was a BusRead (log 2). -/
  portData : Option Word
deriving DecidableEq, Repr

/-- Why the machine could stop with a fault: never. The spec gives every behaviour a defined outcome
(93_implementation_defined: no entry uses `stuck`), errors are completions with a code (60_exceptions R190, R200),
so no constructor exists (log 14). -/
inductive Fault
deriving DecidableEq, Repr

/-- Why an instruction could be refused. -/
inductive Refusal where
  /-- Raised by `exec` alone, in the arm of an instruction that has no meaning yet; no arm does. Safe: the machine
  stops where the hardware goes on. -/
  | notModelled (mnemonic : String)
deriving DecidableEq, Repr

/-- The reset values of 10_state R45 for a build: every register 0, ENG = IDLE, no OPMEM byte known. The model's own
fields hold the given draw number and agenda (log 1, log 3). -/
def State.afterReset (cfg : Config) (draw : Nat) (agenda : List Event) : State :=
  { cfg, irqEn := false, done := false, accErr := false, errCode := 0, regs := Command.zero, result := 0,
    engine := .idle, opmem := [], draw, agenda, portData := none }

/-- The conformance build right after its first reset, with no input pending (10_state R45, 70_reset R220; log 4). -/
def State.reset : State := State.afterReset Config.conformance 0 []

end Sys2Proof.Machine
end

