-- ==== Sys2Proof/Machine/Gf2.lean ====
section
/-! DEFINITION. The field units (40_gf2 section 1): polynomials over GF(2), a polynomial being the natural number whose
bit `i` is the coefficient of `x^i` (00_scope R9). Addition is `^^^`. -/

namespace Sys2Proof.Machine

/-- `deg(p)`: the index of the highest set bit, and −1 for the zero polynomial (40_gf2 R110). -/
def deg (p : Nat) : Int := if p = 0 then -1 else (p.log2 : Int)

/-- How many coefficients a polynomial has up to its leading one: `deg(p) + 1`. -/
def bitLen (p : Nat) : Nat := (deg p + 1).toNat

/-- `Σ a_i · b · x^i` over the bits `i` below a bound. -/
def clmulBelow (a b : Nat) : Nat → Nat
  | 0 => 0
  | i + 1 => clmulBelow a b i ^^^ (if a.testBit i then b <<< i else 0)

/-- `clmul(a, b)`: the carry-less product (40_gf2 R111). For every set bit `i` of `a`, the whole of `b · x^i`, that is
`1 << (i + j)` for every set bit `j` of `b`, is XORed in (log 9). -/
def clmul (a b : Nat) : Nat := clmulBelow a b (bitLen a)

/-- The loop of `pmod` (40_gf2 R112), for at most the given number of passes. -/
def pmodLoop (f : Nat) : Nat → Nat → Nat
  | 0, p => p
  | k + 1, p =>
    if p ≠ 0 ∧ deg f ≤ deg p then pmodLoop f k (p ^^^ f <<< (deg p - deg f).toNat) else p

/-- `pmod(p, f)`: the remainder of the division by `f ≠ 0` (40_gf2 R112). Each pass lowers the degree of `p`, so
`bitLen p` passes are enough (log 8). -/
def pmod (p f : Nat) : Nat := pmodLoop f (bitLen p) p

/-- `shl(p, s, w) = trunc(p << s, w)`, which is 0 for `s ≥ w` (40_gf2 R113). -/
def shl (p s w : Nat) : Nat := if w ≤ s then 0 else (p <<< s) % 2 ^ w

/-- The loop of `inv_euclid` (40_gf2 R114), for at most the given number of passes; it answers the coefficient of the
remainder that reached 1, or NOINV. -/
def invLoop : Nat → Nat → Nat → Nat → Nat → Except CmdError Nat
  | 0, _, _, _, _ => .error .noinv
  | k + 1, u, v, g1, g2 =>
    if deg u = 0 then .ok g1
    else if deg v = 0 then .ok g2
    else if u = 0 then .error .noinv
    else if deg u < deg v then
      invLoop k (v ^^^ u <<< (deg v - deg u).toNat) u (g2 ^^^ g1 <<< (deg v - deg u).toNat) g1
    else
      invLoop k (u ^^^ v <<< (deg u - deg v).toNat) v (g1 ^^^ g2 <<< (deg u - deg v).toNat) g2

/-- `inv_euclid(a, f)` for `deg(f) ≥ 1` (40_gf2 R114). Each pass lowers `deg(u) + deg(v)`, so
`bitLen a + bitLen f + 1` passes are enough (log 8). -/
def invEuclid (a f : Nat) : Except CmdError Nat := do
  let r ← invLoop (bitLen a + bitLen f + 1) a f 1 0
  return if deg f ≤ deg r then pmod r f else r

end Sys2Proof.Machine
end

