-- ==== Sys2Proof/Machine/Flags.lean ====
section
/-! DEFINITION. The status and control words as software reads them, the error codes, the derived registers and the
interrupt output (10_state R22 to R36, R43; 60_exceptions R190, R199). -/

namespace Sys2Proof.Machine

/-- The 4-bit ERRCODE of an error completion (60_exceptions R190). -/
def CmdError.code : CmdError → BitVec 4
  | .badop => 1
  | .range => 2
  | .param => 3
  | .noinv => 4

/-- ERRCODE of a command that completed without error (60_exceptions R190). -/
def okCode : BitVec 4 := 0

/-- One flag as a word with that flag in bit 0. -/
def flagWord (b : Bool) : Word := (BitVec.ofBool b).setWidth 32

/-- STATUS.BUSY is 1 exactly while ENG = BUSY (10_state R26, R40). -/
def State.busy (s : State) : Bool :=
  match s.engine with
  | .idle => false
  | .busy _ => true

/-- The value STATUS reads: `zext_32(ERRCODE) << 8 | ACCERR << 2 | DONE << 1 | BUSY` (10_state R26). -/
def State.statusWord (s : State) : Word :=
  s.errCode.setWidth 32 <<< 8 ||| flagWord s.accErr <<< 2 ||| flagWord s.done <<< 1 ||| flagWord s.busy

/-- The value CTRL reads: START reads 0, IRQ_EN in bit 1, the rest 0 (10_state R24). -/
def State.ctrlWord (s : State) : Word := flagWord s.irqEn <<< 1

/-- The interrupt output, the level `DONE ∧ IRQ_EN` (10_state R43, 60_exceptions R199). -/
def State.irq (s : State) : Bool := s.done && s.irqEn

/-- `round_up8(n)`, over the unbounded integers (10_state R36). -/
def roundUp8 (n : Nat) : Nat := (n + 7) - ((n + 7) % 8)

/-- The value PT_YOFF reads, from the current CURVE_FSB (10_state R36). -/
def State.ptYoff (s : State) : Word := BitVec.ofNat 32 (roundUp8 s.regs.curveFsb.toNat)

/-- The value PT_LEN reads, from the current CURVE_FSB (10_state R36). -/
def State.ptLen (s : State) : Word :=
  BitVec.ofNat 32 (roundUp8 s.regs.curveFsb.toNat + s.regs.curveFsb.toNat)

end Sys2Proof.Machine
end

