-- ==== Sys2Proof/Machine/Ops.lean ====
section
/-! DEFINITION. The named operations over OPMEM and the registers, and the three events every command shares: START
(10_state R41), completion (10_state R42; an error completion is the block's only "exception", 60_exceptions R193 to
R195, R200) and reset (70_reset R220). -/

namespace Sys2Proof.Machine

/-! ### OPMEM -/

/-- The byte last written at an offset since reset, if there is one. -/
def Memory.read : Memory → Nat → Option Byte
  | [], _ => none
  | (k, v) :: rest, a => if a = k then some v else Memory.read rest a

/-- Writing one byte keeps the offsets rising. -/
def Memory.write : Memory → Nat → Byte → Memory
  | [], a, b => [(a, b)]
  | (k, v) :: rest, a, b =>
    if a < k then (a, b) :: (k, v) :: rest
    else if a = k then (a, b) :: rest
    else (k, v) :: Memory.write rest a b

/-- Writing a list of bytes in order: where two of them meet, the later one wins (20_memory R84). -/
def Memory.writeAll : Memory → List Host.Cell → Memory
  | m, [] => m
  | m, (a, b) :: rest => Memory.writeAll (Memory.write m a b) rest

/-- The canonical form: offsets strictly rising. An unlisted offset has no value of its own (log 3), so no entry can
equal what an unlisted one holds, and two memories that hold the same written bytes are equal data. -/
abbrev Memory.wf (m : Memory) : Prop := m.Pairwise fun x y => x.1 < y.1

/-- `OPMEM[a]`: the byte last written, or the free value of this reset (10_state R45; log 3). -/
def State.byte (s : State) (a : Nat) : Byte := (Memory.read s.opmem a).getD (Config.freeByte s.draw a)

/-- `MemWrite` of a list of bytes (00_scope R11). -/
def State.writeBytes (s : State) (cells : List Host.Cell) : State := { s with opmem := Memory.writeAll s.opmem cells }

/-- Byte `j` of a number, least significant first: `(p >> 8·j) mod 256` (20_memory R64). -/
def byteOf (p j : Nat) : Byte := BitVec.ofNat 8 (p >>> (8 * j))

/-- The `n` bytes of a number, least significant first, at the offsets from `a` on (20_memory R64). -/
def bytesAt (a n p : Nat) : List Host.Cell := (List.range n).map fun j => (a + j, byteOf p j)

/-- `Σ OPMEM[a+j] << (8·j)` for `j < n`: the little-endian number at an offset (20_memory R61, R63). -/
def State.number (s : State) (a : Nat) : Nat → Nat
  | 0 => 0
  | n + 1 => (s.byte a).toNat + 256 * State.number s (a + 1) n

/-! ### The flags and registers a transaction changes -/

/-- Setting ACCERR changes no other state (60_exceptions R197). -/
def State.setAccErr (s : State) : State := { s with accErr := true }

/-- `StatusWrite(data)`: write-1-to-clear of DONE and ACCERR (10_state R27). -/
def State.statusWrite (s : State) (data : Word) : State :=
  { s with done := s.done && !data.getLsbD 1, accErr := s.accErr && !data.getLsbD 2 }

/-! ### START, completion, reset -/

/-- `Start()`: the snapshot is taken, DONE, ERRCODE and RESULT are cleared, ENG becomes BUSY (10_state R41). -/
def State.start (s : State) : State :=
  { s with engine := .busy s.regs, done := false, errCode := 0, result := 0 }

/-- CTRL.IRQ_EN takes the value written (10_state R24). -/
def State.setIrqEn (s : State) (b : Bool) : State := { s with irqEn := b }

/-- A START: `Start()` if ENG = IDLE; refused with ACCERR, the command in flight unaffected, if ENG = BUSY
(10_state R25). -/
def State.requestStart (s : State) : State := if s.busy then s.setAccErr else s.start

/-- `CtrlWrite(data)`: IRQ_EN is always written, then `data[0] = 1` is a START (10_state R25). -/
def State.ctrlWrite (s : State) (data : Word) : State :=
  if data.getLsbD 0 then (s.setIrqEn (data.getLsbD 1)).requestStart else s.setIrqEn (data.getLsbD 1)

/-- What a command yields when it does not end in an error: RESULT and the staged byte writes (30_encoding R99). -/
structure CmdResult where
  /-- The value RESULT takes (10_state R31). -/
  result : Word
  /-- The staged writes, in the order the command's rule stages them (60_exceptions R194). -/
  writes : List Host.Cell
deriving DecidableEq, Repr

/-- The outcome of a command rule, `(OK, result, writes)` or `raise CmdError(code)` (30_encoding R99,
60_exceptions R193). -/
abbrev CmdOutcome := Except CmdError CmdResult

/-- A check of a command rule: `raise CmdError(e)` unless it holds (60_exceptions R192, R193). -/
def require (ok : Bool) (e : CmdError) : Except CmdError Unit := if ok then .ok () else .error e

/-- Completion with code OK: the staged writes are applied together, RESULT is set (10_state R42, 60_exceptions R194). -/
def State.completeOk (s : State) (r : CmdResult) : State :=
  { s.writeBytes r.writes with result := r.result, errCode := okCode, done := true, engine := .idle }

/-- Completion with an error: nothing is written to OPMEM, RESULT is 0, ERRCODE holds the code (10_state R42,
60_exceptions R193, R195). This is the block's whole exception mechanism: no state is saved, control goes nowhere
(60_exceptions R200), and the host returns from it by clearing DONE or by the next START (60_exceptions R201). -/
def State.completeError (s : State) (e : CmdError) : State :=
  { s with result := 0, errCode := e.code, done := true, engine := .idle }

/-- `Complete()`, given what `Exec` answered (10_state R42). -/
def State.complete (s : State) : CmdOutcome → State
  | .ok r => s.completeOk r
  | .error e => s.completeError e

/-- The reset step (70_reset R220, R221): every register at its reset value, OPMEM drawn anew; CAPS and OPMEM_SIZE
are constants. The inputs still to come are not state of the block and stay (log 1). -/
def State.applyReset (s : State) : State := State.afterReset s.cfg (s.draw + 1) s.agenda

/-! ### The host port -/

/-- The registers of the map (10_state R21 to R36). -/
inductive Reg where
  | caps | opmemSize | ctrl | status | cmd | arg0 | arg1 | arg2 | len | len2 | result
  | curveBase | curveFsb | curveM | ptYoff | ptLen
deriving DecidableEq, Repr

/-- The offset of each register (10_state section 2, register map). -/
def regOffset : Reg → Nat
  | .caps => 0x000
  | .opmemSize => 0x004
  | .ctrl => 0x008
  | .status => 0x00C
  | .cmd => 0x010
  | .arg0 => 0x014
  | .arg1 => 0x018
  | .arg2 => 0x01C
  | .len => 0x020
  | .len2 => 0x024
  | .result => 0x028
  | .curveBase => 0x030
  | .curveFsb => 0x034
  | .curveM => 0x038
  | .ptYoff => 0x03C
  | .ptLen => 0x040

/-- Every register of the map. -/
def allRegs : List Reg :=
  [.caps, .opmemSize, .ctrl, .status, .cmd, .arg0, .arg1, .arg2, .len, .len2, .result,
   .curveBase, .curveFsb, .curveM, .ptYoff, .ptLen]

/-- The register at an offset, if there is one (10_state R21; 0x02C and everything from 0x044 on have none). -/
def regAt (a : Nat) : Option Reg := allRegs.find? fun r => regOffset r == a

/-- Where the OPMEM window begins in the host's address space (20_memory R60). -/
def windowBase : Nat := 0x1000

/-- What a host address names (10_state R21, 20_memory R60). -/
inductive Target where
  /-- The address is not a multiple of 4 (20_memory R71). -/
  | misaligned
  /-- A register (10_state R21). -/
  | reg (r : Reg)
  /-- The OPMEM word at a window offset (20_memory R61). -/
  | opmem (offset : Nat)
  /-- No register and no OPMEM word (20_memory R72). -/
  | unmapped
deriving DecidableEq, Repr

/-- Whether an address lies in the OPMEM window, `0x1000 .. 0x1000+OPMEM_BYTES-1` (20_memory R60). -/
def inWindow (cfg : Config) (a : Nat) : Bool := decide (windowBase ≤ a) && decide (a < windowBase + cfg.opmemBytes)

/-- An address outside the window names a register or nothing (10_state R21, 20_memory R72). -/
def regTarget : Option Reg → Target
  | some r => .reg r
  | none => .unmapped

/-- The dispatch of 10_state R21 on the address. -/
def targetOf (cfg : Config) (addr : Addr) : Target :=
  if addr.toNat % 4 = 0 then
    if inWindow cfg addr.toNat then .opmem (addr.toNat - windowBase) else regTarget (regAt addr.toNat)
  else .misaligned

/-- The value a register reads (10_state R22 to R36). -/
def State.readReg (s : State) : Reg → Word
  | .caps => BitVec.ofNat 32 s.cfg.capBytes
  | .opmemSize => BitVec.ofNat 32 s.cfg.opmemBytes
  | .ctrl => s.ctrlWord
  | .status => s.statusWord
  | .cmd => s.regs.cmd
  | .arg0 => s.regs.arg0
  | .arg1 => s.regs.arg1
  | .arg2 => s.regs.arg2
  | .len => s.regs.len
  | .len2 => s.regs.len2
  | .result => s.result
  | .curveBase => s.regs.curveBase
  | .curveFsb => s.regs.curveFsb
  | .curveM => s.regs.curveM
  | .ptYoff => s.ptYoff
  | .ptLen => s.ptLen

/-- A write of a register (10_state R25, R27 to R35). The read-only registers ignore it and set no flag (10_state R37). -/
def State.writeReg (s : State) (r : Reg) (data : Word) : State :=
  match r with
  | .caps => s
  | .opmemSize => s
  | .ctrl => s.ctrlWrite data
  | .status => s.statusWrite data
  | .cmd => { s with regs := { s.regs with cmd := data } }
  | .arg0 => { s with regs := { s.regs with arg0 := data } }
  | .arg1 => { s with regs := { s.regs with arg1 := data } }
  | .arg2 => { s with regs := { s.regs with arg2 := data } }
  | .len => { s with regs := { s.regs with len := data } }
  | .len2 => { s with regs := { s.regs with len2 := data } }
  | .result => s
  | .curveBase => { s with regs := { s.regs with curveBase := data } }
  | .curveFsb => { s with regs := { s.regs with curveFsb := data } }
  | .curveM => { s with regs := { s.regs with curveM := data } }
  | .ptYoff => s
  | .ptLen => s

/-- The host word at a window offset, little-endian (20_memory R61). -/
def State.opmemWord (s : State) (o : Nat) : Word := BitVec.ofNat 32 (s.number o 4)

/-- `BusRead(addr)`: the data, and the state after (10_state R21; 20_memory R62, R71, R72). -/
def State.busRead (s : State) (addr : Addr) : Word × State :=
  match targetOf s.cfg addr with
  | .misaligned => (0, s.setAccErr)
  | .reg r => (s.readReg r, s)
  | .opmem o => if s.busy then (0, s.setAccErr) else (s.opmemWord o, s)
  | .unmapped => (0, s.setAccErr)

/-- `BusWrite(addr, data)` (10_state R21; 20_memory R61, R62, R71, R72). -/
def State.busWrite (s : State) (addr : Addr) (data : Word) : State :=
  match targetOf s.cfg addr with
  | .misaligned => s.setAccErr
  | .reg r => s.writeReg r data
  | .opmem o => if s.busy then s.setAccErr else s.writeBytes (bytesAt o 4 data.toNat)
  | .unmapped => s.setAccErr

/-- One step of the host: one transaction; a read's data stands on the port (10_state R20; log 2). -/
def State.transact (s : State) : Transaction → State
  | .read addr => { (s.busRead addr).2 with portData := some (s.busRead addr).1 }
  | .write addr data => s.busWrite addr data

end Sys2Proof.Machine
end

