-- ==== Sys2Proof/Machine/Operands.lean ====
section
/-! DEFINITION. The operand forms of the commands (20_memory R63 to R70, 30_encoding R93, R94; 41_ec_point R140, R141):
field elements, packed points, scalars, the curve record, and the checks on where they lie. -/

namespace Sys2Proof.Machine

/-- `in_range(a, n)`: `a + n ≤ OPMEM_BYTES`, over the unbounded integers (20_memory R65). -/
def State.inRange (s : State) (a n : Nat) : Bool := decide (a + n ≤ s.cfg.opmemBytes)

/-- `FE(a, n)`: the `n`-byte field element at `a` (20_memory R63). -/
def State.fe (s : State) (a n : Nat) : Nat := s.number a n

/-- `WriteFE(a, n, p)`: the staged bytes of a field element, all `n` of them (20_memory R64). -/
def writeFE (a n p : Nat) : List Host.Cell := bytesAt a n p

/-- `ReadScalar(a)`: the FSB bytes at `a` as an unsigned integer (20_memory R70). -/
def State.readScalar (s : State) (a fsb : Nat) : Nat := s.number a fsb

/-- A point, a pair of polynomials (41_ec_point R143). -/
structure Point where
  /-- the x coordinate -/
  x : Nat
  /-- the y coordinate -/
  y : Nat
deriving DecidableEq, Repr

/-- The point at infinity, the pair (0, 0) (20_memory R69). -/
def Point.infinity : Point := { x := 0, y := 0 }

/-- `is_inf(P)`: infinity is inferred from the coordinates alone (41_ec_point R143). -/
def Point.isInf (p : Point) : Bool := p.x == 0 && p.y == 0

/-- `ReadPoint(a)`: x at offset 0, y at offset `round_up8(FSB)`; the padding between them is not read (20_memory R67). -/
def State.readPoint (s : State) (fsb a : Nat) : Point :=
  { x := s.fe a fsb, y := s.fe (a + roundUp8 fsb) fsb }

/-- The packed length `round_up8(FSB) + FSB` (00_scope section 6, 41_ec_point R140). -/
def packedLen (fsb : Nat) : Nat := roundUp8 fsb + fsb

/-- `WritePoint(a, P)`: x, then the padding as zeros, then y (20_memory R68). -/
def writePoint (fsb a : Nat) (p : Point) : List Host.Cell :=
  writeFE a fsb p.x ++ bytesAt (a + fsb) (roundUp8 fsb - fsb) 0 ++ writeFE (a + roundUp8 fsb) fsb p.y

/-! ### The length checks of the field commands (40_gf2 R118) -/

/-- A factor's or a modulus's length: 1 … CAP_BYTES (40_gf2 R118). -/
def State.singleLen (s : State) (n : Nat) : Bool := decide (1 ≤ n) && decide (n ≤ s.cfg.capBytes)

/-- The length of a product, or of a polynomial to be reduced, shifted or measured: 1 … 2·CAP_BYTES (40_gf2 R118). -/
def State.doubleLen (s : State) (n : Nat) : Bool := decide (1 ≤ n) && decide (n ≤ 2 * s.cfg.capBytes)

/-! ### The curve context (41_ec_point R140, R141) -/

/-- `CurveGeom(S)`: the checks on the curve registers, then on the whole record's region (41_ec_point R140). -/
def State.curveGeom (s : State) (crv : CurveRegs) : Except CmdError Unit := do
  require (decide (1 ≤ crv.fsb) && decide (crv.fsb ≤ s.cfg.capBytes)) .param
  require (decide (1 ≤ crv.m) && decide (crv.fsb = crv.m >>> 3 + 1)) .param
  require (s.inRange crv.base (7 * s.cfg.capBytes)) .range

/-- The curve parameter record as a command uses it (20_memory R66, 41_ec_point R141). The cofactor slot is read by
no command. -/
structure Curve where
  /-- coefficient a -/
  a : Nat
  /-- coefficient b -/
  b : Nat
  /-- the base point (xG, yG) -/
  base : Point
  /-- the modulus -/
  f : Nat
  /-- the order of the base point, an unsigned integer -/
  order : Nat
deriving DecidableEq, Repr

/-- The field element in slot `i` of the record: the first FSB bytes of the slot (20_memory R66). -/
def State.slot (s : State) (crv : CurveRegs) (i : Nat) : Nat := s.fe (crv.base + i * s.cfg.capBytes) crv.fsb

/-- The curve parameter record as it stands in OPMEM (20_memory R66). -/
def State.curveRecord (s : State) (crv : CurveRegs) : Curve :=
  { a := s.slot crv 0, b := s.slot crv 1, base := { x := s.slot crv 2, y := s.slot crv 3 },
    f := s.slot crv 4, order := s.slot crv 5 }

/-- `CurveLoad(S, MEM)`: the record, after the check that `deg(modulus) = M` (41_ec_point R141). -/
def State.curveLoad (s : State) (crv : CurveRegs) : Except CmdError Curve := do
  require (decide (deg (s.curveRecord crv).f = crv.m)) .param
  return s.curveRecord crv

end Sys2Proof.Machine
end

