-- ==== Sys2Proof/Machine/Curve.lean ====
section
/-! DEFINITION. The point units (41_ec_point section 1): field operations under the record's modulus, and the point
functions. The curve is `y² + xy = x³ + ax² + b`. A `raise CmdError(NOINV)` is an `.error .noinv`. -/

namespace Sys2Proof.Machine

/-- `fe_mul(u, v)`: product, then reduction (41_ec_point R142). A sum is `^^^` and is not reduced. -/
def feMul (c : Curve) (u v : Nat) : Nat := pmod (clmul u v) c.f

/-- `fe_sqr(u)` (41_ec_point R142). -/
def feSqr (c : Curve) (u : Nat) : Nat := feMul c u u

/-- `fe_inv(u)`, which raises NOINV when `gcd(u, f) ≠ 1` (41_ec_point R142). -/
def feInv (c : Curve) (u : Nat) : Except CmdError Nat := invEuclid u c.f

/-- `ec_dbl(C, P)` (41_ec_point R145). -/
def ecDouble (c : Curve) (p : Point) : Except CmdError Point :=
  if p.isInf then .ok Point.infinity
  else do
    let inv ← feInv c p.x
    let lam := p.x ^^^ feMul c p.y inv
    let rx := feSqr c lam ^^^ lam ^^^ c.a
    let ry := feMul c lam (rx ^^^ p.x) ^^^ rx ^^^ p.y
    return { x := rx, y := ry }

/-- `ec_add(C, P, Q)`, its five cases in the source's order of precedence (41_ec_point R144). -/
def ecPlus (c : Curve) (p q : Point) : Except CmdError Point :=
  if p.x = q.x ∧ p.y = q.y then ecDouble c p
  else if p.isInf then .ok q
  else if q.isInf then .ok p
  else if p.x = q.x ∧ q.y = p.x ^^^ p.y then .ok Point.infinity
  else do
    let inv ← feInv c (p.x ^^^ q.x)
    let lam := feMul c (p.y ^^^ q.y) inv
    let rx := feSqr c lam ^^^ lam ^^^ p.x ^^^ q.x ^^^ c.a
    let ry := feMul c lam (p.x ^^^ rx) ^^^ rx ^^^ p.y
    return { x := rx, y := ry }

/-- The double-and-add loop over the bits below a bound, from the highest down (41_ec_point R146). At every bit the
accumulator is doubled and one addition is made, of `P` or of infinity, with the accumulator first. -/
def ecTimesBelow (c : Curve) (p : Point) (k : Nat) : Nat → Point → Except CmdError Point
  | 0, acc => .ok acc
  | i + 1, acc => do
    let twice ← ecDouble c acc
    let next ← ecPlus c twice (if k.testBit i then p else Point.infinity)
    ecTimesBelow c p k i next

/-- `ec_mul(C, P, k)`: from bit `deg(k)` down to bit 0, no pass for `k = 0` (41_ec_point R146). -/
def ecTimes (c : Curve) (p : Point) (k : Nat) : Except CmdError Point :=
  ecTimesBelow c p k (bitLen k) Point.infinity

/-- `on_curve(C, P)` (41_ec_point R147). -/
def onCurve (c : Curve) (p : Point) : Bool :=
  p.isInf ||
    feSqr c p.y ^^^ feMul c p.x p.y == feMul c (feSqr c p.x) p.x ^^^ feMul c c.a (feSqr c p.x) ^^^ c.b

end Sys2Proof.Machine
end

