-- ==== Sys2Proof/Machine/EcdhCommands.lean ====
section
/-! DEFINITION. The ECDH family (42_ecdh): one rule and one meaning per command, over the point functions of
41_ec_point section 1 alone. None of them validates a peer key or the range of a private key (42_ecdh R173). -/

namespace Sys2Proof.Machine

/-- `ECDH_GENPUB(S, MEM)` (42_ecdh R170). -/
def ecdhGenpubRule (pub d : Nat) (crv : CurveRegs) (s : State) : CmdOutcome := do
  s.curveGeom crv
  require (s.inRange d crv.fsb && s.inRange pub (packedLen crv.fsb)) .range
  let c ← s.curveLoad crv
  let key ← ecTimes c c.base (s.readScalar d crv.fsb)
  return { result := 0, writes := writePoint crv.fsb pub key }

/-- ECDH_GENPUB: public-key generation (42_ecdh R170). -/
def execEcdhGenpub (pub d : Nat) (crv : CurveRegs) (s : State) : Host.Outcome State Fault Refusal :=
  .next (s.complete (ecdhGenpubRule pub d crv s))

/-- The subgroup check of validation: `order · P = ∞`. A NOINV inside it is a rejection, not an error (42_ecdh R171,
60_exceptions R196). -/
def inSubgroup (c : Curve) (p : Point) : Except CmdError Bool :=
  match ecTimes c p c.order with
  | .ok z => .ok z.isInf
  | .error .noinv => .ok false
  | .error e => .error e

/-- The three checks of a public key in the source's order, the first failure deciding (42_ecdh R171). -/
def acceptKey (c : Curve) (p : Point) : Except CmdError Bool :=
  if p.isInf then .ok false
  else if !onCurve c p then .ok false
  else inSubgroup c p

/-- `ECDH_VALIDATE(S, MEM)` (42_ecdh R171). -/
def ecdhValidateRule (pub : Nat) (crv : CurveRegs) (s : State) : CmdOutcome := do
  s.curveGeom crv
  require (s.inRange pub (packedLen crv.fsb)) .range
  let c ← s.curveLoad crv
  let accepted ← acceptKey c (s.readPoint crv.fsb pub)
  return { result := flagWord accepted, writes := [] }

/-- ECDH_VALIDATE: public-key validation (42_ecdh R171). -/
def execEcdhValidate (pub : Nat) (crv : CurveRegs) (s : State) : Host.Outcome State Fault Refusal :=
  .next (s.complete (ecdhValidateRule pub crv s))

/-- `ECDH_SHARED(S, MEM)` (42_ecdh R172): the secret is the x coordinate, y is computed and discarded. -/
def ecdhSharedRule (secret d peer : Nat) (crv : CurveRegs) (s : State) : CmdOutcome := do
  s.curveGeom crv
  require (s.inRange d crv.fsb && s.inRange peer (packedLen crv.fsb) && s.inRange secret crv.fsb) .range
  let c ← s.curveLoad crv
  let shared ← ecTimes c (s.readPoint crv.fsb peer) (s.readScalar d crv.fsb)
  return { result := 0, writes := writeFE secret crv.fsb shared.x }

/-- ECDH_SHARED: shared-secret derivation (42_ecdh R172). -/
def execEcdhShared (secret d peer : Nat) (crv : CurveRegs) (s : State) : Host.Outcome State Fault Refusal :=
  .next (s.complete (ecdhSharedRule secret d peer crv s))

end Sys2Proof.Machine
end

