-- ==== Sys2Proof/Machine/FieldCommands.lean ====
section
/-! DEFINITION. The field family (40_gf2 section 2): one rule and one meaning per command. Each rule makes its checks in
the order of 60_exceptions R192 and answers `(OK, result, writes)` or an error; the meaning completes the command with
that answer (10_state R42). -/

namespace Sys2Proof.Machine

/-- `GF_DEG(S, MEM)` (40_gf2 R120). -/
def gfDegRule (src n : Nat) (s : State) : CmdOutcome := do
  require (s.doubleLen n) .range
  require (s.inRange src n) .range
  return { result := BitVec.ofInt 32 (deg (s.fe src n)), writes := [] }

/-- GF_DEG: degree of a polynomial (40_gf2 R120). -/
def execGfDeg (src n : Nat) (s : State) : Host.Outcome State Fault Refusal :=
  .next (s.complete (gfDegRule src n s))

/-- `GF_MUL(S, MEM)` (40_gf2 R121). -/
def gfMulRule (dst a b n : Nat) (s : State) : CmdOutcome := do
  require (s.singleLen n) .range
  require (s.inRange a n && s.inRange b n && s.inRange dst (2 * n)) .range
  return { result := 0, writes := writeFE dst (2 * n) (clmul (s.fe a n) (s.fe b n)) }

/-- GF_MUL: carry-less polynomial multiplication (40_gf2 R121). -/
def execGfMul (dst a b n : Nat) (s : State) : Host.Outcome State Fault Refusal :=
  .next (s.complete (gfMulRule dst a b n s))

/-- `GF_RED(S, MEM)` (40_gf2 R122). -/
def gfRedRule (poly modulus n n2 : Nat) (s : State) : CmdOutcome := do
  require (s.doubleLen n && s.singleLen n2) .range
  require (s.inRange poly n && s.inRange modulus n2) .range
  require (decide (s.fe modulus n2 ≠ 0)) .param
  return { result := 0, writes := writeFE poly n (pmod (s.fe poly n) (s.fe modulus n2)) }

/-- GF_RED: reduction modulo a polynomial, in place (40_gf2 R122). -/
def execGfRed (poly modulus n n2 : Nat) (s : State) : Host.Outcome State Fault Refusal :=
  .next (s.complete (gfRedRule poly modulus n n2 s))

/-- `GF_SHL(S, MEM)` (40_gf2 R123). -/
def gfShlRule (dst src n count : Nat) (s : State) : CmdOutcome := do
  require (s.doubleLen n) .range
  require (s.inRange src n && s.inRange dst n) .range
  return { result := 0, writes := writeFE dst n (shl (s.fe src n) count (8 * n)) }

/-- GF_SHL: multiplication by `x^count` with truncation (40_gf2 R123). -/
def execGfShl (dst src n count : Nat) (s : State) : Host.Outcome State Fault Refusal :=
  .next (s.complete (gfShlRule dst src n count s))

/-- `GF_INV(S, MEM)` (40_gf2 R124). -/
def gfInvRule (dst a modulus n : Nat) (s : State) : CmdOutcome := do
  require (s.singleLen n) .range
  require (s.inRange a n && s.inRange modulus n && s.inRange dst n) .range
  require (decide (1 ≤ deg (s.fe modulus n))) .param
  let r ← invEuclid (s.fe a n) (s.fe modulus n)
  return { result := 0, writes := writeFE dst n r }

/-- GF_INV: multiplicative inverse modulo a polynomial (40_gf2 R124). -/
def execGfInv (dst a modulus n : Nat) (s : State) : Host.Outcome State Fault Refusal :=
  .next (s.complete (gfInvRule dst a modulus n s))

end Sys2Proof.Machine
end

