-- ==== Sys2Proof/Machine/PointCommands.lean ====
section
/-! DEFINITION. The point family (41_ec_point section 2): one rule and one meaning per command. The checks stand in the
order of 60_exceptions R192: curve registers, record region, operand regions, degree of the modulus, inversions. -/

namespace Sys2Proof.Machine

/-- `EC_ADD(S, MEM)` (41_ec_point R150). -/
def ecAddRule (r p q : Nat) (crv : CurveRegs) (s : State) : CmdOutcome := do
  s.curveGeom crv
  let plen := packedLen crv.fsb
  require (s.inRange p plen && s.inRange q plen && s.inRange r plen) .range
  let c ← s.curveLoad crv
  let sum ← ecPlus c (s.readPoint crv.fsb p) (s.readPoint crv.fsb q)
  return { result := 0, writes := writePoint crv.fsb r sum }

/-- EC_ADD: point addition (41_ec_point R150). -/
def execEcAdd (r p q : Nat) (crv : CurveRegs) (s : State) : Host.Outcome State Fault Refusal :=
  .next (s.complete (ecAddRule r p q crv s))

/-- `EC_DBL(S, MEM)` (41_ec_point R151). -/
def ecDblRule (r p : Nat) (crv : CurveRegs) (s : State) : CmdOutcome := do
  s.curveGeom crv
  let plen := packedLen crv.fsb
  require (s.inRange p plen && s.inRange r plen) .range
  let c ← s.curveLoad crv
  let twice ← ecDouble c (s.readPoint crv.fsb p)
  return { result := 0, writes := writePoint crv.fsb r twice }

/-- EC_DBL: point doubling (41_ec_point R151). -/
def execEcDbl (r p : Nat) (crv : CurveRegs) (s : State) : Host.Outcome State Fault Refusal :=
  .next (s.complete (ecDblRule r p crv s))

/-- `EC_MUL(S, MEM)` (41_ec_point R152). -/
def ecMulRule (r p k : Nat) (crv : CurveRegs) (s : State) : CmdOutcome := do
  s.curveGeom crv
  let plen := packedLen crv.fsb
  require (s.inRange p plen && s.inRange k crv.fsb && s.inRange r plen) .range
  let c ← s.curveLoad crv
  let multiple ← ecTimes c (s.readPoint crv.fsb p) (s.readScalar k crv.fsb)
  return { result := 0, writes := writePoint crv.fsb r multiple }

/-- EC_MUL: scalar multiplication (41_ec_point R152). -/
def execEcMul (r p k : Nat) (crv : CurveRegs) (s : State) : Host.Outcome State Fault Refusal :=
  .next (s.complete (ecMulRule r p k crv s))

/-- `EC_ONCURVE(S, MEM)` (41_ec_point R153). -/
def ecOncurveRule (p : Nat) (crv : CurveRegs) (s : State) : CmdOutcome := do
  s.curveGeom crv
  require (s.inRange p (packedLen crv.fsb)) .range
  let c ← s.curveLoad crv
  return { result := flagWord (onCurve c (s.readPoint crv.fsb p)), writes := [] }

/-- EC_ONCURVE: curve-membership test (41_ec_point R153). -/
def execEcOncurve (p : Nat) (crv : CurveRegs) (s : State) : Host.Outcome State Fault Refusal :=
  .next (s.complete (ecOncurveRule p crv s))

end Sys2Proof.Machine
end

