-- ==== Sys2Proof/Machine/Dispatch.lean ====
section
/-! DEFINITION. The dispatch of a decoded command to its rule (30_encoding R99): one arm per constructor. -/

namespace Sys2Proof.Machine

def exec (i : Instr) (s : State) : Host.Outcome State Fault Refusal :=
  match i with
  | .gfDeg src n => Sys2Proof.Machine.execGfDeg src n s
  | .gfMul dst a b n => Sys2Proof.Machine.execGfMul dst a b n s
  | .gfRed poly modulus n n2 => Sys2Proof.Machine.execGfRed poly modulus n n2 s
  | .gfShl dst src n count => Sys2Proof.Machine.execGfShl dst src n count s
  | .gfInv dst a modulus n => Sys2Proof.Machine.execGfInv dst a modulus n s
  | .ecAdd r p q crv => Sys2Proof.Machine.execEcAdd r p q crv s
  | .ecDbl r p crv => Sys2Proof.Machine.execEcDbl r p crv s
  | .ecMul r p k crv => Sys2Proof.Machine.execEcMul r p k crv s
  | .ecOncurve p crv => Sys2Proof.Machine.execEcOncurve p crv s
  | .ecdhGenpub pub d crv => Sys2Proof.Machine.execEcdhGenpub pub d crv s
  | .ecdhValidate pub crv => Sys2Proof.Machine.execEcdhValidate pub crv s
  | .ecdhShared secret d peer crv => Sys2Proof.Machine.execEcdhShared secret d peer crv s

end Sys2Proof.Machine
end

