-- ==== Sys2Proof/Machine/Engine.lean ====
section
/-! DEFINITION. The engine's step (10_state R42) and the order of the agents' steps (00_scope R8). -/

namespace Sys2Proof.Machine

/-- The command the engine runs: the snapshot, while ENG = BUSY (10_state R40, R42). -/
def State.fetch (s : State) : Option Command :=
  match s.engine with
  | .idle => none
  | .busy snap => some snap

/-- Running the nine words of a command: the decoded command's rule, or completion with BADOP (30_encoding R91, R96,
R99). -/
def runCommand (c : Command) (s : State) : Host.Outcome State Fault Refusal :=
  match decode c with
  | .ok i => exec i s
  | .error _ => .next (s.complete (.error .badop))

/-- The engine's turn: the completion step if a command is in flight (10_state R42), else nothing (00_scope R8; log 10). -/
def engineTurn (s : State) : Host.Outcome State Fault Refusal :=
  match s.fetch with
  | some c => runCommand c s
  | none => .next s

/-- One event's step (00_scope R8, 70_reset R220). -/
def eventTurn (e : Event) (s : State) : Host.Outcome State Fault Refusal :=
  match e with
  | .bus t => .next (s.transact t)
  | .engine => engineTurn s
  | .reset => .next s.applyReset

/-- The state as the next agent finds it: the first event of the agenda is taken off, and the port of the last step
no longer drives its data (log 1, log 2). -/
def State.advance (s : State) : State := { s with agenda := s.agenda.tail, portData := none }

/-- The next step: the first event of the agenda; with no input left, the engine's turn (log 1). -/
def nextTurn (s : State) : Host.Outcome State Fault Refusal :=
  match s.agenda with
  | [] => engineTurn s.advance
  | e :: _ => eventTurn e s.advance

/-- A command in flight as START leaves it: ENG = BUSY with the given snapshot, and the engine moves next (log 6). -/
def State.issue (s : State) (c : Command) : State := { s with engine := .busy c, agenda := .engine :: s.agenda }

end Sys2Proof.Machine
end

