-- ==== Sys2Proof/Machine/Step.lean ====
section
/-! DEFINITION. One step of the block: a step of exactly one agent, or a reset (00_scope R8, 70_reset R220). -/

namespace Sys2Proof.Machine

/-- One step. It never faults and never refuses: every behaviour has an outcome (93_implementation_defined). -/
def step (s : State) : Host.Outcome State Fault Refusal := nextTurn s

/-- `s` with an opcode-table instruction as the snapshot of a command in flight, whose completion is the very next
step. It stands for the host's register writes and START (log 6). -/
def State.withFetchWord (s : State) (nbits w : Nat) : State := s.issue (commandOfTableBits nbits w)

end Sys2Proof.Machine
end

