-- ==== Sys2Proof/Machine/Assembler.lean ====
section
/-! DEFINITION. The assembler of 30_encoding section 5 (R100 to R103): a host program is a list of bus transactions, and
each pseudo-instruction is the list it expands to. As inputs of the block they are events of the agenda (log 1). -/

namespace Sys2Proof.Machine

/-- `<target>` of a base form (30_encoding R100, and log 18 for the bare address). -/
inductive AsmTarget where
  /-- A register name of 10_state. -/
  | reg (r : Reg)
  /-- `MEM+<off>`; for `off ≥ 0xF000` see `asmAddr` (log 17). -/
  | mem (off : Nat)
  /-- A bare address, as in `RD 0x0006` and `WR 0x002C, 0x1`. DEDUCED (safe, log 18): R100 does not list it as a target;
  program P4 of 95_test_vectors uses it, and its encodings give the address as written. -/
  | addr (a : Addr)
deriving DecidableEq, Repr

/-- `addr(target)`: a register's offset, or `0x1000 + off` (30_encoding R100), or the bare address (log 18). DESIGN CHOICE (unsafe, log 17): the spec does
not say what `MEM+<off>` means when `0x1000 + off` needs more than the port's 16 address bits, that is for
`off ≥ 0xF000`; here the sum is taken modulo 2^16, so that such a line names a low address (`MEM+0xF008` is CTRL). -/
def asmAddr : AsmTarget → Addr
  | .reg r => BitVec.ofNat 16 (regOffset r)
  | .mem off => BitVec.ofNat 16 (windowBase + off)
  | .addr a => a

/-- `WR <target>, <value>` (30_encoding R100). -/
def asmWr (t : AsmTarget) (value : Word) : Transaction := .write (asmAddr t) value

/-- `RD <target>` (30_encoding R100). -/
def asmRd (t : AsmTarget) : Transaction := .read (asmAddr t)

/-- The `WR` lines of a command's operands, in the order ARG0, ARG1, ARG2, LEN, LEN2, blank columns left out
(30_encoding R101). A well-formed command's operands are 32-bit constants, as R100 asks of a `<value>`; of any other
operand the low 32 bits are written (log 7). -/
def asmOperands : Instr → List Transaction
  | .gfDeg src n => [asmWr (.reg .arg1) (operandWord src), asmWr (.reg .len) (operandWord n)]
  | .gfMul dst a b n =>
    [asmWr (.reg .arg0) (operandWord dst), asmWr (.reg .arg1) (operandWord a), asmWr (.reg .arg2) (operandWord b),
     asmWr (.reg .len) (operandWord n)]
  | .gfRed poly modulus n n2 =>
    [asmWr (.reg .arg0) (operandWord poly), asmWr (.reg .arg1) (operandWord modulus),
     asmWr (.reg .len) (operandWord n), asmWr (.reg .len2) (operandWord n2)]
  | .gfShl dst src n count =>
    [asmWr (.reg .arg0) (operandWord dst), asmWr (.reg .arg1) (operandWord src),
     asmWr (.reg .len) (operandWord n), asmWr (.reg .len2) (operandWord count)]
  | .gfInv dst a modulus n =>
    [asmWr (.reg .arg0) (operandWord dst), asmWr (.reg .arg1) (operandWord a),
     asmWr (.reg .arg2) (operandWord modulus), asmWr (.reg .len) (operandWord n)]
  | .ecAdd r p q _ =>
    [asmWr (.reg .arg0) (operandWord r), asmWr (.reg .arg1) (operandWord p), asmWr (.reg .arg2) (operandWord q)]
  | .ecDbl r p _ => [asmWr (.reg .arg0) (operandWord r), asmWr (.reg .arg1) (operandWord p)]
  | .ecMul r p k _ =>
    [asmWr (.reg .arg0) (operandWord r), asmWr (.reg .arg1) (operandWord p), asmWr (.reg .arg2) (operandWord k)]
  | .ecOncurve p _ => [asmWr (.reg .arg1) (operandWord p)]
  | .ecdhGenpub pub d _ => [asmWr (.reg .arg0) (operandWord pub), asmWr (.reg .arg1) (operandWord d)]
  | .ecdhValidate pub _ => [asmWr (.reg .arg1) (operandWord pub)]
  | .ecdhShared secret d peer _ =>
    [asmWr (.reg .arg0) (operandWord secret), asmWr (.reg .arg1) (operandWord d),
     asmWr (.reg .arg2) (operandWord peer)]

/-- A command's pseudo-instruction up to its START: `WR CMD`, the operands, `WR CTRL` with START (30_encoding R101). A
program that uses the interrupt writes CTRL with IRQ_EN set as well. -/
def asmIssue (irqEn : Bool) (i : Instr) : List Transaction :=
  asmWr (.reg .cmd) (commandWord i) :: asmOperands i ++ [asmWr (.reg .ctrl) (if irqEn then 3 else 1)]

/-- `WAIT` under a schedule in which the host reads STATUS `polls` times before the engine's completion step and once
after it: one or more reads of STATUS (30_encoding R102; log 13). -/
def asmWait (polls : Nat) : List Event :=
  List.replicate polls (.bus (asmRd (.reg .status))) ++ [.engine, .bus (asmRd (.reg .status))]

/-- A command's whole pseudo-instruction, `WAIT` included (30_encoding R101). -/
def asmCommand (irqEn : Bool) (i : Instr) (polls : Nat) : List Event :=
  (asmIssue irqEn i).map .bus ++ asmWait polls

/-- `CLR`: clears DONE and ACCERR (30_encoding R102). -/
def asmClr : List Transaction := [asmWr (.reg .status) 6]

/-- `CURVE base, fsb, m` (30_encoding R102), each value a 32-bit constant (R100; of any other, the low 32 bits: log 7). -/
def asmCurve (crv : CurveRegs) : List Transaction :=
  [asmWr (.reg .curveBase) (operandWord crv.base), asmWr (.reg .curveFsb) (operandWord crv.fsb),
   asmWr (.reg .curveM) (operandWord crv.m)]

/-- `WRFE off, n, v`: `⌈n/4⌉` words of the polynomial `v`, least significant first (30_encoding R103). DESIGN CHOICE (unsafe,
log 19): R103 asks that `off mod 4 = 0` and `deg(v) < 8·n` and does not say what a line that breaks them means; here it
expands by the same formula, so that a misaligned `off` makes misaligned writes, and the bits of `v` from `8·n` on stand
in the rest of the last word, those past it dropped. -/
def asmWrfe (off n v : Nat) : List Transaction :=
  (List.range ((n + 3) / 4)).map fun j => asmWr (.mem (off + 4 * j)) (BitVec.ofNat 32 (v >>> (32 * j)))

/-- `WRPT off, x, y` while CURVE_FSB holds `fsb`: `WRFE off, YOFF, x`, then `WRFE off+YOFF, FSB, y` (30_encoding R103). Where
one of these two breaks the conditions of WRFE, it expands as `asmWrfe` says (log 19). -/
def asmWrpt (off fsb x y : Nat) : List Transaction :=
  asmWrfe off (roundUp8 fsb) x ++ asmWrfe (off + roundUp8 fsb) fsb y

end Sys2Proof.Machine
end

