-- ==== Sys2Proof/Safety.lean ====
section
/-! DEFINITION. The terms the statements use: the invariant of the state, what a completion leaves and what it keeps,
which bytes change, and divisibility of polynomials. -/

namespace Sys2Proof.Machine

/-- The invariant of the block: the build is legal, OPMEM is canonical and lies in its range, ERRCODE is one of the
codes 0 to 4 (60_exceptions R190), a command in flight has DONE, ERRCODE and RESULT cleared (10_state R41,
60_exceptions R202), and an error code goes with RESULT 0 (60_exceptions R195). -/
structure Inv (s : State) : Prop where
  legal : s.cfg.Legal
  canonical : Memory.wf s.opmem
  bounded : ∀ c ∈ s.opmem, c.1 < s.cfg.opmemBytes
  code : s.errCode.toNat ≤ 4
  inFlight : s.busy = true → s.done = false ∧ s.errCode = okCode ∧ s.result = 0
  errorResult : s.errCode ≠ okCode → s.result = 0

/-- `t` is `s` after a completion with the given code and RESULT, apart from OPMEM: ENG is IDLE, DONE is 1, and nothing
else changes, no register, no flag, no input (10_state R42, 60_exceptions R210). -/
structure Completed (s t : State) (code : BitVec 4) (result : Word) : Prop where
  engine : t.engine = .idle
  done : t.done = true
  errCode : t.errCode = code
  result : t.result = result
  cfg : t.cfg = s.cfg
  irqEn : t.irqEn = s.irqEn
  accErr : t.accErr = s.accErr
  regs : t.regs = s.regs
  draw : t.draw = s.draw
  agenda : t.agenda = s.agenda
  portData : t.portData = s.portData

/-- Every OPMEM byte reads as before. -/
def SameBytes (s t : State) : Prop := ∀ x, t.byte x = s.byte x

/-- The `n` bytes from `a` on hold the given values, and every other OPMEM byte reads as before. -/
def StoresAt (s t : State) (a n : Nat) (value : Nat → Byte) : Prop :=
  ∀ x, t.byte x = if a ≤ x ∧ x < a + n then value (x - a) else s.byte x

/-- Byte `j` of a packed point: x, zero padding, y (20_memory R68). -/
def pointByte (fsb : Nat) (p : Point) (j : Nat) : Byte :=
  if j < fsb then byteOf p.x j else if j < roundUp8 fsb then 0 else byteOf p.y (j - roundUp8 fsb)

/-- An operand region lies in OPMEM (20_memory R65). -/
def Fits (s : State) (a n : Nat) : Prop := a + n ≤ s.cfg.opmemBytes

/-- The curve registers are consistent (41_ec_point R140): `1 ≤ FSB ≤ CAP_BYTES`, `M ≥ 1`, `FSB = (M >> 3) + 1`. -/
def CurveRegsConsistent (s : State) (crv : CurveRegs) : Prop :=
  1 ≤ crv.fsb ∧ crv.fsb ≤ s.cfg.capBytes ∧ 1 ≤ crv.m ∧ crv.fsb = crv.m >>> 3 + 1

/-- The conditions of CurveGeom and CurveLoad (41_ec_point R140, R141): consistent registers, the whole record in
range, and a modulus of degree M in it. -/
def CurveReady (s : State) (crv : CurveRegs) : Prop :=
  CurveRegsConsistent s crv ∧ Fits s crv.base (7 * s.cfg.capBytes) ∧ deg (s.curveRecord crv).f = crv.m

/-- `d` divides `p` in GF(2)[x]. -/
def PolyDvd (d p : Nat) : Prop := ∃ q, p = clmul q d

/-- `gcd(a, f) = 1` in GF(2)[x]: no polynomial of degree 1 or more divides both (40_gf2 R114). -/
def PolyCoprime (a f : Nat) : Prop := ∀ d, PolyDvd d a → PolyDvd d f → deg d < 1

/-- The point family and the ECDH family (30_encoding R92): the commands that read the curve registers. -/
def curveOf : Instr → Option CurveRegs
  | .gfDeg .. => none
  | .gfMul .. => none
  | .gfRed .. => none
  | .gfShl .. => none
  | .gfInv .. => none
  | .ecAdd _ _ _ crv => some crv
  | .ecDbl _ _ crv => some crv
  | .ecMul _ _ _ crv => some crv
  | .ecOncurve _ crv => some crv
  | .ecdhGenpub _ _ crv => some crv
  | .ecdhValidate _ crv => some crv
  | .ecdhShared _ _ _ crv => some crv

/-- The operand regions of a command, each an offset and a length (30_encoding R93, 60_exceptions R192). -/
def regionsOf : Instr → List (Nat × Nat)
  | .gfDeg src n => [(src, n)]
  | .gfMul dst a b n => [(a, n), (b, n), (dst, 2 * n)]
  | .gfRed poly modulus n n2 => [(poly, n), (modulus, n2)]
  | .gfShl dst src n _ => [(src, n), (dst, n)]
  | .gfInv dst a modulus n => [(a, n), (modulus, n), (dst, n)]
  | .ecAdd r p q crv => [(p, packedLen crv.fsb), (q, packedLen crv.fsb), (r, packedLen crv.fsb)]
  | .ecDbl r p crv => [(p, packedLen crv.fsb), (r, packedLen crv.fsb)]
  | .ecMul r p k crv => [(p, packedLen crv.fsb), (k, crv.fsb), (r, packedLen crv.fsb)]
  | .ecOncurve p crv => [(p, packedLen crv.fsb)]
  | .ecdhGenpub pub d crv => [(d, crv.fsb), (pub, packedLen crv.fsb)]
  | .ecdhValidate pub crv => [(pub, packedLen crv.fsb)]
  | .ecdhShared secret d peer crv => [(d, crv.fsb), (peer, packedLen crv.fsb), (secret, crv.fsb)]

/-- Every operand region of a command lies in OPMEM (30_encoding R93, 20_memory R65). -/
def RegionsFit (s : State) (i : Instr) : Prop := ∀ g ∈ regionsOf i, Fits s g.1 g.2

/-- The command completes with an error code: RESULT is 0 and no OPMEM byte changes (60_exceptions R195). -/
def FailsWith (i : Instr) (s : State) (code : BitVec 4) : Prop :=
  ∃ t, exec i s = .next t ∧ Completed s t code 0 ∧ SameBytes s t

/-- The checks of a point or ECDH command before its computation, in order, each with its code (60_exceptions R192,
41_ec_point R140, R141): inconsistent curve registers, PARAM; record or operand region out of range, RANGE; a modulus
whose degree is not M, PARAM. -/
def CurveChecks (i : Instr) (crv : CurveRegs) (s : State) : Prop :=
  (¬CurveRegsConsistent s crv → FailsWith i s 3) ∧
  (CurveRegsConsistent s crv → ¬(Fits s crv.base (7 * s.cfg.capBytes) ∧ RegionsFit s i) → FailsWith i s 2) ∧
  (CurveRegsConsistent s crv → Fits s crv.base (7 * s.cfg.capBytes) → RegionsFit s i →
    deg (s.curveRecord crv).f ≠ crv.m → FailsWith i s 3)

/-- The point or ECDH command reaches its computation: every check passes (60_exceptions R192). -/
def CurveRuns (i : Instr) (crv : CurveRegs) (s : State) : Prop := CurveReady s crv ∧ RegionsFit s i

/-- Offset `x` lies in the `n` bytes from `a` on. -/
def InRegion (a n x : Nat) : Prop := a ≤ x ∧ x < a + n

/-- Offset `x` is one of the coordinate bytes of the packed point at `a`: a padding byte is not (20_memory R67). -/
def InPoint (fsb a x : Nat) : Prop := InRegion a fsb x ∨ InRegion (a + roundUp8 fsb) fsb x

/-- Offset `x` is one of the first FSB bytes of one of the six record slots a command reads; the cofactor's slot is none
of them (20_memory R66). -/
def InRecord (s : State) (crv : CurveRegs) (x : Nat) : Prop :=
  ∃ k < 6, InRegion (crv.base + k * s.cfg.capBytes) crv.fsb x

/-- The OPMEM bytes a command may read (30_encoding R93, 20_memory R63, R66, R67, R70). -/
def ReadsByte (s : State) : Instr → Nat → Prop
  | .gfDeg src n, x => InRegion src n x
  | .gfMul _ a b n, x => InRegion a n x ∨ InRegion b n x
  | .gfRed poly modulus n n2, x => InRegion poly n x ∨ InRegion modulus n2 x
  | .gfShl _ src n _, x => InRegion src n x
  | .gfInv _ a modulus n, x => InRegion a n x ∨ InRegion modulus n x
  | .ecAdd _ p q crv, x => InRecord s crv x ∨ InPoint crv.fsb p x ∨ InPoint crv.fsb q x
  | .ecDbl _ p crv, x => InRecord s crv x ∨ InPoint crv.fsb p x
  | .ecMul _ p k crv, x => InRecord s crv x ∨ InPoint crv.fsb p x ∨ InRegion k crv.fsb x
  | .ecOncurve p crv, x => InRecord s crv x ∨ InPoint crv.fsb p x
  | .ecdhGenpub _ d crv, x => InRecord s crv x ∨ InRegion d crv.fsb x
  | .ecdhValidate pub crv, x => InRecord s crv x ∨ InPoint crv.fsb pub x
  | .ecdhShared _ d peer crv, x => InRecord s crv x ∨ InRegion d crv.fsb x ∨ InPoint crv.fsb peer x

/-- The nine RW registers (10_state R28 to R34). -/
def rwRegs : List Reg := [.cmd, .arg0, .arg1, .arg2, .len, .len2, .curveBase, .curveFsb, .curveM]

/-- The twelve command words (30_encoding R92). -/
def commandWords : List Word :=
  [0x01, 0x02, 0x03, 0x04, 0x05, 0x10, 0x11, 0x12, 0x13, 0x20, 0x21, 0x22]

/-- The curve registers hold the curve operands of a command, if it has any. -/
def CurveRegsHold (s : State) (i : Instr) : Prop :=
  match curveOf i with
  | none => True
  | some crv => curveOperands s.regs = crv

end Sys2Proof.Machine
end

