-- ==== Sys2Proof/Certificates/Slice0/Obligations.lean ====
section
/-! DEFINITION. The statements about the GF2M-ECDH core. A statement says `∃ t, exec i s = .next t ∧ …` where it says
that a command completes; `Completed s t code result` is the frame of a completion (Safety.lean). Codes are written
as 60_exceptions R190 numbers them: 0 OK, 1 BADOP, 2 RANGE, 3 PARAM, 4 NOINV. -/

open Sys2Proof Sys2Proof.Machine

/-! ### Encoding (30_encoding) -/

/-- Decoding the nine words of any well-formed command gives the command back, with every operand at every value. -/
def Obligations.DecodeInvertsEncode : Prop :=
  ∀ i : Instr, i.wellFormed = true → decode (encode i) = .ok i

/-- 30_encoding R91, R96, R97: a CMD word is one of the twelve and decodes, or it is a BADOP word, whose command
completes with code 1, RESULT 0 and no OPMEM byte changed. -/
def Obligations.CommandWordsAreTwelveOrBadop : Prop :=
  ∀ c : Command,
    (c.cmd ∈ commandWords → ∃ i, decode c = .ok i) ∧
    (c.cmd ∉ commandWords →
      ∀ s : State, ∃ t, runCommand c s = .next t ∧ Completed s t 1 0 ∧ SameBytes s t)

/-- 30_encoding R95: changing the registers that a command's row leaves blank changes nothing of the outcome. -/
def Obligations.BlankColumnsHaveNoEffect : Prop :=
  ∀ (c : Command) (v0 v1 v2 l l2 cb cf cm : Word) (s : State),
    (c.cmd = 0x01 → runCommand { c with arg0 := v0, arg2 := v2, len2 := l2, curveBase := cb, curveFsb := cf, curveM := cm } s =
      runCommand c s) ∧
    (c.cmd = 0x02 → runCommand { c with len2 := l2, curveBase := cb, curveFsb := cf, curveM := cm } s = runCommand c s) ∧
    (c.cmd = 0x03 → runCommand { c with arg2 := v2, curveBase := cb, curveFsb := cf, curveM := cm } s = runCommand c s) ∧
    (c.cmd = 0x04 → runCommand { c with arg2 := v2, curveBase := cb, curveFsb := cf, curveM := cm } s = runCommand c s) ∧
    (c.cmd = 0x05 → runCommand { c with len2 := l2, curveBase := cb, curveFsb := cf, curveM := cm } s = runCommand c s) ∧
    (c.cmd = 0x10 → runCommand { c with len := l, len2 := l2 } s = runCommand c s) ∧
    (c.cmd = 0x11 → runCommand { c with arg2 := v2, len := l, len2 := l2 } s = runCommand c s) ∧
    (c.cmd = 0x12 → runCommand { c with len := l, len2 := l2 } s = runCommand c s) ∧
    (c.cmd = 0x13 → runCommand { c with arg0 := v0, arg2 := v2, len := l, len2 := l2 } s = runCommand c s) ∧
    (c.cmd = 0x20 → runCommand { c with arg2 := v2, len := l, len2 := l2 } s = runCommand c s) ∧
    (c.cmd = 0x21 → runCommand { c with arg0 := v0, arg2 := v2, len := l, len2 := l2 } s = runCommand c s) ∧
    (c.cmd = 0x22 → runCommand { c with len := l, len2 := l2 } s = runCommand c s) ∧
    (c.cmd ∉ commandWords →
      runCommand ⟨c.cmd, v0, v1, v2, l, l2, cb, cf, cm⟩ s = runCommand c s)

/-- Words of 30_encoding R92, written out bit by bit, decode to the commands they stand for; words beside them do not. -/
def Obligations.SpecWordsDecode : Prop :=
  decodeTableWord 32 0b00000000000000000000000000000010 = some (.gfMul 0 0 0 0) ∧
  decodeTableWord 32 0b00000000000000000000000000000101 = some (.gfInv 0 0 0 0) ∧
  decodeTableWord 32 0b00000000000000000000000000010010 = some (.ecMul 0 0 0 ⟨0, 0, 0⟩) ∧
  decodeTableWord 32 0b00000000000000000000000000100001 = some (.ecdhValidate 0 ⟨0, 0, 0⟩) ∧
  decodeTableWord 32 0b00000000000000000000000000100010 = some (.ecdhShared 0 0 0 ⟨0, 0, 0⟩) ∧
  decodeTableWord 32 0b00000000000000000000000000000000 = none ∧
  decodeTableWord 32 0b00000000000000000000000000010100 = none ∧
  decodeTableWord 32 0b00000000000000000000000100000001 = none

/-- Whatever decodes is well-formed and is encoded with the same CMD word to a command that decodes to it again. -/
def Obligations.DecodedCommandsReencode : Prop :=
  ∀ (c : Command) (i : Instr), decode c = .ok i →
    i.wellFormed = true ∧ (encode i).cmd = c.cmd ∧ decode (encode i) = .ok i

/-! ### The step and the engine (00_scope R8, 10_state R40 to R42) -/

/-- 10_state R42, 30_encoding R99: when a command is in flight, its snapshot decodes to `i`, and it is the engine's turn,
the step is `exec i`, on the state whose event (if there is one) is taken off the agenda and whose port is silent. -/
def Obligations.StepRunsTheDecodedCommand : Prop :=
  ∀ (s : State) (c : Command) (i : Instr), s.engine = .busy c → decode c = .ok i →
    (s.agenda = [] ∨ ∃ rest, s.agenda = .engine :: rest) →
    step s = exec i { s with agenda := s.agenda.tail, portData := none }

/-- 00_scope R8, 70_reset R220, 10_state R20 and log 1: the first event of the agenda is the step. A bus transaction is
performed, its data standing on the port if it is a read; an idle engine has no step; a reset is a reset. -/
def Obligations.StepTakesTheFirstEvent : Prop :=
  ∀ (s : State) (rest : List Event),
    (∀ addr, s.agenda = .bus (.read addr) :: rest →
      step s = .next { (State.busRead { s with agenda := rest, portData := none } addr).2 with
        portData := some (State.busRead { s with agenda := rest, portData := none } addr).1 }) ∧
    (∀ addr data, s.agenda = .bus (.write addr data) :: rest →
      step s = .next (State.busWrite { s with agenda := rest, portData := none } addr data)) ∧
    (s.agenda = .reset :: rest → step s = .next (State.applyReset { s with agenda := rest, portData := none })) ∧
    (s.agenda = .engine :: rest → s.engine = .idle → step s = .next { s with agenda := rest, portData := none }) ∧
    (s.agenda = [] → s.engine = .idle → step s = .next { s with portData := none })

/-- 93_implementation_defined (no entry uses `stuck`), 60_exceptions R191: no state stops the machine. -/
def Obligations.MachineNeverStops : Prop := ∀ s : State, ∃ t, step s = .next t

/-- 10_state R41, R42: if no reset is among the inputs, a command in flight completes after at most as many steps as
inputs are left (log 1), whatever the host does; it completes with the snapshot it was started with, on the OPMEM
bytes as they stood. -/
def Obligations.CommandInFlightCompletes : Prop :=
  ∀ (s : State) (c : Command), s.engine = .busy c → .reset ∉ s.agenda →
    ∃ (k : Nat) (u t : State), k ≤ s.agenda.length ∧ Host.Core.run Sys2Proof.core k s = .next u ∧
      u.engine = .busy c ∧ SameBytes s u ∧ u.cfg = s.cfg ∧
      step u = .next t ∧ runCommand c { u with agenda := u.agenda.tail, portData := none } = .next t

/-- 10_state R25 with R41: a CTRL write sets IRQ_EN; with `data[0] = 1` it starts a command when IDLE (the snapshot is
taken, DONE, ERRCODE and RESULT are cleared) and is refused with ACCERR when BUSY. -/
def Obligations.CtrlWriteStartsOrRefuses : Prop :=
  ∀ (s : State) (data : Word),
    (data.getLsbD 0 = false → s.busWrite 0x008 data = { s with irqEn := data.getLsbD 1 }) ∧
    (data.getLsbD 0 = true → s.engine = .idle →
      s.busWrite 0x008 data = { s with
        irqEn := data.getLsbD 1, engine := .busy s.regs, done := false, errCode := 0, result := 0 }) ∧
    (∀ c, data.getLsbD 0 = true → s.engine = .busy c →
      s.busWrite 0x008 data = { s with irqEn := data.getLsbD 1, accErr := true })

/-- 30_encoding R101, 70_reset R223: the expansion of any command's pseudo-instruction, run from an IDLE block whose
curve registers hold the command's curve operands, ends IDLE and DONE with the code, RESULT and OPMEM bytes of the
command's meaning, however often the host polls before the completion (log 13). The transactions are the agenda, which
is used up (log 1), and the data of the last read, STATUS, stands on the port (log 2). -/
def Obligations.IssuedCommandHasItsMeaning : Prop :=
  ∀ (i : Instr) (s : State) (irqEn : Bool) (polls : Nat),
    i.wellFormed = true → s.engine = .idle → CurveRegsHold s i →
    ∃ t u : State, exec i s = .next u ∧
      Host.Core.run Sys2Proof.core (asmCommand irqEn i polls).length
        { s with agenda := asmCommand irqEn i polls } = .next t ∧
      t.engine = .idle ∧ t.done = true ∧ t.errCode = u.errCode ∧ t.result = u.result ∧ SameBytes u t ∧
      t.irqEn = irqEn ∧ t.accErr = s.accErr ∧ t.cfg = s.cfg ∧ t.agenda = [] ∧ t.portData = some t.statusWord

/-- 30_encoding R103: `WRFE off, n, v` from an IDLE block stores `v` as an `n`-byte field element, writes zero into the
rest of its last word, changes no other byte, and changes nothing else of the block: no flag, no register, not the
engine. Its writes are taken off the agenda, and only the port (log 1, log 2) may differ as well. -/
def Obligations.WrfeStoresTheElement : Prop :=
  ∀ (s : State) (off n v : Nat), s.cfg.Legal → s.engine = .idle → off % 4 = 0 →
    Fits s off (4 * ((n + 3) / 4)) → v < 2 ^ (8 * n) →
    ∃ t, Host.Core.run Sys2Proof.core (asmWrfe off n v).length
        { s with agenda := (asmWrfe off n v).map .bus } = .next t ∧
      t.fe off n = v ∧
      (∀ x, off + n ≤ x → x < off + 4 * ((n + 3) / 4) → t.byte x = 0) ∧
      (∀ x, ¬InRegion off (4 * ((n + 3) / 4)) x → t.byte x = s.byte x) ∧
      t = { s with opmem := t.opmem, agenda := [], portData := t.portData }

/-! ### The host port (10_state R20 to R37, 20_memory R60 to R74, 60_exceptions R197) -/

/-- 10_state R21 to R36: what a BusRead at each register's offset returns; it changes no state. -/
def Obligations.RegisterReadValues : Prop :=
  ∀ s : State,
    s.busRead 0x000 = (BitVec.ofNat 32 s.cfg.capBytes, s) ∧
    s.busRead 0x004 = (BitVec.ofNat 32 s.cfg.opmemBytes, s) ∧
    s.busRead 0x008 = (s.ctrlWord, s) ∧
    s.busRead 0x00C = (s.statusWord, s) ∧
    s.busRead 0x010 = (s.regs.cmd, s) ∧
    s.busRead 0x014 = (s.regs.arg0, s) ∧
    s.busRead 0x018 = (s.regs.arg1, s) ∧
    s.busRead 0x01C = (s.regs.arg2, s) ∧
    s.busRead 0x020 = (s.regs.len, s) ∧
    s.busRead 0x024 = (s.regs.len2, s) ∧
    s.busRead 0x028 = (s.result, s) ∧
    s.busRead 0x030 = (s.regs.curveBase, s) ∧
    s.busRead 0x034 = (s.regs.curveFsb, s) ∧
    s.busRead 0x038 = (s.regs.curveM, s) ∧
    s.busRead 0x03C = (s.ptYoff, s) ∧
    s.busRead 0x040 = (s.ptLen, s)

/-- 10_state R24, R26: the bits of STATUS and CTRL, the reserved ones reading 0. -/
def Obligations.StatusAndCtrlBits : Prop :=
  ∀ s : State,
    s.statusWord.getLsbD 0 = s.busy ∧ s.statusWord.getLsbD 1 = s.done ∧ s.statusWord.getLsbD 2 = s.accErr ∧
    s.statusWord.extractLsb' 8 4 = s.errCode ∧
    (∀ j, (3 ≤ j ∧ j < 8) ∨ 12 ≤ j → s.statusWord.getLsbD j = false) ∧
    s.ctrlWord.getLsbD 1 = s.irqEn ∧ (∀ j, j ≠ 1 → s.ctrlWord.getLsbD j = false)

/-- 10_state R27: a STATUS write clears DONE and ACCERR where its bits 1 and 2 are 1, and changes nothing else, also
while BUSY. -/
def Obligations.StatusWriteClearsFlags : Prop :=
  ∀ (s : State) (data : Word),
    s.busWrite 0x00C data =
      { s with done := if data.getLsbD 1 then false else s.done,
               accErr := if data.getLsbD 2 then false else s.accErr }

/-- 10_state R35: a write of one of the nine RW registers takes effect at once, IDLE or BUSY: the register reads the data,
no other stored register changes, nor any OPMEM byte, nor the engine; and a command in flight does not see it, so
completing after the write is the same as writing after the completion. -/
def Obligations.RegisterWriteMissesTheCommandInFlight : Prop :=
  ∀ (s : State) (r : Reg) (data : Word), r ∈ rwRegs →
    let t := s.busWrite (BitVec.ofNat 16 (regOffset r)) data
    t.readReg r = data ∧
    (∀ r', r' ≠ r → r' ≠ .ptYoff → r' ≠ .ptLen → t.readReg r' = s.readReg r') ∧
    SameBytes s t ∧ t.engine = s.engine ∧
    ∀ c, s.engine = .busy c → ∃ u, runCommand c s = .next u ∧
      runCommand c t = .next (u.busWrite (BitVec.ofNat 16 (regOffset r)) data)

/-- 10_state R37: writes of the read-only registers change nothing, and so do the read-only bits of a CTRL or STATUS
write. -/
def Obligations.ReadOnlyWritesAreIgnored : Prop :=
  ∀ (s : State) (data : Word),
    (∀ addr : Addr, addr ∈ [0x000, 0x004, 0x028, 0x03C, 0x040] → s.busWrite addr data = s) ∧
    s.busWrite 0x008 data = s.busWrite 0x008 (data &&& 3) ∧
    s.busWrite 0x00C data = s.busWrite 0x00C (data &&& 6)

/-- 20_memory R71, R72: a misaligned or unmapped transaction is refused: a write changes nothing, a read returns 0,
either one sets ACCERR. -/
def Obligations.MisalignedAndUnmappedAreRefused : Prop :=
  ∀ (s : State) (addr : Addr) (data : Word),
    (addr.toNat % 4 ≠ 0 ∨ addr.toNat = 0x02C ∨ (0x044 ≤ addr.toNat ∧ addr.toNat < 0x1000) ∨
      0x1000 + s.cfg.opmemBytes ≤ addr.toNat) →
    s.busRead addr = (0, { s with accErr := true }) ∧ s.busWrite addr data = { s with accErr := true }

/-- 20_memory R61, R62: the OPMEM window. While BUSY a read returns 0 and a write changes no byte, and both set ACCERR;
while IDLE a read returns the four bytes, little-endian, a write stores the data's four bytes, and neither sets a
flag. -/
def Obligations.OpmemWindowAccess : Prop :=
  ∀ (s : State) (o : Nat) (data : Word), s.cfg.Legal → o % 4 = 0 → o < s.cfg.opmemBytes →
    let addr : Addr := BitVec.ofNat 16 (0x1000 + o)
    (∀ c, s.engine = .busy c →
      s.busRead addr = (0, { s with accErr := true }) ∧ s.busWrite addr data = { s with accErr := true }) ∧
    (s.engine = .idle →
      s.busRead addr = (s.byte (o + 3) ++ s.byte (o + 2) ++ s.byte (o + 1) ++ s.byte o, s) ∧
      StoresAt s (s.busWrite addr data) o 4 (fun j => data.extractLsb' (8 * j) 8) ∧
      s.busWrite addr data = { s with opmem := (s.busWrite addr data).opmem })

/-- From 20_memory R61, R85: while IDLE, an OPMEM word reads the word last written to it, and a write to another word
does not change what it reads. -/
def Obligations.OpmemWordReadAfterWrite : Prop :=
  ∀ (s : State) (o o' : Nat) (data : Word), s.cfg.Legal → s.engine = .idle →
    o % 4 = 0 → o < s.cfg.opmemBytes → o' % 4 = 0 → o' < s.cfg.opmemBytes →
    ((s.busWrite (BitVec.ofNat 16 (0x1000 + o)) data).busRead (BitVec.ofNat 16 (0x1000 + o'))).1 =
      if o' = o then data else (s.busRead (BitVec.ofNat 16 (0x1000 + o'))).1

/-- 60_exceptions R197: ACCERR rises in a step exactly on a misaligned or unmapped transaction, an OPMEM transaction
while BUSY, or a START while BUSY; once set it falls only by a STATUS write with `data[2] = 1` or a reset. -/
def Obligations.AccErrRisesAndFallsOnlySo : Prop :=
  ∀ s t : State, step s = .next t →
    (s.accErr = false →
      (t.accErr = true ↔
        ∃ (tr : Transaction) (rest : List Event) (addr : Addr), s.agenda = .bus tr :: rest ∧
          (tr = .read addr ∨ ∃ data, tr = .write addr data) ∧
          (targetOf s.cfg addr = .misaligned ∨ targetOf s.cfg addr = .unmapped ∨
            ((∃ o, targetOf s.cfg addr = .opmem o) ∧ s.busy = true) ∨
            ((∃ data : Word, tr = .write addr data ∧ data.getLsbD 0 = true) ∧
              targetOf s.cfg addr = .reg .ctrl ∧ s.busy = true)))) ∧
    (s.accErr = true →
      (t.accErr = false ↔
        (∃ rest, s.agenda = .reset :: rest) ∨
        ∃ (addr : Addr) (data : Word) (rest : List Event), s.agenda = .bus (.write addr data) :: rest ∧
          targetOf s.cfg addr = .reg .status ∧ data.getLsbD 2 = true))

/-- 10_state R43, 60_exceptions R199: the interrupt is the level of DONE and IRQ_EN: raised by every completion under
IRQ_EN, a BADOP completion included, and by setting IRQ_EN while DONE; lowered by clearing IRQ_EN or DONE, by an accepted
START, and by reset. A refused START leaves DONE and still writes IRQ_EN. -/
def Obligations.InterruptLevel : Prop :=
  ∀ (s : State) (data : Word),
    (∀ (i : Instr) (t : State), exec i s = .next t → t.irq = s.irqEn) ∧
    (∀ (c : Command) (t : State), runCommand c s = .next t → t.irq = s.irqEn) ∧
    (data.getLsbD 0 = false → (s.busWrite 0x008 data).irq = (s.done && data.getLsbD 1)) ∧
    (data.getLsbD 0 = true → s.engine = .idle → (s.busWrite 0x008 data).irq = false) ∧
    (∀ c, data.getLsbD 0 = true → s.engine = .busy c → (s.busWrite 0x008 data).irq = (s.done && data.getLsbD 1)) ∧
    (data.getLsbD 1 = true → (s.busWrite 0x00C data).irq = false) ∧
    (data.getLsbD 1 = false → (s.busWrite 0x00C data).irq = s.irq) ∧
    s.applyReset.irq = false

/-- 10_state R36: PT_YOFF and PT_LEN are read-only; at each read PT_YOFF is the current CURVE_FSB rounded up to a multiple of
8, and PT_LEN is that plus CURVE_FSB, each mod 2^32. -/
def Obligations.PointGeometryRegisters : Prop :=
  ∀ s : State,
    let fsb := s.regs.curveFsb.toNat
    (s.busRead 0x03C).1.toNat = ((fsb + 7) - ((fsb + 7) % 8)) % 2 ^ 32 ∧
    (s.busRead 0x040).1.toNat = (((fsb + 7) - ((fsb + 7) % 8)) + fsb) % 2 ^ 32 ∧
    ∀ data, s.busWrite 0x03C data = s ∧ s.busWrite 0x040 data = s

/-! ### Reset, and what holds of every state (10_state R45, 70_reset R220, 20_memory R85) -/

/-- 10_state R45, 70_reset R220, R221: a reset step leaves every register at its reset value, whatever was in flight; CAPS
and OPMEM_SIZE do not change, and every OPMEM byte is the free value of that reset (log 3). -/
def Obligations.ResetStepValues : Prop :=
  ∀ (s : State) (rest : List Event), s.agenda = .reset :: rest →
    ∃ t, step s = .next t ∧ t.cfg = s.cfg ∧ t.engine = .idle ∧ t.irq = false ∧
      (∀ r : Reg, r ≠ .caps → r ≠ .opmemSize → t.readReg r = 0) ∧
      t.readReg .caps = BitVec.ofNat 32 s.cfg.capBytes ∧
      t.readReg .opmemSize = BitVec.ofNat 32 s.cfg.opmemBytes ∧
      (∀ x, t.byte x = Config.freeByte t.draw x) ∧ t.draw ≠ s.draw

/-- The invariant holds right after reset, in every legal build (00_scope R5, R6), whatever the draw of its free bytes and
the inputs to come (log 1, log 3); `State.reset`, the conformance build (log 4), is one of these states. -/
def Obligations.ResetStateSatisfiesInvariant : Prop :=
  (∀ (cfg : Config) (draw : Nat) (agenda : List Event), cfg.Legal → Inv (State.afterReset cfg draw agenda)) ∧
  Inv State.reset

/-- The invariant is kept by every step from every state that has it: a legal build, OPMEM canonical and within
OPMEM_BYTES, ERRCODE one of 0 to 4, DONE, ERRCODE and RESULT clear while a command is in flight, RESULT 0 beside an
error code (60_exceptions R190, R195, R202). -/
def Obligations.EveryStepKeepsTheInvariant : Prop := ∀ s t : State, Inv s → step s = .next t → Inv t

/-- 10_state R22, R23, 70_reset R220: no step, not even a reset, changes CAPS or OPMEM_SIZE. -/
def Obligations.BuildConstantsNeverChange : Prop :=
  ∀ s t : State, step s = .next t →
    t.readReg .caps = s.readReg .caps ∧ t.readReg .opmemSize = s.readReg .opmemSize

/-- 20_memory R85: apart from reset, an OPMEM byte changes in a step only by an accepted write of its word or by a
completion with code OK. -/
def Obligations.OpmemBytesChangeOnlySo : Prop :=
  ∀ (s t : State) (x : Nat), step s = .next t → t.byte x ≠ s.byte x →
    (∃ rest, s.agenda = .reset :: rest) ∨
    (∃ (addr : Addr) (data : Word) (rest : List Event) (o : Nat), s.agenda = .bus (.write addr data) :: rest ∧
      targetOf s.cfg addr = .opmem o ∧ s.engine = .idle ∧ InRegion o 4 x) ∨
    (∃ c, s.engine = .busy c ∧ t.engine = .idle ∧ t.done = true ∧ t.errCode = 0)

/-- 60_exceptions R195: a command that completes with a nonzero code changes nothing but STATUS and RESULT: RESULT is 0,
DONE is 1, BUSY is 0, ERRCODE is the code. -/
def Obligations.ErrorCompletionIsPrecise : Prop :=
  ∀ s t : State, ((∃ i, exec i s = .next t) ∨ ∃ c, runCommand c s = .next t) → t.errCode ≠ 0 →
    t = { s with result := 0, errCode := t.errCode, done := true, engine := .idle }

/-- 60_exceptions R190: no command word can report a code above 4, and the codes each command can report. -/
def Obligations.ErrorCodesOfEachCommand : Prop :=
  (∀ (c : Command) (s t : State), runCommand c s = .next t → t.errCode.toNat ≤ 4) ∧
  ∀ (i : Instr) (s t : State), exec i s = .next t →
    (t.errCode = 0 ∨ t.errCode = 2 ∨ t.errCode = 3 ∨ t.errCode = 4) ∧
    (t.errCode = 3 ∨ t.errCode = 4 →
      (∀ src n, i ≠ .gfDeg src n) ∧ (∀ dst a b n, i ≠ .gfMul dst a b n) ∧ (∀ dst src n k, i ≠ .gfShl dst src n k)) ∧
    (t.errCode = 4 →
      (∀ poly f n n2, i ≠ .gfRed poly f n n2) ∧ (∀ p crv, i ≠ .ecOncurve p crv) ∧ ∀ p crv, i ≠ .ecdhValidate p crv)

/-- 10_state R42, 20_memory R66, R67: a command's code, RESULT and written bytes depend only on its operands, the build
and the OPMEM bytes it reads. The cofactor slot, a slot's bytes from FSB on and a point's padding are not among them. -/
def Obligations.CommandsReadOnlyTheirSources : Prop :=
  ∀ (i : Instr) (s s' t t' : State), s'.cfg = s.cfg → (∀ x, ReadsByte s i x → s'.byte x = s.byte x) →
    exec i s = .next t → exec i s' = .next t' →
    t'.errCode = t.errCode ∧ t'.result = t.result ∧
    ∀ x, t'.byte x = t.byte x ∨ (t.byte x = s.byte x ∧ t'.byte x = s'.byte x)

/-! ### The field units (40_gf2 section 1) -/

/-- 40_gf2 R110: the degree is the index of the highest set bit, and −1 for the zero polynomial. -/
def Obligations.DegreeIsTheHighestSetBit : Prop :=
  deg 0 = -1 ∧
  ∀ p : Nat, p ≠ 0 → ∃ d : Nat, deg p = d ∧ p.testBit d = true ∧ ∀ j, d < j → p.testBit j = false

/-- 40_gf2 R111: bit `k` of the carry-less product is the parity of the number of pairs of set bits `i` of `a` and `j` of
`b` with `i + j = k`; the product of two `n`-byte operands has degree at most `16n − 2`. -/
def Obligations.CarrylessProductBits : Prop :=
  (∀ a b k : Nat, (clmul a b).testBit k =
    decide ((((List.range (k + 1)).filter fun i => a.testBit i && b.testBit (k - i)).length) % 2 = 1)) ∧
  ∀ a b n : Nat, 1 ≤ n → a < 2 ^ (8 * n) → b < 2 ^ (8 * n) → deg (clmul a b) ≤ 16 * n - 2

/-- 40_gf2 R116: the laws of the field arithmetic. -/
def Obligations.FieldArithmeticLaws : Prop :=
  (∀ p q r : Nat, (p ^^^ q) ^^^ r = p ^^^ (q ^^^ r) ∧ p ^^^ q = q ^^^ p ∧ p ^^^ 0 = p ∧ p ^^^ p = 0) ∧
  (∀ p q r : Nat, clmul (clmul p q) r = clmul p (clmul q r) ∧ clmul p q = clmul q p ∧
    clmul p (q ^^^ r) = clmul p q ^^^ clmul p r ∧ clmul p 1 = p) ∧
  ∀ u v f : Nat, f ≠ 0 → pmod (clmul (pmod u f) (pmod v f)) f = pmod (clmul u v) f

/-- 40_gf2 R112: for `f ≠ 0`, `pmod(p, f)` is the unique remainder of degree below `deg(f)`; its degree is not above
`deg(p)`, it is `p` when `deg(p) < deg(f)`, and it is 0 for `f = 1`. -/
def Obligations.RemainderIsUnique : Prop :=
  (∀ p f : Nat, f ≠ 0 →
    deg (pmod p f) < deg f ∧ (∃ q, p = clmul q f ^^^ pmod p f) ∧
    (∀ q r, deg r < deg f → p = clmul q f ^^^ r → r = pmod p f) ∧
    deg (pmod p f) ≤ deg p ∧ (deg p < deg f → pmod p f = p)) ∧
  ∀ p : Nat, pmod p 1 = 0

/-- 40_gf2 R113: `shl(p, s, w)` keeps the coefficients of `p · x^s` below `x^w`; it is 0 for `s ≥ w`. -/
def Obligations.ShiftKeepsTheLowCoefficients : Prop :=
  ∀ p s w : Nat,
    (∀ j, (shl p s w).testBit j = (decide (j < w) && decide (s ≤ j) && p.testBit (j - s))) ∧
    shl p s w = (p <<< s) % 2 ^ w ∧ (w ≤ s → shl p s w = 0)

/-- 40_gf2 R115: when `gcd(a, f) = 1`, `inv_euclid(a, f)` is the unique `r` with `deg(r) < deg(f)` and
`pmod(clmul(a, r), f) = 1`; for `deg(a) ≥ deg(f)` it is the inverse of `pmod(a, f)`. -/
def Obligations.InverseOfACoprimeElement : Prop :=
  ∀ a f : Nat, 1 ≤ deg f → PolyCoprime a f →
    ∃ r, invEuclid a f = .ok r ∧ deg r < deg f ∧ pmod (clmul a r) f = 1 ∧
      (∀ r', deg r' < deg f → pmod (clmul a r') f = 1 → r' = r) ∧
      invEuclid (pmod a f) f = .ok r

/-- 40_gf2 R114: the raise fires exactly when `gcd(a, f) ≠ 1`, in particular for `a = 0` and for `a ≡ 0 (mod f)`. -/
def Obligations.NoInverseExactlyWhenNotCoprime : Prop :=
  ∀ a f : Nat, 1 ≤ deg f →
    (invEuclid a f = .error .noinv ↔ ¬PolyCoprime a f) ∧
    invEuclid 0 f = .error .noinv ∧ (pmod a f = 0 → invEuclid a f = .error .noinv)

/-! ### The field commands (40_gf2 section 2): the words that select each, its operands, result, frame and errors -/

/-- 40_gf2 R120: GF_DEG writes the degree to RESULT as a two's-complement word and changes no OPMEM byte; a length or
region out of range is RANGE. -/
def Obligations.GfDegCommand : Prop :=
  (∀ c : Command, c.cmd = 0x01 → decode c = .ok (.gfDeg c.arg1.toNat c.len.toNat)) ∧
  ∀ (src n : Nat) (s : State),
    ((1 ≤ n ∧ n ≤ 2 * s.cfg.capBytes) → Fits s src n →
      ∃ t, exec (.gfDeg src n) s = .next t ∧
        Completed s t 0 (BitVec.ofInt 32 (deg (s.fe src n))) ∧ SameBytes s t) ∧
    (¬((1 ≤ n ∧ n ≤ 2 * s.cfg.capBytes) ∧ Fits s src n) → FailsWith (.gfDeg src n) s 2)

/-- 40_gf2 R121: GF_MUL writes the `2n` bytes of the carry-less product, RESULT 0, and changes no other byte; a length or
region out of range is RANGE. -/
def Obligations.GfMulCommand : Prop :=
  (∀ c : Command, c.cmd = 0x02 → decode c = .ok (.gfMul c.arg0.toNat c.arg1.toNat c.arg2.toNat c.len.toNat)) ∧
  ∀ (dst a b n : Nat) (s : State),
    ((1 ≤ n ∧ n ≤ s.cfg.capBytes) → Fits s a n → Fits s b n → Fits s dst (2 * n) →
      ∃ t, exec (.gfMul dst a b n) s = .next t ∧ Completed s t 0 0 ∧
        StoresAt s t dst (2 * n) (byteOf (clmul (s.fe a n) (s.fe b n)))) ∧
    (¬((1 ≤ n ∧ n ≤ s.cfg.capBytes) ∧ Fits s a n ∧ Fits s b n ∧ Fits s dst (2 * n)) →
      FailsWith (.gfMul dst a b n) s 2)

/-- 40_gf2 R122: GF_RED writes the `n` bytes of the remainder in place, RESULT 0, and changes no other byte; lengths and
regions out of range are RANGE, and then a zero modulus is PARAM. -/
def Obligations.GfRedCommand : Prop :=
  (∀ c : Command, c.cmd = 0x03 → decode c = .ok (.gfRed c.arg0.toNat c.arg1.toNat c.len.toNat c.len2.toNat)) ∧
  ∀ (poly modulus n n2 : Nat) (s : State),
    ((1 ≤ n ∧ n ≤ 2 * s.cfg.capBytes) → (1 ≤ n2 ∧ n2 ≤ s.cfg.capBytes) → Fits s poly n → Fits s modulus n2 →
      (s.fe modulus n2 ≠ 0 →
        ∃ t, exec (.gfRed poly modulus n n2) s = .next t ∧ Completed s t 0 0 ∧
          StoresAt s t poly n (byteOf (pmod (s.fe poly n) (s.fe modulus n2)))) ∧
      (s.fe modulus n2 = 0 → FailsWith (.gfRed poly modulus n n2) s 3)) ∧
    (¬((1 ≤ n ∧ n ≤ 2 * s.cfg.capBytes) ∧ (1 ≤ n2 ∧ n2 ≤ s.cfg.capBytes) ∧ Fits s poly n ∧ Fits s modulus n2) →
      FailsWith (.gfRed poly modulus n n2) s 2)

/-- 40_gf2 R123: GF_SHL writes the `n` bytes of `src · x^count` truncated to `8n` bits, RESULT 0, and changes no other
byte; a length or region out of range is RANGE. -/
def Obligations.GfShlCommand : Prop :=
  (∀ c : Command, c.cmd = 0x04 → decode c = .ok (.gfShl c.arg0.toNat c.arg1.toNat c.len.toNat c.len2.toNat)) ∧
  ∀ (dst src n count : Nat) (s : State),
    ((1 ≤ n ∧ n ≤ 2 * s.cfg.capBytes) → Fits s src n → Fits s dst n →
      ∃ t, exec (.gfShl dst src n count) s = .next t ∧ Completed s t 0 0 ∧
        StoresAt s t dst n (byteOf ((s.fe src n <<< count) % 2 ^ (8 * n)))) ∧
    (¬((1 ≤ n ∧ n ≤ 2 * s.cfg.capBytes) ∧ Fits s src n ∧ Fits s dst n) → FailsWith (.gfShl dst src n count) s 2)

/-- 40_gf2 R124: GF_INV writes the `n` bytes of the inverse of `a` modulo `f` when `gcd(a, f) = 1`, RESULT 0, and changes
no other byte; lengths and regions out of range are RANGE, then `deg(f) < 1` is PARAM, then `gcd(a, f) ≠ 1` is NOINV. -/
def Obligations.GfInvCommand : Prop :=
  (∀ c : Command, c.cmd = 0x05 → decode c = .ok (.gfInv c.arg0.toNat c.arg1.toNat c.arg2.toNat c.len.toNat)) ∧
  ∀ (dst a modulus n : Nat) (s : State),
    ((1 ≤ n ∧ n ≤ s.cfg.capBytes) → Fits s a n → Fits s modulus n → Fits s dst n →
      (1 ≤ deg (s.fe modulus n) → PolyCoprime (s.fe a n) (s.fe modulus n) →
        ∃ (r : Nat) (t : State), deg r < deg (s.fe modulus n) ∧
          pmod (clmul (s.fe a n) r) (s.fe modulus n) = 1 ∧
          exec (.gfInv dst a modulus n) s = .next t ∧ Completed s t 0 0 ∧ StoresAt s t dst n (byteOf r)) ∧
      (1 ≤ deg (s.fe modulus n) → ¬PolyCoprime (s.fe a n) (s.fe modulus n) →
        FailsWith (.gfInv dst a modulus n) s 4) ∧
      (deg (s.fe modulus n) < 1 → FailsWith (.gfInv dst a modulus n) s 3)) ∧
    (¬((1 ≤ n ∧ n ≤ s.cfg.capBytes) ∧ Fits s a n ∧ Fits s modulus n ∧ Fits s dst n) →
      FailsWith (.gfInv dst a modulus n) s 2)

/-! ### The point units (41_ec_point section 1) -/

/-- 41_ec_point R144, cases 1 to 4: equal points go to doubling, infinity is neutral on both sides, and a point with
x ≠ 0 plus its negative `(x, x + y)` is infinity. -/
def Obligations.PointAdditionSpecialCases : Prop :=
  ∀ (c : Curve) (p : Point),
    ecPlus c p p = ecDouble c p ∧
    ecPlus c Point.infinity p = .ok p ∧ ecPlus c p Point.infinity = .ok p ∧
    (p.x ≠ 0 → ecPlus c p ⟨p.x, p.x ^^^ p.y⟩ = .ok Point.infinity)

/-- 41_ec_point R144, case 5: two points with `gcd(P.x + Q.x, f) = 1`, neither infinity, add along the chord whose slope
`lam`, reduced, satisfies `lam · (P.x + Q.x) = P.y + Q.y`; with `gcd(P.x + Q.x, f) ≠ 1`, two points neither infinity,
neither equal nor opposite, raise NOINV, whether their x are equal or not (41_ec_point R142). -/
def Obligations.PointAdditionFollowsTheChord : Prop :=
  ∀ (c : Curve) (p q : Point), 1 ≤ deg c.f → p.isInf = false → q.isInf = false →
    (PolyCoprime (p.x ^^^ q.x) c.f →
      ∃ lam, deg lam < deg c.f ∧ feMul c lam (p.x ^^^ q.x) = pmod (p.y ^^^ q.y) c.f ∧
        ecPlus c p q =
          .ok ⟨feSqr c lam ^^^ lam ^^^ p.x ^^^ q.x ^^^ c.a,
            feMul c lam (p.x ^^^ (feSqr c lam ^^^ lam ^^^ p.x ^^^ q.x ^^^ c.a)) ^^^
              (feSqr c lam ^^^ lam ^^^ p.x ^^^ q.x ^^^ c.a) ^^^ p.y⟩) ∧
    (¬PolyCoprime (p.x ^^^ q.x) c.f → p ≠ q → ¬(p.x = q.x ∧ q.y = p.x ^^^ p.y) → ecPlus c p q = .error .noinv)

/-- 41_ec_point R145: doubling. Infinity doubles to infinity; for `gcd(P.x, f) = 1` the point follows the tangent of slope
`P.x + mu`, where `mu`, reduced, satisfies `mu · P.x = P.y`; every other point with `gcd(P.x, f) ≠ 1`, x = 0 or not,
raises NOINV (41_ec_point R142). -/
def Obligations.PointDoublingFollowsTheTangent : Prop :=
  ∀ (c : Curve) (p : Point), 1 ≤ deg c.f →
    ecDouble c Point.infinity = .ok Point.infinity ∧
    (PolyCoprime p.x c.f →
      ∃ mu, deg mu < deg c.f ∧ feMul c mu p.x = pmod p.y c.f ∧
        ecDouble c p =
          .ok ⟨feSqr c (p.x ^^^ mu) ^^^ (p.x ^^^ mu) ^^^ c.a,
            feMul c (p.x ^^^ mu) (feSqr c (p.x ^^^ mu) ^^^ (p.x ^^^ mu) ^^^ c.a ^^^ p.x) ^^^
              (feSqr c (p.x ^^^ mu) ^^^ (p.x ^^^ mu) ^^^ c.a) ^^^ p.y⟩) ∧
    (¬PolyCoprime p.x c.f → p.isInf = false → ecDouble c p = .error .noinv)

/-- 95_test_vectors L1.1, from 41_ec_point R144: addition commutes, for all points whose y coordinates are canonical. -/
def Obligations.PointAdditionCommutes : Prop :=
  ∀ (c : Curve) (p q : Point), 1 ≤ deg c.f → deg p.y < deg c.f → deg q.y < deg c.f →
    ecPlus c p q = ecPlus c q p

/-- 95_test_vectors L1.4, from 41_ec_point R144, R145, R147: the sum and the double of points on the curve, where they are
defined, are on the curve. -/
def Obligations.PointSumsStayOnTheCurve : Prop :=
  ∀ (c : Curve) (p q r : Point), 1 ≤ deg c.f → onCurve c p = true → onCurve c q = true →
    (ecPlus c p q = .ok r → onCurve c r = true) ∧ (ecDouble c p = .ok r → onCurve c r = true)

/-- 41_ec_point R146: the scalar multiplier is double-and-add from the highest bit down: `2k` doubles and adds infinity,
`2k + 1` doubles and adds `P`; 0 gives infinity and 1 gives `P`. -/
def Obligations.ScalarMultiplicationIsDoubleAndAdd : Prop :=
  ∀ (c : Curve) (p : Point),
    ecTimes c p 0 = .ok Point.infinity ∧ ecTimes c p 1 = .ok p ∧
    ∀ k : Nat, 1 ≤ k →
      ecTimes c p (2 * k) = (do let z ← ecTimes c p k; let d ← ecDouble c z; ecPlus c d Point.infinity) ∧
      ecTimes c p (2 * k + 1) = (do let z ← ecTimes c p k; let d ← ecDouble c z; ecPlus c d p)

/-- 41_ec_point R148: every coordinate the point functions compute from FSB-byte inputs has degree below `8·FSB`, so it
fits its slot. -/
def Obligations.CoordinatesFitTheirSlots : Prop :=
  ∀ (c : Curve) (p q r : Point) (k w : Nat), 1 ≤ deg c.f → deg c.f < w → deg c.a < w →
    deg p.x < w → deg p.y < w → deg q.x < w → deg q.y < w →
    ecPlus c p q = .ok r ∨ ecDouble c p = .ok r ∨ ecTimes c p k = .ok r → deg r.x < w ∧ deg r.y < w

/-! ### The point commands (41_ec_point section 2), in the same form -/

/-- 41_ec_point R150: EC_ADD. After its checks it stores the packed sum and no other byte, RESULT 0; a sum that raises
NOINV completes with NOINV. -/
def Obligations.EcAddCommand : Prop :=
  (∀ c : Command, c.cmd = 0x10 →
    decode c = .ok (.ecAdd c.arg0.toNat c.arg1.toNat c.arg2.toNat ⟨c.curveBase.toNat, c.curveFsb.toNat, c.curveM.toNat⟩)) ∧
  ∀ (r p q : Nat) (crv : CurveRegs) (s : State),
    CurveChecks (.ecAdd r p q crv) crv s ∧
    (CurveRuns (.ecAdd r p q crv) crv s →
      (∀ z, ecPlus (s.curveRecord crv) (s.readPoint crv.fsb p) (s.readPoint crv.fsb q) = .ok z →
        ∃ t, exec (.ecAdd r p q crv) s = .next t ∧ Completed s t 0 0 ∧
          StoresAt s t r (packedLen crv.fsb) (pointByte crv.fsb z)) ∧
      (ecPlus (s.curveRecord crv) (s.readPoint crv.fsb p) (s.readPoint crv.fsb q) = .error .noinv →
        FailsWith (.ecAdd r p q crv) s 4))

/-- 41_ec_point R151: EC_DBL. After its checks it stores the packed double and no other byte, RESULT 0; a double that
raises NOINV completes with NOINV. -/
def Obligations.EcDblCommand : Prop :=
  (∀ c : Command, c.cmd = 0x11 →
    decode c = .ok (.ecDbl c.arg0.toNat c.arg1.toNat ⟨c.curveBase.toNat, c.curveFsb.toNat, c.curveM.toNat⟩)) ∧
  ∀ (r p : Nat) (crv : CurveRegs) (s : State),
    CurveChecks (.ecDbl r p crv) crv s ∧
    (CurveRuns (.ecDbl r p crv) crv s →
      (∀ z, ecDouble (s.curveRecord crv) (s.readPoint crv.fsb p) = .ok z →
        ∃ t, exec (.ecDbl r p crv) s = .next t ∧ Completed s t 0 0 ∧
          StoresAt s t r (packedLen crv.fsb) (pointByte crv.fsb z)) ∧
      (ecDouble (s.curveRecord crv) (s.readPoint crv.fsb p) = .error .noinv → FailsWith (.ecDbl r p crv) s 4))

/-- 41_ec_point R152: EC_MUL. After its checks it stores the packed multiple by the FSB-byte scalar and no other byte,
RESULT 0; a NOINV of any step completes with NOINV. -/
def Obligations.EcMulCommand : Prop :=
  (∀ c : Command, c.cmd = 0x12 →
    decode c = .ok (.ecMul c.arg0.toNat c.arg1.toNat c.arg2.toNat ⟨c.curveBase.toNat, c.curveFsb.toNat, c.curveM.toNat⟩)) ∧
  ∀ (r p k : Nat) (crv : CurveRegs) (s : State),
    CurveChecks (.ecMul r p k crv) crv s ∧
    (CurveRuns (.ecMul r p k crv) crv s →
      (∀ z, ecTimes (s.curveRecord crv) (s.readPoint crv.fsb p) (s.fe k crv.fsb) = .ok z →
        ∃ t, exec (.ecMul r p k crv) s = .next t ∧ Completed s t 0 0 ∧
          StoresAt s t r (packedLen crv.fsb) (pointByte crv.fsb z)) ∧
      (ecTimes (s.curveRecord crv) (s.readPoint crv.fsb p) (s.fe k crv.fsb) = .error .noinv →
        FailsWith (.ecMul r p k crv) s 4))

/-- 41_ec_point R153, R147: EC_ONCURVE. After its checks RESULT is 1 when P is infinity or satisfies
`y² + xy = x³ + ax² + b` over the field, else 0; no OPMEM byte changes, and it always completes with OK. -/
def Obligations.EcOncurveCommand : Prop :=
  (∀ c : Command, c.cmd = 0x13 →
    decode c = .ok (.ecOncurve c.arg1.toNat ⟨c.curveBase.toNat, c.curveFsb.toNat, c.curveM.toNat⟩)) ∧
  ∀ (p : Nat) (crv : CurveRegs) (s : State),
    CurveChecks (.ecOncurve p crv) crv s ∧
    (CurveRuns (.ecOncurve p crv) crv s →
      let c := s.curveRecord crv
      let x := s.fe p crv.fsb
      let y := s.fe (p + roundUp8 crv.fsb) crv.fsb
      ∃ t, exec (.ecOncurve p crv) s = .next t ∧ SameBytes s t ∧
        ((x = 0 ∧ y = 0) ∨
            pmod (clmul y y) c.f ^^^ pmod (clmul x y) c.f =
              pmod (clmul (pmod (clmul x x) c.f) x) c.f ^^^ pmod (clmul c.a (pmod (clmul x x) c.f)) c.f ^^^ c.b →
          Completed s t 0 1) ∧
        (¬((x = 0 ∧ y = 0) ∨
            pmod (clmul y y) c.f ^^^ pmod (clmul x y) c.f =
              pmod (clmul (pmod (clmul x x) c.f) x) c.f ^^^ pmod (clmul c.a (pmod (clmul x x) c.f)) c.f ^^^ c.b) →
          Completed s t 0 0))

/-! ### The ECDH commands (42_ecdh), in the same form -/

/-- 42_ecdh R170: ECDH_GENPUB. After its checks it stores the packed multiple of the record's base point by the FSB-byte
private key and no other byte, RESULT 0; a NOINV of any step completes with NOINV. -/
def Obligations.EcdhGenpubCommand : Prop :=
  (∀ c : Command, c.cmd = 0x20 →
    decode c = .ok (.ecdhGenpub c.arg0.toNat c.arg1.toNat ⟨c.curveBase.toNat, c.curveFsb.toNat, c.curveM.toNat⟩)) ∧
  ∀ (pub d : Nat) (crv : CurveRegs) (s : State),
    CurveChecks (.ecdhGenpub pub d crv) crv s ∧
    (CurveRuns (.ecdhGenpub pub d crv) crv s →
      (∀ z, ecTimes (s.curveRecord crv) (s.curveRecord crv).base (s.fe d crv.fsb) = .ok z →
        ∃ t, exec (.ecdhGenpub pub d crv) s = .next t ∧ Completed s t 0 0 ∧
          StoresAt s t pub (packedLen crv.fsb) (pointByte crv.fsb z)) ∧
      (ecTimes (s.curveRecord crv) (s.curveRecord crv).base (s.fe d crv.fsb) = .error .noinv →
        FailsWith (.ecdhGenpub pub d crv) s 4))

/-- 42_ecdh R171, 60_exceptions R196: ECDH_VALIDATE. After its checks it completes with OK and RESULT 1 exactly when the
key is not infinity, is on the curve, and its multiple by the order is infinity; a NOINV inside the last check is a
rejection. No OPMEM byte changes. -/
def Obligations.EcdhValidateCommand : Prop :=
  (∀ c : Command, c.cmd = 0x21 →
    decode c = .ok (.ecdhValidate c.arg1.toNat ⟨c.curveBase.toNat, c.curveFsb.toNat, c.curveM.toNat⟩)) ∧
  ∀ (pub : Nat) (crv : CurveRegs) (s : State),
    CurveChecks (.ecdhValidate pub crv) crv s ∧
    (CurveRuns (.ecdhValidate pub crv) crv s →
      let c := s.curveRecord crv
      let p := s.readPoint crv.fsb pub
      ∃ t, exec (.ecdhValidate pub crv) s = .next t ∧ SameBytes s t ∧
        (p.isInf = false ∧ onCurve c p = true ∧ ecTimes c p c.order = .ok Point.infinity → Completed s t 0 1) ∧
        (¬(p.isInf = false ∧ onCurve c p = true ∧ ecTimes c p c.order = .ok Point.infinity) → Completed s t 0 0))

/-- 42_ecdh R172: ECDH_SHARED. After its checks it stores the FSB bytes of the x coordinate of the peer key's multiple by
the FSB-byte private key and no other byte, RESULT 0, without validating the key; a NOINV of any step completes with
NOINV. -/
def Obligations.EcdhSharedCommand : Prop :=
  (∀ c : Command, c.cmd = 0x22 →
    decode c = .ok (.ecdhShared c.arg0.toNat c.arg1.toNat c.arg2.toNat ⟨c.curveBase.toNat, c.curveFsb.toNat, c.curveM.toNat⟩)) ∧
  ∀ (secret d peer : Nat) (crv : CurveRegs) (s : State),
    CurveChecks (.ecdhShared secret d peer crv) crv s ∧
    (CurveRuns (.ecdhShared secret d peer crv) crv s →
      (∀ z, ecTimes (s.curveRecord crv) (s.readPoint crv.fsb peer) (s.fe d crv.fsb) = .ok z →
        ∃ t, exec (.ecdhShared secret d peer crv) s = .next t ∧ Completed s t 0 0 ∧
          StoresAt s t secret crv.fsb (byteOf z.x)) ∧
      (ecTimes (s.curveRecord crv) (s.readPoint crv.fsb peer) (s.fe d crv.fsb) = .error .noinv →
        FailsWith (.ecdhShared secret d peer crv) s 4))
end

