-- ==== Sys2Proof/Laws/Gf2.lean ====
section
/-! SUPPORT. The laws of the field units: the degree, and that the bounded loops of pmod and inv_euclid never run out of
passes, so that they satisfy the equations of 40_gf2 R112 and R114 (log 8). -/

namespace Sys2Proof.Machine

/-! ### The degree -/

@[simp] theorem deg_zero : deg 0 = -1 := rfl

theorem deg_of_ne_zero {p : Nat} (h : p ≠ 0) : deg p = (p.log2 : Int) := if_neg h

theorem deg_nonneg_iff (p : Nat) : 0 ≤ deg p ↔ p ≠ 0 := by
  by_cases h : p = 0
  · simp [h]
  · simp [deg_of_ne_zero h, h]

theorem neg_one_le_deg (p : Nat) : -1 ≤ deg p := by
  by_cases h : p = 0
  · simp [h]
  · rw [deg_of_ne_zero h]; omega

/-- A polynomial of degree below `n` is a number below `2^n`. -/
theorem deg_lt_iff (p n : Nat) : deg p < n ↔ p < 2 ^ n := by
  by_cases h : p = 0
  · subst h
    have : (0 : Nat) < 2 ^ n := Nat.two_pow_pos n
    simp only [deg_zero]
    omega
  · rw [deg_of_ne_zero h, Nat.cast_lt, Nat.log2_lt h]

theorem bitLen_le_iff (p n : Nat) : bitLen p ≤ n ↔ p < 2 ^ n := by
  have h := neg_one_le_deg p
  rw [← deg_lt_iff]
  unfold bitLen
  omega

theorem lt_two_pow_bitLen (p : Nat) : p < 2 ^ bitLen p := (bitLen_le_iff p _).1 (Nat.le_refl _)

theorem bitLen_zero : bitLen 0 = 0 := rfl

theorem bitLen_eq (p : Nat) : (bitLen p : Int) = deg p + 1 := by
  have h := neg_one_le_deg p
  unfold bitLen
  omega

/-- The leading coefficient is 1. -/
theorem testBit_deg {p : Nat} (h : p ≠ 0) : p.testBit (deg p).toNat = true := by
  rw [deg_of_ne_zero h, Int.toNat_natCast]
  exact Nat.testBit_log2 h

/-- XOR of two polynomials of one degree lowers the degree: the leading coefficients cancel (40_gf2 R112). -/
theorem deg_xor_lt {p q : Nat} (hp : p ≠ 0) (h : deg q = deg p) : deg (p ^^^ q) < deg p := by
  have hq : q ≠ 0 := (deg_nonneg_iff q).1 (h ▸ (deg_nonneg_iff p).2 hp)
  have hlog : q.log2 = p.log2 := by
    rw [deg_of_ne_zero hp, deg_of_ne_zero hq] at h
    exact Int.ofNat_inj.1 h
  rw [deg_of_ne_zero hp, deg_lt_iff]
  refine Nat.lt_pow_two_of_testBit _ fun i hi => ?_
  rw [Nat.testBit_xor]
  rcases Nat.eq_or_lt_of_le hi with rfl | hi
  · have h1 : p.testBit p.log2 = true := Nat.testBit_log2 hp
    have h2 : q.testBit p.log2 = true := hlog ▸ Nat.testBit_log2 hq
    simp [h1, h2]
  · have h1 : p < 2 ^ i := (Nat.log2_lt hp).1 hi
    have h2 : q < 2 ^ i := (Nat.log2_lt hq).1 (hlog ▸ hi)
    simp [Nat.testBit_lt_two_pow h1, Nat.testBit_lt_two_pow h2]

/-- Multiplying by `x^s` adds `s` to the degree. -/
theorem deg_shiftLeft {f : Nat} (hf : f ≠ 0) (s : Nat) : deg (f <<< s) = deg f + s := by
  have hs : f <<< s ≠ 0 := by
    rw [Nat.shiftLeft_eq]
    exact Nat.mul_ne_zero hf (Nat.two_pow_pos s).ne'
  have hlog : (f <<< s).log2 = f.log2 + s := by
    obtain ⟨hlo, hhi⟩ := (Nat.log2_eq_iff hf).1 rfl
    refine (Nat.log2_eq_iff hs).2 ⟨?_, ?_⟩
    · rw [Nat.shiftLeft_eq, Nat.pow_add]
      exact Nat.mul_le_mul_right _ hlo
    · rw [Nat.shiftLeft_eq, Nat.add_right_comm, Nat.pow_add]
      exact Nat.mul_lt_mul_of_pos_right hhi (Nat.two_pow_pos s)
  rw [deg_of_ne_zero hs, deg_of_ne_zero hf, hlog, Nat.cast_add]

/-- One pass of a division lowers the degree (40_gf2 R112, R114). -/
theorem deg_cancel_lt {p f : Nat} (hp : p ≠ 0) (hf : f ≠ 0) (h : deg f ≤ deg p) :
    deg (p ^^^ f <<< (deg p - deg f).toNat) < deg p := by
  refine deg_xor_lt hp ?_
  rw [deg_shiftLeft hf]
  omega

/-- A sum keeps the degree of its larger part. -/
theorem deg_xor_of_lt {p q : Nat} (h : deg p < deg q) : deg (p ^^^ q) = deg q := by
  have hq : q ≠ 0 := (deg_nonneg_iff q).1 (by have := neg_one_le_deg p; omega)
  have hdeg : deg q = (q.log2 : Int) := deg_of_ne_zero hq
  have hp : p < 2 ^ q.log2 := (deg_lt_iff p _).1 (hdeg ▸ h)
  have hbit : (p ^^^ q).testBit q.log2 = true := by
    rw [Nat.testBit_xor, Nat.testBit_lt_two_pow hp, Nat.testBit_log2 hq]
    rfl
  have hlt : p ^^^ q < 2 ^ (q.log2 + 1) :=
    Nat.xor_lt_two_pow (Nat.lt_of_lt_of_le hp (Nat.pow_le_pow_right (by decide) (Nat.le_succ _)))
      ((Nat.log2_lt hq).1 (Nat.lt_succ_self _))
  have hne : p ^^^ q ≠ 0 := fun h0 => by rw [h0] at hbit; simp at hbit
  have hge : 2 ^ q.log2 ≤ p ^^^ q := Nat.ge_two_pow_of_testBit hbit
  rw [deg_of_ne_zero hne, hdeg, (Nat.log2_eq_iff hne).2 ⟨hge, hlt⟩]

/-! ### clmul -/

/-- The partial products below `x^n` have degree below `n + deg b`. -/
theorem deg_clmulBelow_lt {b : Nat} (hb : b ≠ 0) (a n : Nat) : deg (clmulBelow a b n) < n + deg b := by
  have h0 := (deg_nonneg_iff b).2 hb
  induction n with
  | zero => simp only [clmulBelow, deg_zero]; omega
  | succ n ih =>
    have hs := deg_shiftLeft hb n
    unfold clmulBelow
    split
    · rw [deg_xor_of_lt (by omega), hs]
      omega
    · rw [Nat.xor_zero]
      omega

/-- The degree of a product of nonzero polynomials is the sum of their degrees. -/
theorem deg_clmul {a b : Nat} (ha : a ≠ 0) (hb : b ≠ 0) : deg (clmul a b) = deg a + deg b := by
  have hlen : bitLen a = a.log2 + 1 := by
    have := bitLen_eq a
    rw [deg_of_ne_zero ha] at this
    omega
  have hlt := deg_clmulBelow_lt hb a a.log2
  have hs := deg_shiftLeft hb a.log2
  unfold clmul
  rw [hlen, clmulBelow, if_pos (Nat.testBit_log2 ha), deg_xor_of_lt (by omega), hs, deg_of_ne_zero ha]
  omega

theorem clmulBelow_zero_right (a n : Nat) : clmulBelow a 0 n = 0 := by
  induction n with
  | zero => rfl
  | succ n ih => simp [clmulBelow, ih]

@[simp] theorem clmul_zero_right (a : Nat) : clmul a 0 = 0 := clmulBelow_zero_right a _

@[simp] theorem clmul_zero_left (b : Nat) : clmul 0 b = 0 := rfl

/-- The factors of a nonzero polynomial are no longer than it is. -/
theorem factor_lt {p q d : Nat} (hp : p ≠ 0) (h : p = clmul q d) : q < 2 ^ bitLen p ∧ d < 2 ^ bitLen p := by
  have hq : q ≠ 0 := fun h0 => hp (by rw [h, h0, clmul_zero_left])
  have hd : d ≠ 0 := fun h0 => hp (by rw [h, h0, clmul_zero_right])
  have hdeg := deg_clmul hq hd
  rw [← h] at hdeg
  have h1 := (deg_nonneg_iff q).2 hq
  have h2 := (deg_nonneg_iff d).2 hd
  have h3 := bitLen_eq p
  exact ⟨(deg_lt_iff q _).1 (by omega), (deg_lt_iff d _).1 (by omega)⟩

/-- Whether a polynomial divides another, by trying every factor that is short enough. -/
def dividesBy (d p : Nat) : Bool := (List.range (2 ^ bitLen p)).any fun q => clmul q d == p

theorem dividesBy_of_eq {d p q : Nat} (hp : p ≠ 0) (h : p = clmul q d) : dividesBy d p = true := by
  unfold dividesBy
  rw [List.any_eq_true]
  exact ⟨q, List.mem_range.2 (factor_lt hp h).1, by simp [h]⟩

/-! ### pmod -/

/-- More passes than `p` has coefficients change nothing. -/
theorem pmodLoop_eq_pmod {f : Nat} (hf : f ≠ 0) {k p : Nat} (h : bitLen p ≤ k) : pmodLoop f k p = pmod p f := by
  have key : ∀ {j k p : Nat}, bitLen p ≤ j → bitLen p ≤ k → pmodLoop f j p = pmodLoop f k p := by
    intro j
    induction j with
    | zero =>
      intro k p hj _
      have hp : p = 0 := by
        have := (bitLen_le_iff p 0).1 hj
        omega
      subst hp
      cases k <;> simp [pmodLoop]
    | succ j ih =>
      intro k p hj hk
      cases k with
      | zero =>
        have hp : p = 0 := by
          have := (bitLen_le_iff p 0).1 hk
          omega
        subst hp
        simp [pmodLoop]
      | succ k =>
        unfold pmodLoop
        split
        case isTrue hc =>
          have hlt := deg_cancel_lt hc.1 hf hc.2
          have h1 := bitLen_eq p
          have h2 := bitLen_eq (p ^^^ f <<< (deg p - deg f).toNat)
          exact ih (by omega) (by omega)
        case isFalse => rfl
  exact key h (Nat.le_refl _)

/-- `pmod` satisfies the loop of 40_gf2 R112: one pass if `p ≠ 0` and `deg(p) ≥ deg(f)`, else `p` itself. -/
theorem pmod_eq {f : Nat} (hf : f ≠ 0) (p : Nat) :
    pmod p f = if p ≠ 0 ∧ deg f ≤ deg p then pmod (p ^^^ f <<< (deg p - deg f).toNat) f else p := by
  by_cases hp : p = 0
  · subst hp
    simp [pmod, bitLen_zero, pmodLoop]
  · rw [← pmodLoop_eq_pmod hf (Nat.le_succ (bitLen p))]
    conv_lhs => unfold pmodLoop
    split
    case isTrue hc =>
      refine pmodLoop_eq_pmod hf ?_
      have hlt := deg_cancel_lt hc.1 hf hc.2
      have h1 := bitLen_eq p
      have h2 := bitLen_eq (p ^^^ f <<< (deg p - deg f).toNat)
      omega
    case isFalse => rfl

/-! ### inv_euclid -/

/-- The loop of `inv_euclid` with as many passes as it can need (40_gf2 R114). -/
def euclid (u v g1 g2 : Nat) : Except CmdError Nat := invLoop (bitLen u + bitLen v + 1) u v g1 g2

/-- One pass lowers the sum of the degrees. -/
theorem bitLen_cancel_lt {p f : Nat} (hp : p ≠ 0) (hf : f ≠ 0) (h : deg f ≤ deg p) :
    bitLen (p ^^^ f <<< (deg p - deg f).toNat) < bitLen p := by
  have hlt := deg_cancel_lt hp hf h
  have h1 := bitLen_eq p
  have h2 := bitLen_eq (p ^^^ f <<< (deg p - deg f).toNat)
  omega

/-- More passes than the loop can need change nothing, as long as the second remainder is not zero. -/
theorem invLoop_eq_euclid {u v g1 g2 k : Nat} (hv : v ≠ 0) (h : bitLen u + bitLen v < k) :
    invLoop k u v g1 g2 = euclid u v g1 g2 := by
  have key : ∀ {j k u v g1 g2 : Nat}, v ≠ 0 → bitLen u + bitLen v < j → bitLen u + bitLen v < k →
      invLoop j u v g1 g2 = invLoop k u v g1 g2 := by
    intro j
    induction j with
    | zero => intro k u v g1 g2 _ hj _; omega
    | succ j ih =>
      intro k u v g1 g2 hv hj hk
      cases k with
      | zero => omega
      | succ k =>
        unfold invLoop
        split
        case isTrue => rfl
        case isFalse =>
          split
          case isTrue => rfl
          case isFalse =>
            split
            case isTrue => rfl
            case isFalse hu =>
              split
              case isTrue hlt =>
                have := bitLen_cancel_lt hv hu (Int.le_of_lt hlt)
                exact ih hu (by omega) (by omega)
              case isFalse hge =>
                have := bitLen_cancel_lt hu hv (Int.not_lt.1 hge)
                exact ih hv (by omega) (by omega)
  exact key hv h (Nat.lt_succ_self _)

/-- The loop satisfies the equation of 40_gf2 R114: the two stops, the raise, the swap, and one pass. -/
theorem euclid_eq {u v : Nat} (hv : v ≠ 0) (g1 g2 : Nat) :
    euclid u v g1 g2 =
      if deg u = 0 then .ok g1
      else if deg v = 0 then .ok g2
      else if u = 0 then .error .noinv
      else if deg u < deg v then
        euclid (v ^^^ u <<< (deg v - deg u).toNat) u (g2 ^^^ g1 <<< (deg v - deg u).toNat) g1
      else euclid (u ^^^ v <<< (deg u - deg v).toNat) v (g1 ^^^ g2 <<< (deg u - deg v).toNat) g2 := by
  conv_lhs => unfold euclid invLoop
  split
  case isTrue => rfl
  case isFalse =>
    split
    case isTrue => rfl
    case isFalse =>
      split
      case isTrue => rfl
      case isFalse hu =>
        split
        case isTrue hlt =>
          have := bitLen_cancel_lt hv hu (Int.le_of_lt hlt)
          exact invLoop_eq_euclid hu (by omega)
        case isFalse hge =>
          have := bitLen_cancel_lt hu hv (Int.not_lt.1 hge)
          exact invLoop_eq_euclid hv (by omega)

/-- `inv_euclid` starts the loop with `(a, f, 1, 0)` and reduces the coefficient if its degree asks for it
(40_gf2 R114). -/
theorem invEuclid_eq (a f : Nat) :
    invEuclid a f =
      match euclid a f 1 0 with
      | .ok r => .ok (if deg f ≤ deg r then pmod r f else r)
      | .error e => .error e := by
  unfold invEuclid euclid
  cases invLoop (bitLen a + bitLen f + 1) a f 1 0 <;> rfl

/-- The only error an inversion can raise is NOINV (40_gf2 R114). -/
theorem invLoop_error {k u v g1 g2 : Nat} {e : CmdError} (h : invLoop k u v g1 g2 = .error e) : e = .noinv := by
  induction k generalizing u v g1 g2 with
  | zero => simp [invLoop] at h; exact h.symm
  | succ k ih =>
    unfold invLoop at h
    split at h
    · cases h
    · split at h
      · cases h
      · split at h
        · cases h; rfl
        · split at h
          · exact ih h
          · exact ih h

theorem invEuclid_error {a f : Nat} {e : CmdError} (h : invEuclid a f = .error e) : e = .noinv := by
  rw [invEuclid_eq] at h
  split at h
  · cases h
  · rename_i e' he
    cases h
    exact invLoop_error he

end Sys2Proof.Machine
end

