-- ==== Sys2Proof/Laws/State.lean ====
section
/-! SUPPORT. One lemma per field per update of the state, each true by rfl, so that no later proof unfolds a record
update. -/

namespace Sys2Proof.Machine

/-! ### setAccErr -/

@[simp] theorem State.setAccErr_cfg (s : State) : s.setAccErr.cfg = s.cfg := rfl
@[simp] theorem State.setAccErr_irqEn (s : State) : s.setAccErr.irqEn = s.irqEn := rfl
@[simp] theorem State.setAccErr_done (s : State) : s.setAccErr.done = s.done := rfl
@[simp] theorem State.setAccErr_accErr (s : State) : s.setAccErr.accErr = true := rfl
@[simp] theorem State.setAccErr_errCode (s : State) : s.setAccErr.errCode = s.errCode := rfl
@[simp] theorem State.setAccErr_regs (s : State) : s.setAccErr.regs = s.regs := rfl
@[simp] theorem State.setAccErr_result (s : State) : s.setAccErr.result = s.result := rfl
@[simp] theorem State.setAccErr_engine (s : State) : s.setAccErr.engine = s.engine := rfl
@[simp] theorem State.setAccErr_opmem (s : State) : s.setAccErr.opmem = s.opmem := rfl
@[simp] theorem State.setAccErr_draw (s : State) : s.setAccErr.draw = s.draw := rfl
@[simp] theorem State.setAccErr_agenda (s : State) : s.setAccErr.agenda = s.agenda := rfl
@[simp] theorem State.setAccErr_portData (s : State) : s.setAccErr.portData = s.portData := rfl

/-! ### writeBytes -/

@[simp] theorem State.writeBytes_cfg (s : State) (cells : List Host.Cell) : (s.writeBytes cells).cfg = s.cfg := rfl
@[simp] theorem State.writeBytes_irqEn (s : State) (cells : List Host.Cell) : (s.writeBytes cells).irqEn = s.irqEn := rfl
@[simp] theorem State.writeBytes_done (s : State) (cells : List Host.Cell) : (s.writeBytes cells).done = s.done := rfl
@[simp] theorem State.writeBytes_accErr (s : State) (cells : List Host.Cell) : (s.writeBytes cells).accErr = s.accErr := rfl
@[simp] theorem State.writeBytes_errCode (s : State) (cells : List Host.Cell) : (s.writeBytes cells).errCode = s.errCode := rfl
@[simp] theorem State.writeBytes_regs (s : State) (cells : List Host.Cell) : (s.writeBytes cells).regs = s.regs := rfl
@[simp] theorem State.writeBytes_result (s : State) (cells : List Host.Cell) : (s.writeBytes cells).result = s.result := rfl
@[simp] theorem State.writeBytes_engine (s : State) (cells : List Host.Cell) : (s.writeBytes cells).engine = s.engine := rfl
@[simp] theorem State.writeBytes_opmem (s : State) (cells : List Host.Cell) : (s.writeBytes cells).opmem = Memory.writeAll s.opmem cells := rfl
@[simp] theorem State.writeBytes_draw (s : State) (cells : List Host.Cell) : (s.writeBytes cells).draw = s.draw := rfl
@[simp] theorem State.writeBytes_agenda (s : State) (cells : List Host.Cell) : (s.writeBytes cells).agenda = s.agenda := rfl
@[simp] theorem State.writeBytes_portData (s : State) (cells : List Host.Cell) : (s.writeBytes cells).portData = s.portData := rfl

/-! ### statusWrite -/

@[simp] theorem State.statusWrite_cfg (s : State) (data : Word) : (s.statusWrite data).cfg = s.cfg := rfl
@[simp] theorem State.statusWrite_irqEn (s : State) (data : Word) : (s.statusWrite data).irqEn = s.irqEn := rfl
@[simp] theorem State.statusWrite_done (s : State) (data : Word) : (s.statusWrite data).done = (s.done && !data.getLsbD 1) := rfl
@[simp] theorem State.statusWrite_accErr (s : State) (data : Word) : (s.statusWrite data).accErr = (s.accErr && !data.getLsbD 2) := rfl
@[simp] theorem State.statusWrite_errCode (s : State) (data : Word) : (s.statusWrite data).errCode = s.errCode := rfl
@[simp] theorem State.statusWrite_regs (s : State) (data : Word) : (s.statusWrite data).regs = s.regs := rfl
@[simp] theorem State.statusWrite_result (s : State) (data : Word) : (s.statusWrite data).result = s.result := rfl
@[simp] theorem State.statusWrite_engine (s : State) (data : Word) : (s.statusWrite data).engine = s.engine := rfl
@[simp] theorem State.statusWrite_opmem (s : State) (data : Word) : (s.statusWrite data).opmem = s.opmem := rfl
@[simp] theorem State.statusWrite_draw (s : State) (data : Word) : (s.statusWrite data).draw = s.draw := rfl
@[simp] theorem State.statusWrite_agenda (s : State) (data : Word) : (s.statusWrite data).agenda = s.agenda := rfl
@[simp] theorem State.statusWrite_portData (s : State) (data : Word) : (s.statusWrite data).portData = s.portData := rfl

/-! ### start -/

@[simp] theorem State.start_cfg (s : State) : s.start.cfg = s.cfg := rfl
@[simp] theorem State.start_irqEn (s : State) : s.start.irqEn = s.irqEn := rfl
@[simp] theorem State.start_done (s : State) : s.start.done = false := rfl
@[simp] theorem State.start_accErr (s : State) : s.start.accErr = s.accErr := rfl
@[simp] theorem State.start_errCode (s : State) : s.start.errCode = 0 := rfl
@[simp] theorem State.start_regs (s : State) : s.start.regs = s.regs := rfl
@[simp] theorem State.start_result (s : State) : s.start.result = 0 := rfl
@[simp] theorem State.start_engine (s : State) : s.start.engine = .busy s.regs := rfl
@[simp] theorem State.start_opmem (s : State) : s.start.opmem = s.opmem := rfl
@[simp] theorem State.start_draw (s : State) : s.start.draw = s.draw := rfl
@[simp] theorem State.start_agenda (s : State) : s.start.agenda = s.agenda := rfl
@[simp] theorem State.start_portData (s : State) : s.start.portData = s.portData := rfl

/-! ### completeOk -/

@[simp] theorem State.completeOk_cfg (s : State) (r : CmdResult) : (s.completeOk r).cfg = s.cfg := rfl
@[simp] theorem State.completeOk_irqEn (s : State) (r : CmdResult) : (s.completeOk r).irqEn = s.irqEn := rfl
@[simp] theorem State.completeOk_done (s : State) (r : CmdResult) : (s.completeOk r).done = true := rfl
@[simp] theorem State.completeOk_accErr (s : State) (r : CmdResult) : (s.completeOk r).accErr = s.accErr := rfl
@[simp] theorem State.completeOk_errCode (s : State) (r : CmdResult) : (s.completeOk r).errCode = okCode := rfl
@[simp] theorem State.completeOk_regs (s : State) (r : CmdResult) : (s.completeOk r).regs = s.regs := rfl
@[simp] theorem State.completeOk_result (s : State) (r : CmdResult) : (s.completeOk r).result = r.result := rfl
@[simp] theorem State.completeOk_engine (s : State) (r : CmdResult) : (s.completeOk r).engine = .idle := rfl
@[simp] theorem State.completeOk_opmem (s : State) (r : CmdResult) : (s.completeOk r).opmem = Memory.writeAll s.opmem r.writes := rfl
@[simp] theorem State.completeOk_draw (s : State) (r : CmdResult) : (s.completeOk r).draw = s.draw := rfl
@[simp] theorem State.completeOk_agenda (s : State) (r : CmdResult) : (s.completeOk r).agenda = s.agenda := rfl
@[simp] theorem State.completeOk_portData (s : State) (r : CmdResult) : (s.completeOk r).portData = s.portData := rfl

/-! ### completeError -/

@[simp] theorem State.completeError_cfg (s : State) (e : CmdError) : (s.completeError e).cfg = s.cfg := rfl
@[simp] theorem State.completeError_irqEn (s : State) (e : CmdError) : (s.completeError e).irqEn = s.irqEn := rfl
@[simp] theorem State.completeError_done (s : State) (e : CmdError) : (s.completeError e).done = true := rfl
@[simp] theorem State.completeError_accErr (s : State) (e : CmdError) : (s.completeError e).accErr = s.accErr := rfl
@[simp] theorem State.completeError_errCode (s : State) (e : CmdError) : (s.completeError e).errCode = e.code := rfl
@[simp] theorem State.completeError_regs (s : State) (e : CmdError) : (s.completeError e).regs = s.regs := rfl
@[simp] theorem State.completeError_result (s : State) (e : CmdError) : (s.completeError e).result = 0 := rfl
@[simp] theorem State.completeError_engine (s : State) (e : CmdError) : (s.completeError e).engine = .idle := rfl
@[simp] theorem State.completeError_opmem (s : State) (e : CmdError) : (s.completeError e).opmem = s.opmem := rfl
@[simp] theorem State.completeError_draw (s : State) (e : CmdError) : (s.completeError e).draw = s.draw := rfl
@[simp] theorem State.completeError_agenda (s : State) (e : CmdError) : (s.completeError e).agenda = s.agenda := rfl
@[simp] theorem State.completeError_portData (s : State) (e : CmdError) : (s.completeError e).portData = s.portData := rfl

/-! ### applyReset -/

@[simp] theorem State.applyReset_cfg (s : State) : s.applyReset.cfg = s.cfg := rfl
@[simp] theorem State.applyReset_irqEn (s : State) : s.applyReset.irqEn = false := rfl
@[simp] theorem State.applyReset_done (s : State) : s.applyReset.done = false := rfl
@[simp] theorem State.applyReset_accErr (s : State) : s.applyReset.accErr = false := rfl
@[simp] theorem State.applyReset_errCode (s : State) : s.applyReset.errCode = 0 := rfl
@[simp] theorem State.applyReset_regs (s : State) : s.applyReset.regs = Command.zero := rfl
@[simp] theorem State.applyReset_result (s : State) : s.applyReset.result = 0 := rfl
@[simp] theorem State.applyReset_engine (s : State) : s.applyReset.engine = .idle := rfl
@[simp] theorem State.applyReset_opmem (s : State) : s.applyReset.opmem = [] := rfl
@[simp] theorem State.applyReset_draw (s : State) : s.applyReset.draw = s.draw + 1 := rfl
@[simp] theorem State.applyReset_agenda (s : State) : s.applyReset.agenda = s.agenda := rfl
@[simp] theorem State.applyReset_portData (s : State) : s.applyReset.portData = none := rfl

/-! ### advance -/

@[simp] theorem State.advance_cfg (s : State) : s.advance.cfg = s.cfg := rfl
@[simp] theorem State.advance_irqEn (s : State) : s.advance.irqEn = s.irqEn := rfl
@[simp] theorem State.advance_done (s : State) : s.advance.done = s.done := rfl
@[simp] theorem State.advance_accErr (s : State) : s.advance.accErr = s.accErr := rfl
@[simp] theorem State.advance_errCode (s : State) : s.advance.errCode = s.errCode := rfl
@[simp] theorem State.advance_regs (s : State) : s.advance.regs = s.regs := rfl
@[simp] theorem State.advance_result (s : State) : s.advance.result = s.result := rfl
@[simp] theorem State.advance_engine (s : State) : s.advance.engine = s.engine := rfl
@[simp] theorem State.advance_opmem (s : State) : s.advance.opmem = s.opmem := rfl
@[simp] theorem State.advance_draw (s : State) : s.advance.draw = s.draw := rfl
@[simp] theorem State.advance_agenda (s : State) : s.advance.agenda = s.agenda.tail := rfl
@[simp] theorem State.advance_portData (s : State) : s.advance.portData = none := rfl

/-! ### issue -/

@[simp] theorem State.issue_cfg (s : State) (c : Command) : (s.issue c).cfg = s.cfg := rfl
@[simp] theorem State.issue_irqEn (s : State) (c : Command) : (s.issue c).irqEn = s.irqEn := rfl
@[simp] theorem State.issue_done (s : State) (c : Command) : (s.issue c).done = s.done := rfl
@[simp] theorem State.issue_accErr (s : State) (c : Command) : (s.issue c).accErr = s.accErr := rfl
@[simp] theorem State.issue_errCode (s : State) (c : Command) : (s.issue c).errCode = s.errCode := rfl
@[simp] theorem State.issue_regs (s : State) (c : Command) : (s.issue c).regs = s.regs := rfl
@[simp] theorem State.issue_result (s : State) (c : Command) : (s.issue c).result = s.result := rfl
@[simp] theorem State.issue_engine (s : State) (c : Command) : (s.issue c).engine = .busy c := rfl
@[simp] theorem State.issue_opmem (s : State) (c : Command) : (s.issue c).opmem = s.opmem := rfl
@[simp] theorem State.issue_draw (s : State) (c : Command) : (s.issue c).draw = s.draw := rfl
@[simp] theorem State.issue_agenda (s : State) (c : Command) : (s.issue c).agenda = .engine :: s.agenda := rfl
@[simp] theorem State.issue_portData (s : State) (c : Command) : (s.issue c).portData = s.portData := rfl

/-! ### complete -/

@[simp] theorem State.complete_ok (s : State) (r : CmdResult) : s.complete (.ok r) = s.completeOk r := rfl
@[simp] theorem State.complete_error (s : State) (e : CmdError) : s.complete (.error e) = s.completeError e := rfl
@[simp] theorem State.complete_cfg (s : State) (o : CmdOutcome) : (s.complete o).cfg = s.cfg := by
  cases o <;> rfl
@[simp] theorem State.complete_irqEn (s : State) (o : CmdOutcome) : (s.complete o).irqEn = s.irqEn := by
  cases o <;> rfl
@[simp] theorem State.complete_accErr (s : State) (o : CmdOutcome) : (s.complete o).accErr = s.accErr := by
  cases o <;> rfl
@[simp] theorem State.complete_regs (s : State) (o : CmdOutcome) : (s.complete o).regs = s.regs := by
  cases o <;> rfl
@[simp] theorem State.complete_draw (s : State) (o : CmdOutcome) : (s.complete o).draw = s.draw := by
  cases o <;> rfl
@[simp] theorem State.complete_agenda (s : State) (o : CmdOutcome) : (s.complete o).agenda = s.agenda := by
  cases o <;> rfl
@[simp] theorem State.complete_portData (s : State) (o : CmdOutcome) : (s.complete o).portData = s.portData := by
  cases o <;> rfl
@[simp] theorem State.complete_done (s : State) (o : CmdOutcome) : (s.complete o).done = true := by
  cases o <;> rfl
@[simp] theorem State.complete_engine (s : State) (o : CmdOutcome) : (s.complete o).engine = .idle := by
  cases o <;> rfl

/-! ### the reset state -/

@[simp] theorem State.reset_cfg : State.reset.cfg = Config.conformance := rfl
@[simp] theorem State.reset_irqEn : State.reset.irqEn = false := rfl
@[simp] theorem State.reset_done : State.reset.done = false := rfl
@[simp] theorem State.reset_accErr : State.reset.accErr = false := rfl
@[simp] theorem State.reset_errCode : State.reset.errCode = 0 := rfl
@[simp] theorem State.reset_regs : State.reset.regs = Command.zero := rfl
@[simp] theorem State.reset_result : State.reset.result = 0 := rfl
@[simp] theorem State.reset_engine : State.reset.engine = .idle := rfl
@[simp] theorem State.reset_opmem : State.reset.opmem = [] := rfl
@[simp] theorem State.reset_draw : State.reset.draw = 0 := rfl
@[simp] theorem State.reset_agenda : State.reset.agenda = [] := rfl
@[simp] theorem State.reset_portData : State.reset.portData = none := rfl

/-! ### setIrqEn -/

@[simp] theorem State.setIrqEn_cfg (s : State) (b : Bool) : (s.setIrqEn b).cfg = s.cfg := rfl
@[simp] theorem State.setIrqEn_irqEn (s : State) (b : Bool) : (s.setIrqEn b).irqEn = b := rfl
@[simp] theorem State.setIrqEn_done (s : State) (b : Bool) : (s.setIrqEn b).done = s.done := rfl
@[simp] theorem State.setIrqEn_accErr (s : State) (b : Bool) : (s.setIrqEn b).accErr = s.accErr := rfl
@[simp] theorem State.setIrqEn_errCode (s : State) (b : Bool) : (s.setIrqEn b).errCode = s.errCode := rfl
@[simp] theorem State.setIrqEn_regs (s : State) (b : Bool) : (s.setIrqEn b).regs = s.regs := rfl
@[simp] theorem State.setIrqEn_result (s : State) (b : Bool) : (s.setIrqEn b).result = s.result := rfl
@[simp] theorem State.setIrqEn_engine (s : State) (b : Bool) : (s.setIrqEn b).engine = s.engine := rfl
@[simp] theorem State.setIrqEn_opmem (s : State) (b : Bool) : (s.setIrqEn b).opmem = s.opmem := rfl
@[simp] theorem State.setIrqEn_draw (s : State) (b : Bool) : (s.setIrqEn b).draw = s.draw := rfl
@[simp] theorem State.setIrqEn_agenda (s : State) (b : Bool) : (s.setIrqEn b).agenda = s.agenda := rfl
@[simp] theorem State.setIrqEn_portData (s : State) (b : Bool) : (s.setIrqEn b).portData = s.portData := rfl

/-! ### writes of CTRL and of a register -/

@[simp] theorem State.requestStart_cfg (s : State) : s.requestStart.cfg = s.cfg := by
  unfold State.requestStart; split <;> rfl

@[simp] theorem State.ctrlWrite_cfg (s : State) (data : Word) : (s.ctrlWrite data).cfg = s.cfg := by
  unfold State.ctrlWrite; split <;> simp

@[simp] theorem State.requestStart_opmem (s : State) : s.requestStart.opmem = s.opmem := by
  unfold State.requestStart; split <;> rfl

@[simp] theorem State.ctrlWrite_opmem (s : State) (data : Word) : (s.ctrlWrite data).opmem = s.opmem := by
  unfold State.ctrlWrite; split <;> simp

@[simp] theorem State.requestStart_draw (s : State) : s.requestStart.draw = s.draw := by
  unfold State.requestStart; split <;> rfl

@[simp] theorem State.ctrlWrite_draw (s : State) (data : Word) : (s.ctrlWrite data).draw = s.draw := by
  unfold State.ctrlWrite; split <;> simp

@[simp] theorem State.requestStart_agenda (s : State) : s.requestStart.agenda = s.agenda := by
  unfold State.requestStart; split <;> rfl

@[simp] theorem State.ctrlWrite_agenda (s : State) (data : Word) : (s.ctrlWrite data).agenda = s.agenda := by
  unfold State.ctrlWrite; split <;> simp

@[simp] theorem State.requestStart_portData (s : State) : s.requestStart.portData = s.portData := by
  unfold State.requestStart; split <;> rfl

@[simp] theorem State.ctrlWrite_portData (s : State) (data : Word) : (s.ctrlWrite data).portData = s.portData := by
  unfold State.ctrlWrite; split <;> simp

@[simp] theorem State.requestStart_regs (s : State) : s.requestStart.regs = s.regs := by
  unfold State.requestStart; split <;> rfl

@[simp] theorem State.ctrlWrite_regs (s : State) (data : Word) : (s.ctrlWrite data).regs = s.regs := by
  unfold State.ctrlWrite; split <;> simp

@[simp] theorem State.requestStart_irqEn (s : State) : s.requestStart.irqEn = s.irqEn := by
  unfold State.requestStart; split <;> rfl

@[simp] theorem State.ctrlWrite_irqEn (s : State) (data : Word) : (s.ctrlWrite data).irqEn = data.getLsbD 1 := by
  unfold State.ctrlWrite; split <;> simp

@[simp] theorem State.writeReg_cfg (s : State) (r : Reg) (data : Word) : (s.writeReg r data).cfg = s.cfg := by
  cases r <;> simp [State.writeReg]
@[simp] theorem State.writeReg_opmem (s : State) (r : Reg) (data : Word) : (s.writeReg r data).opmem = s.opmem := by
  cases r <;> simp [State.writeReg]
@[simp] theorem State.writeReg_draw (s : State) (r : Reg) (data : Word) : (s.writeReg r data).draw = s.draw := by
  cases r <;> simp [State.writeReg]
@[simp] theorem State.writeReg_agenda (s : State) (r : Reg) (data : Word) : (s.writeReg r data).agenda = s.agenda := by
  cases r <;> simp [State.writeReg]
@[simp] theorem State.writeReg_portData (s : State) (r : Reg) (data : Word) : (s.writeReg r data).portData = s.portData := by
  cases r <;> simp [State.writeReg]

/-! ### the busy flag, in one spelling: `engine` -/

theorem State.busy_eq_true_iff (s : State) : s.busy = true ↔ ∃ c, s.engine = .busy c := by
  unfold State.busy; cases s.engine <;> simp

theorem State.busy_eq_false_iff (s : State) : s.busy = false ↔ s.engine = .idle := by
  unfold State.busy; cases s.engine <;> simp

theorem State.fetch_eq_some_iff (s : State) (c : Command) : s.fetch = some c ↔ s.engine = .busy c := by
  unfold State.fetch; cases s.engine <;> simp

theorem State.fetch_eq_none_iff (s : State) : s.fetch = none ↔ s.engine = .idle := by
  unfold State.fetch; cases s.engine <;> simp

/-- The byte a command or the host reads depends only on OPMEM and the reset's free values. -/
theorem State.byte_congr {s t : State} (hm : t.opmem = s.opmem) (hd : t.draw = s.draw) (a : Nat) :
    t.byte a = s.byte a := by
  unfold State.byte; rw [hm, hd]

end Sys2Proof.Machine
end

