-- ==== Sys2Proof/Laws/Memory.lean ====
section
/-! SUPPORT. The laws of OPMEM: read after write, the canonical form is kept, and what the staged bytes of a number, a
field element and a packed point leave behind. -/

namespace Sys2Proof.Machine

/-! ### One byte -/

/-- Read after write: the written offset holds the byte, every other one reads as before. -/
theorem Memory.read_write (m : Memory) (a b : Nat) (v : Byte) :
    Memory.read (Memory.write m a v) b = if b = a then some v else Memory.read m b := by
  induction m with
  | nil => simp [Memory.write, Memory.read]
  | cons c rest ih =>
    obtain ⟨k, w⟩ := c
    unfold Memory.write
    split
    · simp [Memory.read]
    · split
      · subst a
        simp only [Memory.read]
        split <;> rfl
      · simp only [Memory.read, ih]
        split
        · subst b
          rw [if_neg (by omega)]
        · rfl

/-- A write lists the written offset and no new other one. -/
theorem Memory.mem_write {m : Memory} {a : Nat} {v : Byte} {c : Host.Cell} (h : c ∈ Memory.write m a v) :
    c = (a, v) ∨ c ∈ m := by
  induction m with
  | nil => simpa [Memory.write] using h
  | cons d rest ih =>
    obtain ⟨k, w⟩ := d
    unfold Memory.write at h
    split at h
    · simpa using h
    · split at h
      · rcases List.mem_cons.1 h with h | h
        · exact .inl h
        · exact .inr (List.mem_cons_of_mem _ h)
      · rcases List.mem_cons.1 h with h | h
        · exact .inr (by rw [h]; exact List.mem_cons_self)
        · exact (ih h).imp id (List.mem_cons_of_mem _)

/-- A write keeps the canonical form. -/
theorem Memory.wf_write {m : Memory} (hm : Memory.wf m) (a : Nat) (v : Byte) : Memory.wf (Memory.write m a v) := by
  induction m with
  | nil => simp [Memory.write]
  | cons d rest ih =>
    obtain ⟨k, w⟩ := d
    obtain ⟨hd, ht⟩ := List.pairwise_cons.1 hm
    unfold Memory.write
    split
    case isTrue hlt =>
      refine List.pairwise_cons.2 ⟨fun c hc => ?_, hm⟩
      rcases List.mem_cons.1 hc with rfl | hc
      · exact hlt
      · exact Nat.lt_trans hlt (hd c hc)
    case isFalse hge =>
      split
      case isTrue heq => subst heq; exact List.pairwise_cons.2 ⟨hd, ht⟩
      case isFalse hne =>
        refine List.pairwise_cons.2 ⟨fun c hc => ?_, ih ht⟩
        rcases Memory.mem_write hc with rfl | hc
        · exact Nat.lt_of_le_of_ne (Nat.le_of_not_lt hge) (Ne.symm hne)
        · exact hd c hc

/-! ### Lists of bytes -/

@[simp] theorem Memory.writeAll_nil (m : Memory) : Memory.writeAll m [] = m := rfl

@[simp] theorem Memory.writeAll_cons (m : Memory) (c : Host.Cell) (rest : List Host.Cell) :
    Memory.writeAll m (c :: rest) = Memory.writeAll (Memory.write m c.1 c.2) rest := rfl

theorem Memory.writeAll_append (m : Memory) (xs ys : List Host.Cell) :
    Memory.writeAll m (xs ++ ys) = Memory.writeAll (Memory.writeAll m xs) ys := by
  induction xs generalizing m with
  | nil => rfl
  | cons c xs ih => simp [ih]

/-- Writing a list of bytes keeps the canonical form. -/
theorem Memory.wf_writeAll {m : Memory} (hm : Memory.wf m) (cells : List Host.Cell) :
    Memory.wf (Memory.writeAll m cells) := by
  induction cells generalizing m with
  | nil => exact hm
  | cons c rest ih => exact ih (Memory.wf_write hm c.1 c.2)

/-- Writing a list of bytes lists only what was listed before and what was written. -/
theorem Memory.mem_writeAll {m : Memory} {cells : List Host.Cell} {c : Host.Cell}
    (h : c ∈ Memory.writeAll m cells) : c ∈ m ∨ c ∈ cells := by
  induction cells generalizing m with
  | nil => exact .inl h
  | cons d rest ih =>
    rcases ih h with h | h
    · rcases Memory.mem_write h with rfl | h
      · exact .inr List.mem_cons_self
      · exact .inl h
    · exact .inr (List.mem_cons_of_mem _ h)

/-- The bytes of a number, one after the other. -/
theorem bytesAt_succ (a n p : Nat) : bytesAt a (n + 1) p = bytesAt a n p ++ [(a + n, byteOf p n)] := by
  simp [bytesAt, List.range_succ]

/-- What the staged bytes of a number leave at each offset. -/
theorem Memory.read_writeAll_bytesAt (m : Memory) (a n p x : Nat) :
    Memory.read (Memory.writeAll m (bytesAt a n p)) x =
      if a ≤ x ∧ x < a + n then some (byteOf p (x - a)) else Memory.read m x := by
  induction n with
  | zero => rw [if_neg (by omega)]; rfl
  | succ n ih =>
    rw [bytesAt_succ, Memory.writeAll_append, Memory.writeAll_cons, Memory.writeAll_nil, Memory.read_write, ih]
    by_cases hx : x = a + n
    · subst hx
      simp
    · by_cases hr : a ≤ x ∧ x < a + n
      · rw [if_neg hx, if_pos hr, if_pos (by omega)]
      · rw [if_neg hx, if_neg hr, if_neg (by omega)]

/-- A staged byte of a number lies in its region. -/
theorem mem_bytesAt {a n p : Nat} {c : Host.Cell} (h : c ∈ bytesAt a n p) : a ≤ c.1 ∧ c.1 < a + n := by
  simp only [bytesAt, List.mem_map, List.mem_range] at h
  obtain ⟨j, hj, rfl⟩ := h
  exact ⟨Nat.le_add_right a j, Nat.add_lt_add_left hj a⟩

/-! ### The bytes of the state -/

/-- What the staged bytes of a number do to the bytes of the state (20_memory R64). -/
theorem State.byte_writeBytes_bytesAt (s : State) (a n p x : Nat) :
    (s.writeBytes (bytesAt a n p)).byte x = if a ≤ x ∧ x < a + n then byteOf p (x - a) else s.byte x := by
  unfold State.byte State.writeBytes
  rw [Memory.read_writeAll_bytesAt]
  split <;> rfl

theorem State.writeBytes_append (s : State) (xs ys : List Host.Cell) :
    s.writeBytes (xs ++ ys) = (s.writeBytes xs).writeBytes ys := by
  simp [State.writeBytes, Memory.writeAll_append]

/-- `round_up8` never rounds down (10_state R36). -/
theorem le_roundUp8 (n : Nat) : n ≤ roundUp8 n := by
  unfold roundUp8; omega

/-- What the staged bytes of a packed point do to the bytes of the state (20_memory R68). -/
theorem State.byte_writeBytes_writePoint (s : State) (fsb a : Nat) (p : Point) (x : Nat) :
    (s.writeBytes (writePoint fsb a p)).byte x =
      if a ≤ x ∧ x < a + fsb then byteOf p.x (x - a)
      else if a + fsb ≤ x ∧ x < a + roundUp8 fsb then 0
      else if a + roundUp8 fsb ≤ x ∧ x < a + packedLen fsb then byteOf p.y (x - (a + roundUp8 fsb))
      else s.byte x := by
  have hy := le_roundUp8 fsb
  have hz : ∀ j, byteOf 0 j = 0 := fun j => by simp [byteOf]
  unfold writePoint writeFE packedLen
  rw [State.writeBytes_append, State.writeBytes_append, State.byte_writeBytes_bytesAt,
    State.byte_writeBytes_bytesAt, State.byte_writeBytes_bytesAt, hz]
  by_cases h1 : a ≤ x ∧ x < a + fsb
  · rw [if_neg (by omega), if_neg (by omega), if_pos h1, if_pos h1]
  · by_cases h2 : a + fsb ≤ x ∧ x < a + roundUp8 fsb
    · rw [if_neg (by omega), if_pos (by omega), if_neg h1, if_pos h2]
    · by_cases h3 : a + roundUp8 fsb ≤ x ∧ x < a + (roundUp8 fsb + fsb)
      · rw [if_pos (by omega), if_neg h1, if_neg h2, if_pos h3]
      · rw [if_neg (by omega), if_neg (by omega), if_neg h1, if_neg h1, if_neg h2, if_neg h3]

/-- A staged byte of a packed point lies in its region of PLEN bytes (20_memory R68). -/
theorem mem_writePoint {fsb a : Nat} {p : Point} {c : Host.Cell} (h : c ∈ writePoint fsb a p) :
    a ≤ c.1 ∧ c.1 < a + packedLen fsb := by
  have hy := le_roundUp8 fsb
  unfold writePoint writeFE at h
  unfold packedLen
  rcases List.mem_append.1 h with h | h
  · rcases List.mem_append.1 h with h | h
    · have := mem_bytesAt h; omega
    · have := mem_bytesAt h; omega
  · have := mem_bytesAt h; omega

/-! ### Numbers -/

@[simp] theorem State.number_zero (s : State) (a : Nat) : s.number a 0 = 0 := rfl

theorem State.number_succ (s : State) (a n : Nat) :
    s.number a (n + 1) = (s.byte a).toNat + 256 * s.number (a + 1) n := rfl

/-- A number depends only on its own bytes (20_memory R63). -/
theorem State.number_congr {s t : State} {a n : Nat} (h : ∀ x, a ≤ x → x < a + n → t.byte x = s.byte x) :
    t.number a n = s.number a n := by
  induction n generalizing a with
  | zero => rfl
  | succ n ih =>
    rw [State.number_succ, State.number_succ, h a (Nat.le_refl a) (by omega),
      ih fun x h1 h2 => h x (by omega) (by omega)]

/-- An `n`-byte number is below `256^n` (20_memory R63). -/
theorem State.number_lt (s : State) (a n : Nat) : s.number a n < 256 ^ n := by
  induction n generalizing a with
  | zero => simp
  | succ n ih =>
    have hb := (s.byte a).isLt
    have hn := ih (a + 1)
    rw [State.number_succ, Nat.pow_succ]
    omega

end Sys2Proof.Machine
end

