-- ==== Sys2Proof/Laws/Commands.lean ====
section
/-! SUPPORT. What a command can do: every meaning is a completion with its rule's answer, and each check of a rule says
once what it answers. -/

namespace Sys2Proof.Machine

/-! ### The checks -/

/-- A check either lets the rule go on or ends it with its error (60_exceptions R193). -/
theorem require_bind {α : Type} (b : Bool) (e : CmdError) (k : Unit → Except CmdError α) :
    (require b e >>= k) = if b = true then k () else .error e := by
  cases b <;> rfl

/-- A rule that answers passed its check. -/
theorem require_bind_eq_ok {α : Type} {b : Bool} {e : CmdError} {k : Unit → Except CmdError α} {r : α} :
    (require b e >>= k) = .ok r ↔ b = true ∧ k () = .ok r := by
  cases b
  · simp [require, bind, Except.bind]
  · simp [require, bind, Except.bind]

/-- A rule that ends in an error failed its check, or passed it and failed later. -/
theorem require_bind_eq_error {α : Type} {b : Bool} {e e' : CmdError} {k : Unit → Except CmdError α} :
    (require b e >>= k) = .error e' ↔ (b = false ∧ e = e') ∨ (b = true ∧ k () = .error e') := by
  cases b
  · simp [require, bind, Except.bind]
  · simp [require, bind, Except.bind]

/-- A later part of a rule that answers follows an earlier part that answers. -/
theorem bind_eq_ok {α β : Type} {x : Except CmdError α} {k : α → Except CmdError β} {r : β} :
    (x >>= k) = .ok r ↔ ∃ a, x = .ok a ∧ k a = .ok r := by
  cases x <;> simp [bind, Except.bind]

/-- An error of a rule is the error of its first part that has one. -/
theorem bind_eq_error {α β : Type} {x : Except CmdError α} {k : α → Except CmdError β} {e : CmdError} :
    (x >>= k) = .error e ↔ x = .error e ∨ ∃ a, x = .ok a ∧ k a = .error e := by
  cases x <;> simp [bind, Except.bind]

/-- A region is in range when it ends in OPMEM (20_memory R65). -/
theorem State.inRange_iff (s : State) (a n : Nat) : s.inRange a n = true ↔ a + n ≤ s.cfg.opmemBytes := by
  simp [State.inRange]

theorem State.singleLen_iff (s : State) (n : Nat) : s.singleLen n = true ↔ 1 ≤ n ∧ n ≤ s.cfg.capBytes := by
  simp [State.singleLen]

theorem State.doubleLen_iff (s : State) (n : Nat) : s.doubleLen n = true ↔ 1 ≤ n ∧ n ≤ 2 * s.cfg.capBytes := by
  simp [State.doubleLen]

/-- CurveGeom passes exactly under its conditions (41_ec_point R140). -/
theorem State.curveGeom_eq_ok_iff (s : State) (crv : CurveRegs) :
    s.curveGeom crv = .ok () ↔
      (1 ≤ crv.fsb ∧ crv.fsb ≤ s.cfg.capBytes) ∧ (1 ≤ crv.m ∧ crv.fsb = crv.m >>> 3 + 1) ∧
        crv.base + 7 * s.cfg.capBytes ≤ s.cfg.opmemBytes := by
  unfold State.curveGeom
  rw [require_bind_eq_ok, require_bind_eq_ok]
  simp only [Bool.and_eq_true, decide_eq_true_eq, require, State.inRange_iff]
  split <;> simp_all

/-- CurveLoad answers the record exactly when its modulus has degree M (41_ec_point R141). -/
theorem State.curveLoad_eq_ok_iff (s : State) (crv : CurveRegs) (c : Curve) :
    s.curveLoad crv = .ok c ↔ deg (s.curveRecord crv).f = crv.m ∧ s.curveRecord crv = c := by
  unfold State.curveLoad
  rw [require_bind_eq_ok, decide_eq_true_eq]
  simp [pure, Except.pure]

/-- CurveLoad's only error is PARAM (41_ec_point R141). -/
theorem State.curveLoad_error {s : State} {crv : CurveRegs} {e : CmdError} (h : s.curveLoad crv = .error e) :
    e = .param ∧ deg (s.curveRecord crv).f ≠ crv.m := by
  unfold State.curveLoad at h
  rw [require_bind_eq_error] at h
  simp only [decide_eq_false_iff_not, decide_eq_true_eq, pure, Except.pure] at h
  rcases h with ⟨hne, rfl⟩ | ⟨-, h⟩
  · exact ⟨rfl, hne⟩
  · cases h

/-! ### The point functions raise NOINV or nothing -/

theorem ecDouble_error {c : Curve} {p : Point} {e : CmdError} (h : ecDouble c p = .error e) : e = .noinv := by
  unfold ecDouble at h
  split at h
  · cases h
  · rcases bind_eq_error.1 h with h | ⟨a, -, h⟩
    · exact invEuclid_error h
    · cases h

theorem ecPlus_error {c : Curve} {p q : Point} {e : CmdError} (h : ecPlus c p q = .error e) : e = .noinv := by
  unfold ecPlus at h
  split at h
  · exact ecDouble_error h
  · split at h
    · cases h
    · split at h
      · cases h
      · split at h
        · cases h
        · rcases bind_eq_error.1 h with h | ⟨a, -, h⟩
          · exact invEuclid_error h
          · cases h

theorem ecTimesBelow_error {c : Curve} {p acc : Point} {k n : Nat} {e : CmdError}
    (h : ecTimesBelow c p k n acc = .error e) : e = .noinv := by
  induction n generalizing acc with
  | zero => cases h
  | succ n ih =>
    unfold ecTimesBelow at h
    rcases bind_eq_error.1 h with h | ⟨a, -, h⟩
    · exact ecDouble_error h
    · rcases bind_eq_error.1 h with h | ⟨b, -, h⟩
      · exact ecPlus_error h
      · exact ih h

theorem ecTimes_error {c : Curve} {p : Point} {k : Nat} {e : CmdError} (h : ecTimes c p k = .error e) : e = .noinv :=
  ecTimesBelow_error h

/-- Validation's three checks never end in an error (42_ecdh R171, 60_exceptions R196). -/
theorem acceptKey_eq_ok (c : Curve) (p : Point) :
    acceptKey c p = .ok (!p.isInf && onCurve c p &&
      (match ecTimes c p c.order with | .ok z => z.isInf | .error _ => false)) := by
  unfold acceptKey inSubgroup
  split
  case isTrue h => simp [h]
  case isFalse h =>
    split
    case isTrue h2 => simp_all
    case isFalse h2 =>
      cases he : ecTimes c p c.order with
      | ok z => simp_all
      | error e =>
        have := ecTimes_error he
        subst this
        simp

/-! ### The rule of each command -/

/-- The rule of each command (30_encoding R99). -/
def ruleOf (i : Instr) (s : State) : CmdOutcome :=
  match i with
  | .gfDeg src n => gfDegRule src n s
  | .gfMul dst a b n => gfMulRule dst a b n s
  | .gfRed poly modulus n n2 => gfRedRule poly modulus n n2 s
  | .gfShl dst src n count => gfShlRule dst src n count s
  | .gfInv dst a modulus n => gfInvRule dst a modulus n s
  | .ecAdd r p q crv => ecAddRule r p q crv s
  | .ecDbl r p crv => ecDblRule r p crv s
  | .ecMul r p k crv => ecMulRule r p k crv s
  | .ecOncurve p crv => ecOncurveRule p crv s
  | .ecdhGenpub pub d crv => ecdhGenpubRule pub d crv s
  | .ecdhValidate pub crv => ecdhValidateRule pub crv s
  | .ecdhShared secret d peer crv => ecdhSharedRule secret d peer crv s

/-- Every command completes with its rule's answer (10_state R42): it never faults and never refuses. -/
theorem exec_eq_complete (i : Instr) (s : State) : exec i s = .next (s.complete (ruleOf i s)) := by
  cases i <;> rfl

end Sys2Proof.Machine
end

