-- ==== Sys2Proof/Laws/Host.lean ====
section
/-! SUPPORT. What a host transaction and a step can do, said once: later proofs take the cases from here. -/

namespace Sys2Proof.Machine

/-- Every register is found at its offset (10_state section 2). -/
theorem regAt_regOffset (r : Reg) : regAt (regOffset r) = some r := by
  cases r <;> rfl

/-- A register's offset names that register in every build (10_state R21). -/
theorem targetOf_regOffset (cfg : Config) (r : Reg) : targetOf cfg (BitVec.ofNat 16 (regOffset r)) = .reg r := by
  cases r <;> simp [targetOf, inWindow, regTarget, regOffset, windowBase, regAt, allRegs]

/-- A read at a register's offset is a read of that register, and changes no state (10_state R21). -/
theorem State.busRead_regOffset (s : State) (r : Reg) :
    s.busRead (BitVec.ofNat 16 (regOffset r)) = (s.readReg r, s) := by
  unfold State.busRead
  rw [targetOf_regOffset]

/-- A write at a register's offset is a write of that register (10_state R21). -/
theorem State.busWrite_regOffset (s : State) (r : Reg) (data : Word) :
    s.busWrite (BitVec.ofNat 16 (regOffset r)) data = s.writeReg r data := by
  unfold State.busWrite
  rw [targetOf_regOffset]

theorem inWindow_iff (cfg : Config) (a : Nat) :
    inWindow cfg a = true ↔ windowBase ≤ a ∧ a < windowBase + cfg.opmemBytes := by
  simp [inWindow]

/-- What an OPMEM target says of the address (20_memory R60). -/
theorem targetOf_eq_opmem_iff (cfg : Config) (addr : Addr) (o : Nat) :
    targetOf cfg addr = .opmem o ↔
      addr.toNat % 4 = 0 ∧ o < cfg.opmemBytes ∧ addr.toNat = windowBase + o := by
  unfold targetOf
  by_cases h4 : addr.toNat % 4 = 0
  · rw [if_pos h4]
    by_cases hw : inWindow cfg addr.toNat = true
    · rw [if_pos hw]
      rw [inWindow_iff] at hw
      simp only [Target.opmem.injEq]
      omega
    · rw [if_neg hw]
      rw [inWindow_iff] at hw
      have hno : regTarget (regAt addr.toNat) ≠ .opmem o := by
        cases regAt addr.toNat <;> simp [regTarget]
      simp only [hno, false_iff]
      omega
  · rw [if_neg h4]
    simp [h4]

/-- An aligned OPMEM word of a legal build lies in OPMEM whole (20_memory R60, R61). -/
theorem targetOf_opmem {cfg : Config} (hl : cfg.Legal) {addr : Addr} {o : Nat} (h : targetOf cfg addr = .opmem o) :
    addr.toNat = windowBase + o ∧ o % 4 = 0 ∧ o + 4 ≤ cfg.opmemBytes := by
  obtain ⟨-, -, -, hm⟩ := hl
  obtain ⟨h4, hr, ha⟩ := (targetOf_eq_opmem_iff cfg addr o).1 h
  have hb : windowBase = 4096 := rfl
  omega

/-- The address of an OPMEM word names it (20_memory R60). -/
theorem targetOf_window {cfg : Config} (hl : cfg.Legal) {o : Nat} (ho : o % 4 = 0) (hr : o < cfg.opmemBytes) :
    targetOf cfg (BitVec.ofNat 16 (windowBase + o)) = .opmem o := by
  obtain ⟨-, -, hb, -⟩ := hl
  have hw : windowBase = 4096 := rfl
  have ha : (BitVec.ofNat 16 (windowBase + o)).toNat = windowBase + o := by
    rw [BitVec.toNat_ofNat]
    omega
  rw [targetOf_eq_opmem_iff, ha]
  omega

/-- Everything a `BusWrite` can do (10_state R21): set ACCERR, write a register, or write an OPMEM word while IDLE. -/
theorem State.busWrite_cases (s : State) (addr : Addr) (data : Word) :
    s.busWrite addr data = s.setAccErr ∨
    (∃ r, targetOf s.cfg addr = .reg r ∧ s.busWrite addr data = s.writeReg r data) ∨
    (∃ o, targetOf s.cfg addr = .opmem o ∧ s.engine = .idle ∧
      s.busWrite addr data = s.writeBytes (bytesAt o 4 data.toNat)) := by
  unfold State.busWrite
  split
  · exact .inl rfl
  · exact .inr (.inl ⟨_, ‹_›, rfl⟩)
  · split
    case isTrue => exact .inl rfl
    case isFalse hb =>
      exact .inr (.inr ⟨_, ‹_›, (State.busy_eq_false_iff s).1 (by simpa using hb), rfl⟩)
  · exact .inl rfl

/-- Everything a `BusRead` can do to the state: nothing, or set ACCERR with the data 0 (20_memory R74). -/
theorem State.busRead_cases (s : State) (addr : Addr) :
    (s.busRead addr).2 = s ∨ s.busRead addr = (0, s.setAccErr) := by
  unfold State.busRead
  split
  · exact .inr rfl
  · exact .inl rfl
  · split
    · exact .inr rfl
    · exact .inl rfl
  · exact .inr rfl

/-- The engine's turn: nothing while IDLE; the decoded command's rule, or BADOP, while BUSY (10_state R42,
30_encoding R99). -/
theorem engineTurn_cases (s : State) :
    (s.engine = .idle ∧ engineTurn s = .next s) ∨
    (∃ c i, s.engine = .busy c ∧ decode c = .ok i ∧ engineTurn s = .next (s.complete (ruleOf i s))) ∨
    (∃ c e, s.engine = .busy c ∧ decode c = .error e ∧ engineTurn s = .next (s.complete (.error .badop))) := by
  unfold engineTurn
  cases hs : s.engine with
  | idle => simp [State.fetch, hs]
  | busy c =>
    simp only [State.fetch, hs, runCommand]
    cases hd : decode c with
    | ok i => simp [exec_eq_complete, hd]
    | error e => simp [hd]

/-- Everything a step can do (00_scope R8, 70_reset R220): a host transaction, the engine's turn, or a reset, each on
the state whose first event is taken off the agenda. -/
theorem step_cases {s t : State} (h : step s = .next t) :
    (∃ tr rest, s.agenda = .bus tr :: rest ∧ t = s.advance.transact tr) ∨
    (∃ rest, s.agenda = .reset :: rest ∧ t = s.advance.applyReset) ∨
    ((s.agenda = [] ∨ ∃ rest, s.agenda = .engine :: rest) ∧
      ((s.engine = .idle ∧ t = s.advance) ∨
       (∃ c i, s.engine = .busy c ∧ decode c = .ok i ∧ t = s.advance.complete (ruleOf i s.advance)) ∨
       (∃ c e, s.engine = .busy c ∧ decode c = .error e ∧ t = s.advance.complete (.error .badop)))) := by
  have turn : engineTurn s.advance = .next t →
      ((s.engine = .idle ∧ t = s.advance) ∨
       (∃ c i, s.engine = .busy c ∧ decode c = .ok i ∧ t = s.advance.complete (ruleOf i s.advance)) ∨
       (∃ c e, s.engine = .busy c ∧ decode c = .error e ∧ t = s.advance.complete (.error .badop))) := by
    intro h
    rcases engineTurn_cases s.advance with ⟨h1, h2⟩ | ⟨c, i, h1, h2, h3⟩ | ⟨c, e, h1, h2, h3⟩
    · rw [h2] at h; cases h
      exact .inl ⟨h1, rfl⟩
    · rw [h3] at h; cases h
      exact .inr (.inl ⟨c, i, h1, h2, rfl⟩)
    · rw [h3] at h; cases h
      exact .inr (.inr ⟨c, e, h1, h2, rfl⟩)
  unfold step nextTurn at h
  cases ha : s.agenda with
  | nil =>
    rw [ha] at h
    exact .inr (.inr ⟨.inl rfl, turn h⟩)
  | cons e rest =>
    rw [ha] at h
    cases e with
    | bus tr =>
      cases h
      exact .inl ⟨tr, rest, rfl, rfl⟩
    | engine => exact .inr (.inr ⟨.inr ⟨rest, rfl⟩, turn h⟩)
    | reset =>
      cases h
      exact .inr (.inl ⟨rest, rfl, rfl⟩)

end Sys2Proof.Machine
end

