-- ==== Sys2Proof/Laws/PerInstr.lean ====
section
/-! SUPPORT. The family EncodeWord: the command word that `encode` writes for each instruction (30_encoding R90 to R92),
one lemma per constructor. -/

namespace Sys2Proof.Laws

/-- `zext_32(OPCODE)` has zero reserved bits (30_encoding R92). -/
theorem reservedField_zext (op : BitVec 8) : reservedField (op.setWidth 32) = 0 := by
  unfold reservedField
  ext j hj
  simp

/-- `zext_32(OPCODE)` holds the OPCODE (30_encoding R92). -/
theorem opcodeField_zext (op : BitVec 8) : opcodeField (op.setWidth 32) = op := by
  unfold opcodeField
  ext j hj
  simp only [BitVec.getElem_extractLsb', Nat.zero_add, BitVec.getLsbD_setWidth, BitVec.getLsbD_eq_getElem hj]
  rw [decide_eq_true (by omega : j < 32), Bool.true_and]

/-- The encoded CMD word is `zext_32(OPCODE)`, its reserved bits are zero, and its OPCODE field is the instruction's. -/
def EncodeWord.Statement (i : Instr) : Prop :=
  (encode i).cmd = commandWord i ∧ reservedField (commandWord i) = 0 ∧ opcodeField (commandWord i) = opcodeOf i

theorem EncodeWord.gfDeg (src n : Nat) : EncodeWord.Statement (.gfDeg src n) :=
  ⟨rfl, reservedField_zext _, opcodeField_zext _⟩

theorem EncodeWord.gfMul (dst a b n : Nat) : EncodeWord.Statement (.gfMul dst a b n) :=
  ⟨rfl, reservedField_zext _, opcodeField_zext _⟩

theorem EncodeWord.gfRed (poly modulus n n2 : Nat) : EncodeWord.Statement (.gfRed poly modulus n n2) :=
  ⟨rfl, reservedField_zext _, opcodeField_zext _⟩

theorem EncodeWord.gfShl (dst src n count : Nat) : EncodeWord.Statement (.gfShl dst src n count) :=
  ⟨rfl, reservedField_zext _, opcodeField_zext _⟩

theorem EncodeWord.gfInv (dst a modulus n : Nat) : EncodeWord.Statement (.gfInv dst a modulus n) :=
  ⟨rfl, reservedField_zext _, opcodeField_zext _⟩

theorem EncodeWord.ecAdd (r p q : Nat) (crv : CurveRegs) : EncodeWord.Statement (.ecAdd r p q crv) :=
  ⟨rfl, reservedField_zext _, opcodeField_zext _⟩

theorem EncodeWord.ecDbl (r p : Nat) (crv : CurveRegs) : EncodeWord.Statement (.ecDbl r p crv) :=
  ⟨rfl, reservedField_zext _, opcodeField_zext _⟩

theorem EncodeWord.ecMul (r p k : Nat) (crv : CurveRegs) : EncodeWord.Statement (.ecMul r p k crv) :=
  ⟨rfl, reservedField_zext _, opcodeField_zext _⟩

theorem EncodeWord.ecOncurve (p : Nat) (crv : CurveRegs) : EncodeWord.Statement (.ecOncurve p crv) :=
  ⟨rfl, reservedField_zext _, opcodeField_zext _⟩

theorem EncodeWord.ecdhGenpub (pub d : Nat) (crv : CurveRegs) : EncodeWord.Statement (.ecdhGenpub pub d crv) :=
  ⟨rfl, reservedField_zext _, opcodeField_zext _⟩

theorem EncodeWord.ecdhValidate (pub : Nat) (crv : CurveRegs) : EncodeWord.Statement (.ecdhValidate pub crv) :=
  ⟨rfl, reservedField_zext _, opcodeField_zext _⟩

theorem EncodeWord.ecdhShared (secret d peer : Nat) (crv : CurveRegs) : EncodeWord.Statement (.ecdhShared secret d peer crv) :=
  ⟨rfl, reservedField_zext _, opcodeField_zext _⟩

end Sys2Proof.Laws
end

