-- ==== Sys2Proof/Tests/Slice0.lean ====
section
/-! SUPPORT. Tests of the model, each on fixed values: the well-formedness checks, every constructor's words, one step of
every command with values of the spec's own vectors (95_test_vectors), the host port, and for every statement with
hypotheses a witness that meets them. -/

namespace Sys2Proof.Tests

open Sys2Proof.Machine

-- One theorem at a time: elaborated at once, the kernel evaluations below each hold a thread.
set_option Elab.async false

/-! ### Helpers -/

/-- The first number that no 32-bit register holds. -/
def big : Nat := 2 ^ 32

/-- The largest value of a register. -/
def top : Nat := 2 ^ 32 - 1

/-- Nine command words that differ from one another, under a given CMD. -/
def words (cmd : Word) : Command :=
  { cmd, arg0 := 0xA0, arg1 := 0xA1, arg2 := 0xA2, len := 0x11, len2 := 0x22,
    curveBase := 0xB0, curveFsb := 0xB1, curveM := 0xB2 }

/-- The curve operands of `words`. -/
def wordsCurve : CurveRegs := ⟨0xB0, 0xB1, 0xB2⟩

/-- The block after reset with the given OPMEM bytes written. -/
def block (opmem : Memory) : State := { State.reset with opmem }

/-- The curve operands of the vectors' toy curve T5 with its record at 0 (95_test_vectors section 2.1). -/
def t5 : CurveRegs := ⟨0, 1, 5⟩

/-- The bytes of T5's record that a command reads. -/
def t5Record : Memory := [(0x00, 0x01), (0x28, 0x01), (0x50, 0x08), (0x78, 0x17), (0xA0, 0x25), (0xC8, 0x0B)]

/-- T5's record, the point `(x, y)` packed at 0x200, the point `(x', y')` at 0x210, and the scalar `k` at 0x220. -/
def t5Block (x y x' y' k : Byte) : State :=
  block (t5Record ++ [(0x200, x), (0x208, y), (0x210, x'), (0x218, y'), (0x220, k)])

/-- The state after an outcome; a stop, which no test expects, gives the reset state. -/
def after : Host.Outcome State Fault Refusal → State
  | .next t => t
  | .fault _ => State.reset
  | .refused _ => State.reset

/-- What a vector's row tells of a command: ERRCODE, RESULT, and `n` bytes at `a`. -/
def outcome (i : Instr) (s : State) (a n : Nat) : BitVec 4 × Word × List Byte :=
  let t := after (exec i s)
  (t.errCode, t.result, (List.range n).map fun j => t.byte (a + j))

/-! ### Well-formedness: one ill-formed term for each operand's check, and the largest well-formed one -/

theorem test_wf_gfDeg :
    [Instr.gfDeg big 0, .gfDeg 0 big].all (fun i => !i.wellFormed) ∧ (Instr.gfDeg top top).wellFormed := by decide

theorem test_wf_gfMul :
    [Instr.gfMul big 0 0 0, .gfMul 0 big 0 0, .gfMul 0 0 big 0, .gfMul 0 0 0 big].all (fun i => !i.wellFormed) ∧
    (Instr.gfMul top top top top).wellFormed := by decide

theorem test_wf_gfRed :
    [Instr.gfRed big 0 0 0, .gfRed 0 big 0 0, .gfRed 0 0 big 0, .gfRed 0 0 0 big].all (fun i => !i.wellFormed) ∧
    (Instr.gfRed top top top top).wellFormed := by decide

theorem test_wf_gfShl :
    [Instr.gfShl big 0 0 0, .gfShl 0 big 0 0, .gfShl 0 0 big 0, .gfShl 0 0 0 big].all (fun i => !i.wellFormed) ∧
    (Instr.gfShl top top top top).wellFormed := by decide

theorem test_wf_gfInv :
    [Instr.gfInv big 0 0 0, .gfInv 0 big 0 0, .gfInv 0 0 big 0, .gfInv 0 0 0 big].all (fun i => !i.wellFormed) ∧
    (Instr.gfInv top top top top).wellFormed := by decide

theorem test_wf_ecAdd :
    [Instr.ecAdd big 0 0 t5, .ecAdd 0 big 0 t5, .ecAdd 0 0 big t5, .ecAdd 0 0 0 ⟨big, 0, 0⟩, .ecAdd 0 0 0 ⟨0, big, 0⟩,
      .ecAdd 0 0 0 ⟨0, 0, big⟩].all (fun i => !i.wellFormed) ∧
    (Instr.ecAdd top top top ⟨top, top, top⟩).wellFormed := by decide

theorem test_wf_ecDbl :
    [Instr.ecDbl big 0 t5, .ecDbl 0 big t5, .ecDbl 0 0 ⟨big, 0, 0⟩, .ecDbl 0 0 ⟨0, big, 0⟩,
      .ecDbl 0 0 ⟨0, 0, big⟩].all (fun i => !i.wellFormed) ∧
    (Instr.ecDbl top top ⟨top, top, top⟩).wellFormed := by decide

theorem test_wf_ecMul :
    [Instr.ecMul big 0 0 t5, .ecMul 0 big 0 t5, .ecMul 0 0 big t5, .ecMul 0 0 0 ⟨big, 0, 0⟩, .ecMul 0 0 0 ⟨0, big, 0⟩,
      .ecMul 0 0 0 ⟨0, 0, big⟩].all (fun i => !i.wellFormed) ∧
    (Instr.ecMul top top top ⟨top, top, top⟩).wellFormed := by decide

theorem test_wf_ecOncurve :
    [Instr.ecOncurve big t5, .ecOncurve 0 ⟨big, 0, 0⟩, .ecOncurve 0 ⟨0, big, 0⟩,
      .ecOncurve 0 ⟨0, 0, big⟩].all (fun i => !i.wellFormed) ∧
    (Instr.ecOncurve top ⟨top, top, top⟩).wellFormed := by decide

theorem test_wf_ecdhGenpub :
    [Instr.ecdhGenpub big 0 t5, .ecdhGenpub 0 big t5, .ecdhGenpub 0 0 ⟨big, 0, 0⟩, .ecdhGenpub 0 0 ⟨0, big, 0⟩,
      .ecdhGenpub 0 0 ⟨0, 0, big⟩].all (fun i => !i.wellFormed) ∧
    (Instr.ecdhGenpub top top ⟨top, top, top⟩).wellFormed := by decide

theorem test_wf_ecdhValidate :
    [Instr.ecdhValidate big t5, .ecdhValidate 0 ⟨big, 0, 0⟩, .ecdhValidate 0 ⟨0, big, 0⟩,
      .ecdhValidate 0 ⟨0, 0, big⟩].all (fun i => !i.wellFormed) ∧
    (Instr.ecdhValidate top ⟨top, top, top⟩).wellFormed := by decide

theorem test_wf_ecdhShared :
    [Instr.ecdhShared big 0 0 t5, .ecdhShared 0 big 0 t5, .ecdhShared 0 0 big t5, .ecdhShared 0 0 0 ⟨big, 0, 0⟩,
      .ecdhShared 0 0 0 ⟨0, big, 0⟩, .ecdhShared 0 0 0 ⟨0, 0, big⟩].all (fun i => !i.wellFormed) ∧
    (Instr.ecdhShared top top top ⟨top, top, top⟩).wellFormed := by decide

/-! ### Decoding: CMD bit by bit from 30_encoding R92, every operand from the register of its column of R93 -/

theorem test_decode_gfDeg : decode (words 0b00000000000000000000000000000001) = .ok (.gfDeg 0xA1 0x11) := by rfl

theorem test_decode_gfMul :
    decode (words 0b00000000000000000000000000000010) = .ok (.gfMul 0xA0 0xA1 0xA2 0x11) := by rfl

theorem test_decode_gfRed :
    decode (words 0b00000000000000000000000000000011) = .ok (.gfRed 0xA0 0xA1 0x11 0x22) := by rfl

theorem test_decode_gfShl :
    decode (words 0b00000000000000000000000000000100) = .ok (.gfShl 0xA0 0xA1 0x11 0x22) := by rfl

theorem test_decode_gfInv :
    decode (words 0b00000000000000000000000000000101) = .ok (.gfInv 0xA0 0xA1 0xA2 0x11) := by rfl

theorem test_decode_ecAdd :
    decode (words 0b00000000000000000000000000010000) = .ok (.ecAdd 0xA0 0xA1 0xA2 wordsCurve) := by rfl

theorem test_decode_ecDbl :
    decode (words 0b00000000000000000000000000010001) = .ok (.ecDbl 0xA0 0xA1 wordsCurve) := by rfl

theorem test_decode_ecMul :
    decode (words 0b00000000000000000000000000010010) = .ok (.ecMul 0xA0 0xA1 0xA2 wordsCurve) := by rfl

theorem test_decode_ecOncurve :
    decode (words 0b00000000000000000000000000010011) = .ok (.ecOncurve 0xA1 wordsCurve) := by rfl

theorem test_decode_ecdhGenpub :
    decode (words 0b00000000000000000000000000100000) = .ok (.ecdhGenpub 0xA0 0xA1 wordsCurve) := by rfl

theorem test_decode_ecdhValidate :
    decode (words 0b00000000000000000000000000100001) = .ok (.ecdhValidate 0xA1 wordsCurve) := by rfl

theorem test_decode_ecdhShared :
    decode (words 0b00000000000000000000000000100010) = .ok (.ecdhShared 0xA0 0xA1 0xA2 wordsCurve) := by rfl

/-- 30_encoding R91, R96: a reserved bit, the reserved OPCODEs beside the twelve, and 95_test_vectors EC13. -/
theorem test_decode_refusals :
    decode (words 0x00) = .error (.reservedOpcode 0x00) ∧ decode (words 0x06) = .error (.reservedOpcode 0x06) ∧
    decode (words 0x14) = .error (.reservedOpcode 0x14) ∧ decode (words 0x23) = .error (.reservedOpcode 0x23) ∧
    decode (words 0xFF) = .error (.reservedOpcode 0xFF) ∧ decode (words 0x111) = .error .reservedBits ∧
    decode (words 0x80000001) = .error .reservedBits := by
  refine ⟨?_, ?_, ?_, ?_, ?_, ?_, ?_⟩ <;> rfl

/-- The table's numbering of the words: bits 63 to 32 are ARG0, bits 159 to 128 are LEN, and bits above the given ones are zero. -/
theorem test_decodeTableWord :
    decodeTableWord 160 0x0000001100000000000000A10000000000000002 = some (.gfMul 0 0xA1 0 0x11) ∧
    decodeTableWord 64 0x000000A000000002 = some (.gfMul 0xA0 0 0 0) ∧
    decodeTableWord 32 0x000000A000000002 = some (.gfMul 0 0 0 0) := by
  refine ⟨?_, ?_, ?_⟩ <;> decide +kernel

/-! ### One step of each command: rows of 95_test_vectors sections 3 to 6 -/

/-- FD1. -/
theorem test_gfDeg_FD1 : outcome (.gfDeg 0 1) (block [(0, 0x13)]) 0 1 = (0, 4, [0x13]) := by decide +kernel

/-- FD3: the zero polynomial. -/
theorem test_gfDeg_FD3 :
    outcome (.gfDeg 0 4) (block [(0, 0), (1, 0), (2, 0), (3, 0)]) 0 0 = (0, 0xFFFFFFFF, []) := by decide +kernel

/-- FM3. -/
theorem test_gfMul_FM3 :
    outcome (.gfMul 0x200 0 0x100 2) (block [(0, 0x34), (1, 0x12), (0x100, 0xCD), (0x101, 0xAB)]) 0x200 4 =
      (0, 0, [0x44, 0x20, 0xF6, 0x0B]) := by decide +kernel

/-- FM7: all operands alias, and the sources are read first. -/
theorem test_gfMul_FM7 : outcome (.gfMul 0 0 0 1) (block [(0, 0x13), (1, 0)]) 0 2 = (0, 0, [0x05, 0x01]) := by
  decide +kernel

/-- FR1. -/
theorem test_gfRed_FR1 :
    outcome (.gfRed 0x200 0x100 2 1) (block [(0x100, 0x25), (0x200, 0xBB), (0x201, 0x01)]) 0x200 2 =
      (0, 0, [0x07, 0x00]) := by decide +kernel

/-- FR8: a zero modulus. -/
theorem test_gfRed_FR8 :
    outcome (.gfRed 0x200 0x100 2 1) (block [(0x100, 0), (0x200, 0xBB), (0x201, 0x01)]) 0x200 2 =
      (3, 0, [0xBB, 0x01]) := by decide +kernel

/-- FS1: the product is truncated. -/
theorem test_gfShl_FS1 : outcome (.gfShl 0x200 0 1 5) (block [(0, 0x13)]) 0x200 1 = (0, 0, [0x60]) := by decide +kernel

/-- FS8: source and destination overlap. -/
theorem test_gfShl_FS8 :
    outcome (.gfShl 1 0 2 0) (block [(0, 0x12), (1, 0x34), (2, 0)]) 0 3 = (0, 0, [0x12, 0x12, 0x34]) := by
  decide +kernel

/-- FI2: the source has a degree above the modulus's. -/
theorem test_gfInv_FI2 :
    outcome (.gfInv 0x200 0 0x100 1) (block [(0, 0x38), (0x100, 0x25)]) 0x200 1 = (0, 0, [0x13]) := by decide +kernel

/-- FI7: no inverse. -/
theorem test_gfInv_FI7 :
    outcome (.gfInv 0x200 0 0x100 1) (block [(0, 0x03), (0x100, 0x05), (0x200, 0xA5)]) 0x200 1 = (4, 0, [0xA5]) := by
  decide +kernel

/-- EA1: G + 2G = 3G. -/
theorem test_ecAdd_EA1 :
    outcome (.ecAdd 0x240 0x200 0x210 t5) (t5Block 0x08 0x17 0x13 0x0F 0) 0x240 9 =
      (0, 0, [0x0E, 0, 0, 0, 0, 0, 0, 0, 0x07]) := by decide +kernel

/-- EA9: the same x, neither equal nor opposite. -/
theorem test_ecAdd_EA9 :
    outcome (.ecAdd 0x200 0x200 0x210 t5) (t5Block 0x08 0x17 0x08 0x01 0) 0x200 1 = (4, 0, [0x08]) := by decide +kernel

/-- ED5: coordinates of a degree above the modulus's. -/
theorem test_ecDbl_ED5 :
    outcome (.ecDbl 0x240 0x200 t5) (t5Block 0x28 0x17 0 0 0) 0x240 9 =
      (0, 0, [0x34, 0, 0, 0, 0, 0, 0, 0, 0x3A]) := by decide +kernel

/-- ED3: the point of order 2. -/
theorem test_ecDbl_ED3 :
    outcome (.ecDbl 0x200 0x200 t5) (t5Block 0 0x01 0 0 0) 0x208 1 = (4, 0, [0x01]) := by decide +kernel

/-- EM1: 3G. -/
theorem test_ecMul_EM1 :
    outcome (.ecMul 0x240 0x200 0x220 t5) (t5Block 0x08 0x17 0 0 3) 0x240 9 =
      (0, 0, [0x0E, 0, 0, 0, 0, 0, 0, 0, 0x07]) := by decide +kernel

/-- EM11: the scalar is the x byte of the point, and the result goes over both. -/
theorem test_ecMul_EM11 :
    outcome (.ecMul 0x200 0x200 0x200 t5) (t5Block 0x03 0 0 0 0) 0x200 9 =
      (0, 0, [0x1A, 0, 0, 0, 0, 0, 0, 0, 0x1C]) := by decide +kernel

/-- EO1: G is on the curve. -/
theorem test_ecOncurve_EO1 : outcome (.ecOncurve 0x200 t5) (t5Block 0x08 0x17 0 0 0) 0 0 = (0, 1, []) := by
  decide +kernel

/-- EO3: a flipped bit. -/
theorem test_ecOncurve_EO3 : outcome (.ecOncurve 0x200 t5) (t5Block 0x08 0x16 0 0 0) 0 0 = (0, 0, []) := by
  decide +kernel

/-- HG2: 7G. -/
theorem test_ecdhGenpub_HG2 :
    outcome (.ecdhGenpub 0x240 0x220 t5) (t5Block 0 0 0 0 7) 0x240 9 =
      (0, 0, [0x1E, 0, 0, 0, 0, 0, 0, 0, 0x0B]) := by decide +kernel

/-- HG6: CURVE_M is not the degree of the modulus. -/
theorem test_ecdhGenpub_HG6 :
    outcome (.ecdhGenpub 0x220 0x220 ⟨0, 1, 4⟩) (t5Block 0 0 0 0 3) 0x220 1 = (3, 0, [0x03]) := by decide +kernel

/-- HV7: 7G is accepted. -/
theorem test_ecdhValidate_HV7 : outcome (.ecdhValidate 0x200 t5) (t5Block 0x1E 0x0B 0 0 0) 0 0 = (0, 1, []) := by
  decide +kernel

/-- HV5: the point of order 2 is rejected, without an error. -/
theorem test_ecdhValidate_HV5 : outcome (.ecdhValidate 0x200 t5) (t5Block 0 0x01 0 0 0) 0 0 = (0, 0, []) := by
  decide +kernel

/-- HS8: the secret goes over the key. -/
theorem test_ecdhShared_HS8 :
    outcome (.ecdhShared 0x220 0x220 0x200 t5) (t5Block 0x1E 0x0B 0 0 3) 0x220 1 = (0, 0, [0x08]) := by decide +kernel

/-- HS10: the peer's region is out of range. -/
theorem test_ecdhShared_HS10 :
    outcome (.ecdhShared 0x220 0x220 0xFF8 t5) (t5Block 0 0 0 0 3) 0x220 1 = (2, 0, [0x03]) := by decide +kernel

/-! ### The host port and the step -/

/-- 10_state R22, R23, R36: CAPS and OPMEM_SIZE of the conformance build, PT_YOFF and PT_LEN for FSB = 30. -/
theorem test_constants :
    (State.reset.busRead 0x000).1 = 0x28 ∧ (State.reset.busRead 0x004).1 = 0x1000 ∧
    ((State.reset.busWrite 0x034 30).busRead 0x03C).1 = 32 ∧ ((State.reset.busWrite 0x034 30).busRead 0x040).1 = 62 := by
  decide

/-- 20_memory R61: the byte order of the OPMEM window. -/
theorem test_opmem_byte_order :
    let s := State.reset.busWrite 0x1004 0x11223344
    s.byte 4 = 0x44 ∧ s.byte 7 = 0x11 ∧ (s.busRead 0x1004).1 = 0x11223344 := by decide +kernel

/-- 20_memory R71, R72: the edges of the map. -/
theorem test_edges_of_the_map :
    targetOf .conformance 0x040 = .reg .ptLen ∧ targetOf .conformance 0x02C = .unmapped ∧
    targetOf .conformance 0x044 = .unmapped ∧ targetOf .conformance 0x0FFC = .unmapped ∧
    targetOf .conformance 0x1000 = .opmem 0 ∧ targetOf .conformance 0x1FFC = .opmem 4092 ∧
    targetOf .conformance 0x2000 = .unmapped ∧ targetOf .conformance 0x1001 = .misaligned := by decide

/-- 95_test_vectors P4: `RD 0x0006` and `WR 0x002C, 0x1` beside `WR MEM+0x010` and `RD STATUS`, with their encodings. -/
theorem test_asm_targets :
    asmRd (.addr 0x0006) = .read 0x0006 ∧ asmWr (.addr 0x002C) 1 = .write 0x002C 1 ∧
    asmWr (.mem 0x010) 0xA5A5A5A5 = .write 0x1010 0xA5A5A5A5 ∧ asmRd (.reg .status) = .read 0x000C := by decide

/-- 10_state R25: START while BUSY raises ACCERR and leaves the command in flight. -/
theorem test_start_while_busy :
    let s := { State.reset with engine := .busy (words 1) }.busWrite 0x008 3
    s.accErr = true ∧ s.irqEn = true ∧ s.engine = .busy (words 1) := by decide

/-- 30_encoding R96: a reserved OPCODE completes with BADOP; the STATUS read after it is 0x102 (95_test_vectors). -/
theorem test_badop :
    (after (step { State.reset with engine := .busy (bareCommand 0x14) })).statusWord = 0x102 := by decide +kernel

/-- The instruction placed by `withFetchWord` is the one the next step runs: GF_DEG with length 0 is RANGE (FD6). -/
theorem test_withFetchWord :
    (after (step (State.reset.withFetchWord 32 0x01))).statusWord = 0x202 := by decide +kernel

/-- 10_state R24, R43: START with IRQ_EN, and the completion raises the interrupt. -/
theorem test_interrupt :
    (State.reset.busWrite 0x008 3).irq = false ∧ (after (step (State.reset.busWrite 0x008 3))).irq = true := by
  decide +kernel

/-! ### Witnesses: for each statement with hypotheses, states and operands that meet them, clause by clause -/

/-- A command in flight with nothing on the agenda. -/
def inFlight (c : Command) : State := { State.reset with engine := .busy c }

/-- GF_MUL of the byte at 0 with itself, in place (FM7). -/
def squareWords : Command := { bareCommand 0x02 with len := 1 }

/-- FM7 in flight. -/
def squaring : State := { block [(0, 0x13), (1, 0)] with engine := .busy squareWords }

/-! #### Encoding -/

/-- Meets DecodeInvertsEncode in each family, with every operand at its largest value. -/
theorem test_witness_wellFormed :
    (Instr.gfMul top top top top).wellFormed = true ∧ (Instr.ecAdd top top top ⟨top, top, top⟩).wellFormed = true ∧
    (Instr.ecdhShared top top top ⟨top, top, top⟩).wellFormed = true := by decide

/-- Meets both clauses of CommandWordsAreTwelveOrBadop at their edges, the clauses of BlankColumnsHaveNoEffect, and the
first clause of every command's statement: each of the twelve words, and words that are none of them. -/
theorem test_witness_commandWords :
    (∀ w ∈ commandWords, (words w).cmd = w) ∧ (words 0x01).cmd ∈ commandWords ∧ (words 0x22).cmd ∈ commandWords ∧
    (words 0x00).cmd ∉ commandWords ∧ (words 0x06).cmd ∉ commandWords ∧ (words 0x23).cmd ∉ commandWords ∧
    (words 0x101).cmd ∉ commandWords ∧ (words 0xFFFFFFFF).cmd ∉ commandWords := by
  simp [words, commandWords]

/-- Meets DecodedCommandsReencode with words that are not `encode` of their command: blank columns hold values. -/
theorem test_witness_reencode :
    decode (words 0x21) = .ok (.ecdhValidate 0xA1 wordsCurve) ∧ encode (.ecdhValidate 0xA1 wordsCurve) ≠ words 0x21 :=
  ⟨rfl, by decide +kernel⟩

/-! #### Step and engine -/

/-- Meets StepRunsTheDecodedCommand, with an empty agenda and with the engine's turn. -/
theorem test_witness_stepRuns :
    squaring.engine = .busy squareWords ∧ decode squareWords = .ok (.gfMul 0 0 0 1) ∧ squaring.agenda = [] ∧
    ∃ rest, ({ squaring with agenda := [.engine, .reset] } : State).agenda = .engine :: rest :=
  ⟨rfl, rfl, rfl, _, rfl⟩

/-- Meets each clause of StepTakesTheFirstEvent. -/
theorem test_witness_stepTakes :
    (∃ rest, ({ State.reset with agenda := [.bus (.read 0x00C)] } : State).agenda = .bus (.read 0x00C) :: rest) ∧
    (∃ rest, ({ State.reset with agenda := [.bus (.write 0x008 1)] } : State).agenda = .bus (.write 0x008 1) :: rest) ∧
    (∃ rest, ({ squaring with agenda := [.reset] } : State).agenda = .reset :: rest) ∧
    (∃ rest, ({ State.reset with agenda := [.engine] } : State).agenda = .engine :: rest ∧
      State.reset.engine = .idle) ∧ State.reset.agenda = [] :=
  ⟨⟨_, rfl⟩, ⟨_, rfl⟩, ⟨_, rfl⟩, ⟨_, rfl, rfl⟩, rfl⟩

/-- Meets CommandInFlightCompletes, with no input left and with a START and a poll before the engine's turn. -/
theorem test_witness_completes :
    squaring.engine = .busy squareWords ∧ .reset ∉ squaring.agenda ∧
    .reset ∉ ({ squaring with
      agenda := [.bus (.write 0x008 1), .bus (.read 0x00C), .engine, .bus (.write 0x010 5)] } : State).agenda :=
  ⟨rfl, by decide, by decide⟩

/-- Meets each clause of CtrlWriteStartsOrRefuses and the CTRL clauses of InterruptLevel. -/
theorem test_witness_ctrlWrite :
    (2 : Word).getLsbD 0 = false ∧ ((1 : Word).getLsbD 0 = true ∧ State.reset.engine = .idle) ∧
    ((3 : Word).getLsbD 0 = true ∧ squaring.engine = .busy squareWords) := by decide

/-- Meets IssuedCommandHasItsMeaning for a field command, for a command with curve operands, and with the largest
operands. -/
theorem test_witness_issued :
    ((Instr.gfMul 0 0 0 1).wellFormed = true ∧ State.reset.engine = .idle ∧ CurveRegsHold State.reset (.gfMul 0 0 0 1)) ∧
    ((Instr.ecDbl 0x240 0x200 t5).wellFormed = true ∧
      CurveRegsHold { State.reset with regs := { Command.zero with curveFsb := 1, curveM := 5 } }
        (.ecDbl 0x240 0x200 t5)) ∧
    ((Instr.gfShl top top top top).wellFormed = true ∧ CurveRegsHold State.reset (.gfShl top top top top)) :=
  ⟨⟨by decide, rfl, trivial⟩, ⟨by decide, rfl⟩, by decide, trivial⟩

/-- Meets WrfeStoresTheElement: an element that ends at the last OPMEM byte, one of a length that is no multiple of 4, and
the empty one. -/
theorem test_witness_wrfe :
    State.reset.cfg.Legal ∧ State.reset.engine = .idle ∧
    (4084 % 4 = 0 ∧ Fits State.reset 4084 (4 * ((12 + 3) / 4)) ∧ 2 ^ 96 - 1 < 2 ^ (8 * 12)) ∧
    (0 % 4 = 0 ∧ Fits State.reset 0 (4 * ((21 + 3) / 4)) ∧ 2 ^ 168 - 1 < 2 ^ (8 * 21)) ∧
    (4096 % 4 = 0 ∧ Fits State.reset 4096 (4 * ((0 + 3) / 4)) ∧ 0 < 2 ^ (8 * 0)) := by
  unfold Fits
  decide

/-! #### Host port -/

/-- Meets StatusAndCtrlBits: the edges of the reserved ranges. -/
theorem test_witness_reservedBits :
    ((3 ≤ 3 ∧ 3 < 8) ∨ 12 ≤ 3) ∧ ((3 ≤ 7 ∧ 7 < 8) ∨ 12 ≤ 7) ∧ ((3 ≤ 12 ∧ 12 < 8) ∨ 12 ≤ 12) ∧ 0 ≠ 1 ∧ 2 ≠ 1 := by decide

/-- Meets RegisterWriteMissesTheCommandInFlight at the first and the last RW register, while IDLE and while BUSY. -/
theorem test_witness_registerWrite :
    Reg.cmd ∈ rwRegs ∧ Reg.curveM ∈ rwRegs ∧ State.reset.engine = .idle ∧ squaring.engine = .busy squareWords ∧
    Reg.curveFsb ≠ Reg.curveM ∧ Reg.curveFsb ≠ Reg.ptYoff ∧ Reg.curveFsb ≠ Reg.ptLen := by decide

/-- Meets ReadOnlyWritesAreIgnored at its first and its last address. -/
theorem test_witness_readOnly :
    (0x000 : Addr) ∈ [(0x000 : Addr), 0x004, 0x028, 0x03C, 0x040] ∧
    (0x040 : Addr) ∈ [(0x000 : Addr), 0x004, 0x028, 0x03C, 0x040] := by simp

/-- Meets each disjunct of MisalignedAndUnmappedAreRefused at the edges of its range. -/
theorem test_witness_refused :
    (0x001 : Addr).toNat % 4 ≠ 0 ∧ (0xFFFF : Addr).toNat % 4 ≠ 0 ∧ (0x02C : Addr).toNat = 0x02C ∧
    (0x044 ≤ (0x044 : Addr).toNat ∧ (0x044 : Addr).toNat < 0x1000) ∧
    (0x044 ≤ (0xFFC : Addr).toNat ∧ (0xFFC : Addr).toNat < 0x1000) ∧
    0x1000 + State.reset.cfg.opmemBytes ≤ (0x2000 : Addr).toNat ∧
    0x1000 + State.reset.cfg.opmemBytes ≤ (0xFFFC : Addr).toNat := by decide

/-- Meets OpmemWindowAccess, busy and idle, at the first and the last word, and both branches of
OpmemWordReadAfterWrite. -/
theorem test_witness_opmem :
    State.reset.cfg.Legal ∧ State.reset.engine = .idle ∧ squaring.cfg.Legal ∧ squaring.engine = .busy squareWords ∧
    (0 % 4 = 0 ∧ 0 < State.reset.cfg.opmemBytes) ∧ (4092 % 4 = 0 ∧ 4092 < State.reset.cfg.opmemBytes) := by decide

/-- Meets AccErrRisesAndFallsOnlySo: ACCERR rises on a misaligned, an unmapped, an OPMEM and a START transaction, and does
not rise on a poll. -/
theorem test_witness_accErr_rises :
    squaring.accErr = false ∧
    (∀ tr ∈ [Transaction.read 0x001, .write 0x02C 0, .read 0x1000, .write 0x1000 7, .write 0x008 1],
      (after (step { squaring with agenda := [.bus tr] })).accErr = true) ∧
    (after (step { squaring with agenda := [.bus (.read 0x00C)] })).accErr = false := by decide +kernel

/-- Meets AccErrRisesAndFallsOnlySo: ACCERR falls by a STATUS write with bit 2 and by a reset, and by no completion. -/
theorem test_witness_accErr_falls :
    ({ squaring with accErr := true } : State).accErr = true ∧
    (after (step { squaring with accErr := true, agenda := [.bus (.write 0x00C 4)] })).accErr = false ∧
    (after (step { squaring with accErr := true, agenda := [.reset] })).accErr = false ∧
    (after (step { squaring with accErr := true })).accErr = true := by decide +kernel

/-- Meets the clauses of InterruptLevel about completions, a BADOP completion included, and about a STATUS write;
test_witness_ctrlWrite meets those about a CTRL write, the refused START included. -/
theorem test_witness_interrupt :
    (∃ t, exec (.gfMul 0 0 0 1) squaring = .next t) ∧ (∃ t, runCommand (words 0x14) State.reset = .next t) ∧ (2 : Word).getLsbD 1 = true ∧ (4 : Word).getLsbD 1 = false :=
  ⟨⟨_, rfl⟩, ⟨_, rfl⟩, by decide⟩

/-! #### Reset and every state -/

/-- Meets ResetStateSatisfiesInvariant with the smallest and the largest legal build. -/
theorem test_witness_legal :
    ({ capBytes := 1, opmemBytes := 64 } : Config).Legal ∧ ({ capBytes := 255, opmemBytes := 61440 } : Config).Legal := by
  decide

/-- Meets ResetStepValues with a command in flight and a flag set. -/
theorem test_witness_reset :
    ∃ rest, ({ squaring with accErr := true, agenda := [.reset, .engine] } : State).agenda = .reset :: rest := ⟨_, rfl⟩

/-- Meets EveryStepKeepsTheInvariant and BuildConstantsNeverChange with a command in flight that completes. -/
theorem test_witness_invariant_busy : Inv squaring ∧ ∃ t, step squaring = .next t :=
  ⟨⟨by decide, by decide, by decide, by decide, by decide, by decide⟩, _, rfl⟩

/-- Meets EveryStepKeepsTheInvariant after an error, with a START to come. -/
theorem test_witness_invariant_error :
    let s := { State.reset with errCode := 4, done := true, agenda := [.bus (.write 0x008 1)] }
    Inv s ∧ ∃ t, step s = .next t :=
  ⟨⟨by decide, by decide, by decide, by decide, by decide, by decide⟩, _, rfl⟩

/-- Meets OpmemBytesChangeOnlySo: a byte changes by an accepted write and by a completion. -/
theorem test_witness_byteChanges :
    (after (step { block [(0, 0x13)] with agenda := [.bus (.write 0x1000 7)] })).byte 0 ≠ (block [(0, 0x13)]).byte 0 ∧
    (after (step squaring)).byte 1 ≠ squaring.byte 1 := by decide +kernel

/-- Meets OpmemBytesChangeOnlySo: a byte changes by a reset, whatever the free values are. -/
theorem test_witness_byteChanges_reset :
    (after (step { block [(0, Config.freeByte 1 0 + 1)] with agenda := [.reset] })).byte 0 ≠
      (block [(0, Config.freeByte 1 0 + 1)]).byte 0 := by
  change Config.freeByte 1 0 ≠ Config.freeByte 1 0 + 1
  exact (by decide +kernel : ∀ b : Byte, b ≠ b + 1) _

/-- Meets ErrorCompletionIsPrecise and the clauses of ErrorCodesOfEachCommand: a PARAM, a NOINV, and a RANGE. -/
theorem test_witness_errorCompletion :
    (after (exec (.gfRed 0 0 1 1) (block [(0, 0)]))).errCode = 3 ∧
    (after (exec (.gfInv 0 0 1 1) (block [(0, 0), (1, 2)]))).errCode = 4 ∧
    (after (exec (.gfDeg 0 0) State.reset)).errCode = 2 ∧ (3 : BitVec 4) ≠ 0 := by decide +kernel

/-- Meets CommandsReadOnlyTheirSources: two states that differ in the cofactor slot, in a slot's byte past FSB and in the
padding of the point, and in no byte that EC_DBL reads. -/
theorem test_witness_sources :
    let s := t5Block 0x08 0x17 0 0 0
    let s' := block (t5Record ++ [(0xF0, 2), (0x200, 0x08), (0x201, 0xCC), (0x208, 0x17), (0x210, 0), (0x218, 0), (0x220, 0)])
    s'.cfg = s.cfg ∧ (∀ x, ReadsByte s (.ecDbl 0x240 0x200 t5) x → s'.byte x = s.byte x) ∧
    (∃ t, exec (.ecDbl 0x240 0x200 t5) s = .next t) ∧ ∃ t, exec (.ecDbl 0x240 0x200 t5) s' = .next t := by
  refine ⟨rfl, ?_, ⟨_, rfl⟩, _, rfl⟩
  intro x hx
  have hx : x = 0 ∨ x = 0x28 ∨ x = 0x50 ∨ x = 0x78 ∨ x = 0xA0 ∨ x = 0xC8 ∨ x = 0x200 ∨ x = 0x208 := by
    simp only [ReadsByte, InRecord, InPoint, InRegion, t5, block, t5Block, State.reset, State.afterReset,
      Config.conformance, roundUp8] at hx
    rcases hx with ⟨k, hk, h1, h2⟩ | hx
    · interval_cases k <;> omega
    · omega
  rcases hx with rfl | rfl | rfl | rfl | rfl | rfl | rfl | rfl <;> rfl

/-! #### Field units -/

/-- A check that suffices for `gcd(a, f) = 1`: no polynomial short enough to divide `a` has degree 1 or more and divides
both. -/
def coprimeCheck (a f : Nat) : Bool :=
  a != 0 && f != 0 &&
    (List.range (2 ^ bitLen a)).all fun d => decide (deg d < 1) || !(dividesBy d a && dividesBy d f)

theorem polyCoprime_of_check {a f : Nat} (h : coprimeCheck a f = true) : PolyCoprime a f := by
  simp only [coprimeCheck, Bool.and_eq_true, bne_iff_ne, List.all_eq_true, List.mem_range, Bool.or_eq_true,
    decide_eq_true_eq, Bool.not_eq_true'] at h
  obtain ⟨⟨ha, hf⟩, h⟩ := h
  rintro d ⟨q, hq⟩ ⟨q', hq'⟩
  rcases h d (factor_lt ha hq).2 with h | h
  · exact h
  · rw [dividesBy_of_eq ha hq, dividesBy_of_eq hf hq'] at h
    cases h

/-- Meets DegreeIsTheHighestSetBit at its lower edge. -/
theorem test_witness_degree : (1 : Nat) ≠ 0 := by decide

/-- Meets CarrylessProductBits with the largest one-byte factors, where the bound is reached (FM2). -/
theorem test_witness_clmul : 1 ≤ 1 ∧ 255 < 2 ^ (8 * 1) ∧ deg (clmul 255 255) = 14 := by decide +kernel

/-- Meets FieldArithmeticLaws and RemainderIsUnique: `f = 1`, and FR1, where the quotient is 0x0C and the rest 0x07. -/
theorem test_witness_pmod :
    (1 : Nat) ≠ 0 ∧ (0x25 : Nat) ≠ 0 ∧ deg 0x07 < deg 0x25 ∧ 0x1BB = clmul 0x0C 0x25 ^^^ 0x07 ∧ deg 0x13 < deg 0x25 := by
  decide +kernel

/-- Meets ShiftKeepsTheLowCoefficients at its edge (FS3). -/
theorem test_witness_shl : 8 ≤ 8 := by decide

/-- Meets InverseOfACoprimeElement: FI1, FI2 (a source of a degree above the modulus's), and a modulus of degree 1. -/
theorem test_witness_inverse :
    (1 ≤ deg 0x25 ∧ PolyCoprime 0x13 0x25) ∧ PolyCoprime 0x38 0x25 ∧ (1 ≤ deg 2 ∧ PolyCoprime 1 2) :=
  ⟨⟨by decide, polyCoprime_of_check (by decide +kernel)⟩, polyCoprime_of_check (by decide +kernel),
    by decide, polyCoprime_of_check (by decide +kernel)⟩

/-- `x + 1` divides `x + 1` and `x² + 1` (FI7). -/
theorem not_coprime_FI7 : ¬PolyCoprime 3 5 := fun h =>
  absurd (h 3 ⟨1, by decide +kernel⟩ ⟨3, by decide +kernel⟩) (by decide)

/-- A modulus of degree 1 or more divides the zero polynomial and itself. -/
theorem not_coprime_zero {f : Nat} (hf : clmul 1 f = f) (h1 : 1 ≤ deg f) : ¬PolyCoprime 0 f := fun h =>
  absurd (h f ⟨0, by simp⟩ ⟨1, hf.symm⟩) (by omega)

/-- Meets NoInverseExactlyWhenNotCoprime: FI7, and FI5, where `a` is the modulus. -/
theorem test_witness_noinv : 1 ≤ deg 5 ∧ ¬PolyCoprime 3 5 ∧ pmod 0x25 0x25 = 0 :=
  ⟨by decide, not_coprime_FI7, by decide +kernel⟩

/-! #### Field commands -/

/-- Meets each clause of GfDegCommand: the longest source, which ends at the last byte; a length and a region one too
long. -/
theorem test_witness_gfDeg :
    let s := State.reset
    ((1 ≤ 80 ∧ 80 ≤ 2 * s.cfg.capBytes) ∧ Fits s 4016 80) ∧
    ¬((1 ≤ 81 ∧ 81 ≤ 2 * s.cfg.capBytes) ∧ Fits s 0 81) ∧ ¬((1 ≤ 80 ∧ 80 ≤ 2 * s.cfg.capBytes) ∧ Fits s 4017 80) := by
  unfold Fits
  decide

/-- Meets each clause of GfMulCommand: the longest factors; a zero length; a product one byte past the end. -/
theorem test_witness_gfMul :
    let s := State.reset
    ((1 ≤ 40 ∧ 40 ≤ s.cfg.capBytes) ∧ Fits s 4056 40 ∧ Fits s 0 40 ∧ Fits s 4016 (2 * 40)) ∧
    ¬((1 ≤ 0 ∧ 0 ≤ s.cfg.capBytes) ∧ Fits s 0 0 ∧ Fits s 0 0 ∧ Fits s 0 (2 * 0)) ∧
    ¬((1 ≤ 40 ∧ 40 ≤ s.cfg.capBytes) ∧ Fits s 0 40 ∧ Fits s 0 40 ∧ Fits s 4017 (2 * 40)) := by
  unfold Fits
  decide

/-- Meets each clause of GfRedCommand: FR1, FR8 (a zero modulus), and a modulus length one too long. -/
theorem test_witness_gfRed :
    let s := block [(0x100, 0x25), (0x101, 0)]
    ((1 ≤ 80 ∧ 80 ≤ 2 * s.cfg.capBytes) ∧ (1 ≤ 1 ∧ 1 ≤ s.cfg.capBytes) ∧ Fits s 0x200 80 ∧ Fits s 0x100 1) ∧
    s.fe 0x100 1 ≠ 0 ∧ s.fe 0x101 1 = 0 ∧
    ¬((1 ≤ 2 ∧ 2 ≤ 2 * s.cfg.capBytes) ∧ (1 ≤ 41 ∧ 41 ≤ s.cfg.capBytes) ∧ Fits s 0x200 2 ∧ Fits s 0x100 41) := by
  unfold Fits
  decide +kernel

/-- Meets each clause of GfShlCommand: the longest operands, and FS11. -/
theorem test_witness_gfShl :
    let s := State.reset
    ((1 ≤ 80 ∧ 80 ≤ 2 * s.cfg.capBytes) ∧ Fits s 4016 80 ∧ Fits s 0 80) ∧
    ¬((1 ≤ 2 ∧ 2 ≤ 2 * s.cfg.capBytes) ∧ Fits s 0 2 ∧ Fits s 0xFFF 2) := by
  unfold Fits
  decide

/-- Meets each clause of GfInvCommand: FI1, FI7, FI8 (a modulus of degree 0), and FI11. -/
theorem test_witness_gfInv :
    let s := block [(0, 0x13), (1, 0x03), (2, 0x01), (3, 0x05), (4, 0x25)]
    ((1 ≤ 1 ∧ 1 ≤ s.cfg.capBytes) ∧ Fits s 0 1 ∧ Fits s 4 1 ∧ Fits s 0xFFF 1) ∧
    (1 ≤ deg (s.fe 4 1) ∧ PolyCoprime (s.fe 0 1) (s.fe 4 1)) ∧
    (1 ≤ deg (s.fe 3 1) ∧ ¬PolyCoprime (s.fe 1 1) (s.fe 3 1)) ∧ deg (s.fe 2 1) < 1 ∧
    ¬((1 ≤ 41 ∧ 41 ≤ s.cfg.capBytes) ∧ Fits s 0 41 ∧ Fits s 4 41 ∧ Fits s 0 41) := by
  refine ⟨?_, ⟨by decide +kernel, polyCoprime_of_check (by decide +kernel)⟩,
    ⟨by decide +kernel, not_coprime_FI7⟩, by decide +kernel, ?_⟩
  · unfold Fits; decide
  · unfold Fits; decide

/-! #### Point units -/

/-- T5's parameters (95_test_vectors section 2.1). -/
def t5Curve : Curve := { a := 1, b := 1, base := ⟨0x08, 0x17⟩, f := 0x25, order := 0x0B }

/-- Meets the last clause of PointAdditionSpecialCases at its lower edge. -/
theorem test_witness_negative : (⟨1, 0⟩ : Point).x ≠ 0 := by decide

/-- T5 with the reducible modulus `x² + 1` in its place. -/
def reducibleCurve : Curve := { t5Curve with f := 5 }

/-- Meets both clauses of PointAdditionFollowsTheChord: EA1, EA9 (equal x), and two unequal x whose sum `x + 1` divides a
reducible modulus. -/
theorem test_witness_chord :
    (1 ≤ deg t5Curve.f ∧ (⟨0x08, 0x17⟩ : Point).isInf = false ∧ (⟨0x13, 0x0F⟩ : Point).isInf = false ∧
      PolyCoprime (0x08 ^^^ 0x13) t5Curve.f) ∧
    ((⟨0x08, 0x01⟩ : Point).isInf = false ∧ ¬PolyCoprime (0x08 ^^^ 0x08) t5Curve.f ∧
      (⟨0x08, 0x17⟩ : Point) ≠ ⟨0x08, 0x01⟩ ∧ ¬((0x08 : Nat) = 0x08 ∧ (0x01 : Nat) = 0x08 ^^^ 0x17)) ∧
    (1 ≤ deg reducibleCurve.f ∧ (⟨1, 0⟩ : Point).isInf = false ∧ (⟨2, 0⟩ : Point).isInf = false ∧
      ¬PolyCoprime (1 ^^^ 2) reducibleCurve.f ∧ (⟨1, 0⟩ : Point) ≠ ⟨2, 0⟩ ∧ ¬((1 : Nat) = 2 ∧ (0 : Nat) = 1 ^^^ 0)) :=
  ⟨⟨by decide, by decide, by decide, polyCoprime_of_check (by decide +kernel)⟩,
    ⟨by decide, not_coprime_zero (by decide +kernel) (by decide), by decide, by decide⟩,
    by decide, by decide, by decide, not_coprime_FI7, by decide, by decide⟩

/-- Meets both clauses of PointDoublingFollowsTheTangent: ED1, ED5 (x of a degree above the modulus's), ED3 (x = 0), and an
x ≠ 0 that divides a reducible modulus. -/
theorem test_witness_tangent :
    (1 ≤ deg t5Curve.f ∧ PolyCoprime 0x08 t5Curve.f ∧ PolyCoprime 0x28 t5Curve.f) ∧
    (¬PolyCoprime 0 t5Curve.f ∧ (⟨0, 1⟩ : Point).isInf = false) ∧
    (1 ≤ deg reducibleCurve.f ∧ ¬PolyCoprime 3 reducibleCurve.f ∧ (⟨3, 0⟩ : Point).isInf = false) :=
  ⟨⟨by decide, polyCoprime_of_check (by decide +kernel), polyCoprime_of_check (by decide +kernel)⟩,
    ⟨not_coprime_zero (by decide +kernel) (by decide), by decide⟩, by decide, not_coprime_FI7, by decide⟩

/-- Meets PointAdditionCommutes with canonical y coordinates at the largest degree. -/
theorem test_witness_commutes : 1 ≤ deg t5Curve.f ∧ deg 0x17 < deg t5Curve.f ∧ deg 0x1F < deg t5Curve.f := by decide

/-- Meets PointSumsStayOnTheCurve: G, 2G and their sum 3G are on T5, and 2G is the double of G. -/
theorem test_witness_onCurve :
    1 ≤ deg t5Curve.f ∧ onCurve t5Curve ⟨0x08, 0x17⟩ = true ∧ onCurve t5Curve ⟨0x13, 0x0F⟩ = true ∧
    (ecPlus t5Curve ⟨0x08, 0x17⟩ ⟨0x13, 0x0F⟩).toOption = some ⟨0x0E, 0x07⟩ ∧
    (ecDouble t5Curve ⟨0x08, 0x17⟩).toOption = some ⟨0x13, 0x0F⟩ := by decide +kernel

/-- Meets ScalarMultiplicationIsDoubleAndAdd at its lower edge. -/
theorem test_witness_scalar : 1 ≤ 1 := by decide

/-- Meets CoordinatesFitTheirSlots with one-byte coordinates: a sum, a double of the largest coordinates, a multiple. -/
theorem test_witness_slots :
    1 ≤ deg t5Curve.f ∧ deg t5Curve.f < (8 : Nat) ∧ deg t5Curve.a < (8 : Nat) ∧ deg 0xFF < (8 : Nat) ∧
    (ecPlus t5Curve ⟨0x08, 0x17⟩ ⟨0x13, 0x0F⟩).toOption.isSome ∧ (ecDouble t5Curve ⟨0xFF, 0xFF⟩).toOption.isSome ∧
    (ecTimes t5Curve ⟨0x08, 0x17⟩ 0xFF).toOption.isSome := by decide +kernel

/-! #### Point and ECDH commands -/

/-- Meets the first clause of CurveChecks, for every command of both families: EC1, EC2, EC3, EC4 and EC5. -/
theorem test_witness_curveRegs_inconsistent :
    ∀ crv ∈ [(⟨0, 0, 5⟩ : CurveRegs), ⟨0, 2, 5⟩, ⟨0, 0x29, 0x141⟩, ⟨0, 1, 0⟩, ⟨0, 1, 8⟩],
      ¬CurveRegsConsistent State.reset crv := by
  unfold CurveRegsConsistent
  decide

/-- Commands of both families, with every operand at 0x200 and given curve registers. -/
def curveCommands (crv : CurveRegs) : List Instr :=
  [.ecAdd 0x200 0x200 0x200 crv, .ecDbl 0x200 0x200 crv, .ecMul 0x200 0x200 0x200 crv, .ecOncurve 0x200 crv,
   .ecdhGenpub 0x200 0x200 crv, .ecdhValidate 0x200 crv, .ecdhShared 0x200 0x200 0x200 crv]

/-- The same commands with one operand region that ends one byte past OPMEM (the 9 bytes of a point from 0xFF8 on). -/
def curveCommandsPastTheEnd (crv : CurveRegs) : List Instr :=
  [.ecAdd 0xFF8 0x200 0x200 crv, .ecDbl 0xFF8 0x200 crv, .ecMul 0x200 0x200 0x1000 crv, .ecOncurve 0xFF8 crv,
   .ecdhGenpub 0xFF8 0x200 crv, .ecdhValidate 0xFF8 crv, .ecdhShared 0x1000 0x200 0x200 crv]

/-- Meets the second clause of CurveChecks: a record one byte past the end (EC10), and for every command an operand region
one byte past the end. -/
theorem test_witness_curve_range :
    CurveRegsConsistent State.reset ⟨0xEE9, 1, 5⟩ ∧ ¬Fits State.reset 0xEE9 (7 * State.reset.cfg.capBytes) ∧
    CurveRegsConsistent State.reset t5 ∧ ∀ i ∈ curveCommandsPastTheEnd t5, ¬RegionsFit State.reset i := by
  unfold CurveRegsConsistent Fits RegionsFit Fits
  decide

/-- Meets the third clause of CurveChecks for every command: M = 7 passes the geometry, but T5's modulus has degree 5
(EC6). -/
theorem test_witness_curve_degree :
    let s := t5Block 0x08 0x17 0 0 0
    CurveRegsConsistent s ⟨0, 1, 7⟩ ∧ Fits s 0 (7 * s.cfg.capBytes) ∧
    (∀ i ∈ curveCommands ⟨0, 1, 7⟩, RegionsFit s i) ∧ deg (s.curveRecord ⟨0, 1, 7⟩).f ≠ 7 := by
  unfold CurveRegsConsistent Fits RegionsFit Fits
  decide +kernel

/-- Every check passes for every command of both families on T5. -/
theorem test_witness_curve_runs (x y x' y' k : Byte) : ∀ i ∈ curveCommands t5, CurveRuns i t5 (t5Block x y x' y' k) := by
  have hready : CurveReady (t5Block x y x' y' k) t5 := by
    refine ⟨?_, ?_, ?_⟩
    · exact (by decide : (1 ≤ 1 ∧ 1 ≤ 40 ∧ 1 ≤ 5 ∧ 1 = 5 >>> 3 + 1))
    · exact (by decide : 0 + 7 * 40 ≤ 4096)
    · have hf : ((t5Block x y x' y' k).curveRecord t5).f = 0x25 := rfl
      rw [hf]
      decide
  have hfit : ∀ i ∈ curveCommands t5, ∀ g ∈ regionsOf i, g.1 + g.2 ≤ 4096 := by decide
  exact fun i hi => ⟨hready, hfit i hi⟩

/-- Every check passes when the record ends at the last OPMEM byte (EC9), whatever command runs. -/
theorem test_witness_curve_runs_last_base :
    CurveRegsConsistent State.reset ⟨0xEE8, 1, 5⟩ ∧ Fits State.reset 0xEE8 (7 * State.reset.cfg.capBytes) := by
  unfold CurveRegsConsistent Fits
  decide

/-- Meets the computing clauses of EcAddCommand, EcDblCommand, EcMulCommand, EcdhGenpubCommand and EcdhSharedCommand
(test_witness_curve_runs gives their CurveRuns): EA1, ED1, EM1, HG1, HS1 answer, and EA7, ED3, EM7, HS4 raise NOINV. -/
theorem test_witness_point_results :
    let c := (t5Block 0x08 0x17 0x13 0x0F 3).curveRecord t5
    (ecPlus c ⟨0x08, 0x17⟩ ⟨0x13, 0x0F⟩).toOption = some ⟨0x0E, 0x07⟩ ∧
    (ecDouble c ⟨0x08, 0x17⟩).toOption = some ⟨0x13, 0x0F⟩ ∧
    (ecTimes c c.base 3).toOption = some ⟨0x0E, 0x07⟩ ∧ (ecTimes c ⟨0x1E, 0x0B⟩ 3).toOption = some ⟨0x08, 0x1F⟩ ∧
    (ecPlus c ⟨0, 1⟩ ⟨0, 1⟩).toOption = none ∧ (ecDouble c ⟨0, 1⟩).toOption = none ∧
    (ecTimes c ⟨0, 1⟩ 2).toOption = none ∧ (ecTimes c ⟨0, 1⟩ 3).toOption = none := by decide +kernel

/-- Meets the NOINV clause of EcdhGenpubCommand: a record whose base point is T, with the private key 2. -/
theorem test_witness_genpub_noinv :
    let s := block [(0x00, 1), (0x28, 1), (0x50, 0), (0x78, 1), (0xA0, 0x25), (0xC8, 0x0B), (0x220, 2)]
    deg (s.curveRecord t5).f = 5 ∧
    (ecTimes (s.curveRecord t5) (s.curveRecord t5).base (s.fe 0x220 1)).toOption = none := by decide +kernel

/-- Meets both clauses of EcOncurveCommand and of EcdhValidateCommand (test_witness_curve_runs gives their CurveRuns):
EO1 and EO4 against EO3; HV1 against HV3, HV4, HV5 and HV6. -/
theorem test_witness_point_answers :
    let c := (t5Block 0x08 0x17 0 0 0).curveRecord t5
    (onCurve c ⟨0x08, 0x17⟩ = true ∧ onCurve c ⟨0, 0⟩ = true ∧ onCurve c ⟨0x08, 0x16⟩ = false) ∧
    ((⟨0x08, 0x17⟩ : Point).isInf = false ∧ (ecTimes c ⟨0x08, 0x17⟩ c.order).toOption = some Point.infinity) ∧
    (⟨0, 0⟩ : Point).isInf = true ∧ (ecTimes c ⟨0, 1⟩ c.order).toOption = none ∧
    (ecTimes c ⟨0x06, 0x16⟩ c.order).toOption = some ⟨0, 1⟩ := by decide +kernel

end Sys2Proof.Tests
end

section
/-! SUPPORT. What a command's rule reads of the state, and what the registers of the host port do with a write: the rules
the statements about 10_state rest on. -/

namespace Sys2Proof.Machine

/-! ### What a command reads (10_state R41, 30_encoding R99) -/

/-- `t` shows a command's rule what `s` shows it: the same build and the same OPMEM bytes. -/
structure ReadsAlike (s t : State) : Prop where
  cfg : t.cfg = s.cfg
  bytes : SameBytes s t

section
variable {s t : State}

theorem ReadsAlike.fe (h : ReadsAlike s t) (a n : Nat) : t.fe a n = s.fe a n :=
  State.number_congr fun x _ _ => h.bytes x

theorem ReadsAlike.readScalar (h : ReadsAlike s t) (a fsb : Nat) : t.readScalar a fsb = s.readScalar a fsb :=
  h.fe a fsb

theorem ReadsAlike.readPoint (h : ReadsAlike s t) (fsb a : Nat) : t.readPoint fsb a = s.readPoint fsb a := by
  simp only [State.readPoint, h.fe]

theorem ReadsAlike.inRange (h : ReadsAlike s t) (a n : Nat) : t.inRange a n = s.inRange a n := by
  simp only [State.inRange, h.cfg]

theorem ReadsAlike.singleLen (h : ReadsAlike s t) (n : Nat) : t.singleLen n = s.singleLen n := by
  simp only [State.singleLen, h.cfg]

theorem ReadsAlike.doubleLen (h : ReadsAlike s t) (n : Nat) : t.doubleLen n = s.doubleLen n := by
  simp only [State.doubleLen, h.cfg]

theorem ReadsAlike.curveGeom (h : ReadsAlike s t) (crv : CurveRegs) : t.curveGeom crv = s.curveGeom crv := by
  simp only [State.curveGeom, h.inRange, h.cfg]

theorem ReadsAlike.curveRecord (h : ReadsAlike s t) (crv : CurveRegs) : t.curveRecord crv = s.curveRecord crv := by
  simp only [State.curveRecord, State.slot, h.fe, h.cfg]

theorem ReadsAlike.curveLoad (h : ReadsAlike s t) (crv : CurveRegs) : t.curveLoad crv = s.curveLoad crv := by
  simp only [State.curveLoad, h.curveRecord]

/-- A command's rule depends on the build and the OPMEM bytes alone: on no register, no flag and no input. -/
theorem ruleOf_congr (h : ReadsAlike s t) (i : Instr) : ruleOf i t = ruleOf i s := by
  cases i with
  | gfDeg => simp only [ruleOf, gfDegRule, h.doubleLen, h.inRange, h.fe]
  | gfMul => simp only [ruleOf, gfMulRule, h.singleLen, h.inRange, h.fe]
  | gfRed => simp only [ruleOf, gfRedRule, h.doubleLen, h.singleLen, h.inRange, h.fe]
  | gfShl => simp only [ruleOf, gfShlRule, h.doubleLen, h.inRange, h.fe]
  | gfInv => simp only [ruleOf, gfInvRule, h.singleLen, h.inRange, h.fe]
  | ecAdd => simp only [ruleOf, ecAddRule, h.curveGeom, h.inRange, h.curveLoad, h.readPoint]
  | ecDbl => simp only [ruleOf, ecDblRule, h.curveGeom, h.inRange, h.curveLoad, h.readPoint]
  | ecMul => simp only [ruleOf, ecMulRule, h.curveGeom, h.inRange, h.curveLoad, h.readPoint, h.readScalar]
  | ecOncurve => simp only [ruleOf, ecOncurveRule, h.curveGeom, h.inRange, h.curveLoad, h.readPoint]
  | ecdhGenpub => simp only [ruleOf, ecdhGenpubRule, h.curveGeom, h.inRange, h.curveLoad, h.readScalar]
  | ecdhValidate => simp only [ruleOf, ecdhValidateRule, h.curveGeom, h.inRange, h.curveLoad, h.readPoint]
  | ecdhShared =>
    simp only [ruleOf, ecdhSharedRule, h.curveGeom, h.inRange, h.curveLoad, h.readPoint, h.readScalar]

end

/-- The rule of nine words: the decoded command's, or BADOP (30_encoding R91, R96, R99). -/
def commandRule (c : Command) (s : State) : CmdOutcome :=
  match decode c with
  | .ok i => ruleOf i s
  | .error _ => .error .badop

/-- Any nine words complete with their rule's answer (10_state R42). -/
theorem runCommand_eq_complete (c : Command) (s : State) : runCommand c s = .next (s.complete (commandRule c s)) := by
  unfold runCommand commandRule
  cases decode c with
  | ok i => exact exec_eq_complete i s
  | error e => rfl

theorem commandRule_congr {s t : State} (h : ReadsAlike s t) (c : Command) :
    commandRule c t = commandRule c s := by
  unfold commandRule
  cases decode c with
  | ok i => exact ruleOf_congr h i
  | error e => rfl

/-! ### Writes of CTRL and STATUS (10_state R25, R27) -/

theorem State.busWrite_ctrl (s : State) (data : Word) : s.busWrite 0x008 data = s.ctrlWrite data :=
  s.busWrite_regOffset .ctrl data

theorem State.busWrite_status (s : State) (data : Word) : s.busWrite 0x00C data = s.statusWrite data :=
  s.busWrite_regOffset .status data

theorem State.requestStart_of_idle {s : State} (h : s.engine = .idle) : s.requestStart = s.start := by
  unfold State.requestStart
  rw [(State.busy_eq_false_iff s).2 h]
  rfl

theorem State.requestStart_of_busy {s : State} {c : Command} (h : s.engine = .busy c) :
    s.requestStart = s.setAccErr := by
  unfold State.requestStart
  rw [(State.busy_eq_true_iff s).2 ⟨c, h⟩]
  rfl

theorem State.ctrlWrite_of_noStart {data : Word} (h : data.getLsbD 0 = false) (s : State) :
    s.ctrlWrite data = s.setIrqEn (data.getLsbD 1) := by
  unfold State.ctrlWrite
  rw [h]
  rfl

theorem State.ctrlWrite_of_start {data : Word} (h : data.getLsbD 0 = true) (s : State) :
    s.ctrlWrite data = (s.setIrqEn (data.getLsbD 1)).requestStart := by
  unfold State.ctrlWrite
  rw [h]
  rfl

theorem State.ctrlWrite_of_start_idle {s : State} {data : Word} (h : data.getLsbD 0 = true) (hs : s.engine = .idle) :
    s.ctrlWrite data = (s.setIrqEn (data.getLsbD 1)).start := by
  rw [State.ctrlWrite_of_start h]
  exact State.requestStart_of_idle hs

theorem State.ctrlWrite_of_start_busy {s : State} {data : Word} {c : Command} (h : data.getLsbD 0 = true)
    (hs : s.engine = .busy c) : s.ctrlWrite data = (s.setIrqEn (data.getLsbD 1)).setAccErr := by
  rw [State.ctrlWrite_of_start h]
  exact State.requestStart_of_busy hs

/-- A CTRL write reads bits 0 and 1 of the data alone (10_state R37). -/
theorem State.ctrlWrite_congr {d d' : Word} (h0 : d.getLsbD 0 = d'.getLsbD 0) (h1 : d.getLsbD 1 = d'.getLsbD 1)
    (s : State) : s.ctrlWrite d = s.ctrlWrite d' := by
  unfold State.ctrlWrite
  rw [h0, h1]

/-- A STATUS write reads bits 1 and 2 of the data alone (10_state R37). -/
theorem State.statusWrite_congr {d d' : Word} (h1 : d.getLsbD 1 = d'.getLsbD 1) (h2 : d.getLsbD 2 = d'.getLsbD 2)
    (s : State) : s.statusWrite d = s.statusWrite d' := by
  unfold State.statusWrite
  rw [h1, h2]

/-! ### Writes of the read-only and of the RW registers (10_state R35, R37) -/

/-- The read-only registers (10_state R37). -/
def readOnlyRegs : List Reg := [.caps, .opmemSize, .result, .ptYoff, .ptLen]

theorem State.writeReg_of_readOnly {r : Reg} (hr : r ∈ readOnlyRegs) (s : State) (data : Word) :
    s.writeReg r data = s := by
  cases r
  case caps | opmemSize | result | ptYoff | ptLen => rfl
  all_goals simp [readOnlyRegs] at hr

/-- The frame of an RW register's write: the nine registers become a function of themselves, the rest stays
(10_state R35). -/
theorem State.writeReg_of_rw {r : Reg} (hr : r ∈ rwRegs) (data : Word) :
    ∃ f : Command → Command, ∀ s : State, s.writeReg r data = { s with regs := f s.regs } := by
  refine ⟨fun c => (State.writeReg { State.reset with regs := c } r data).regs, fun s => ?_⟩
  cases r
  case caps | opmemSize | ctrl | status | result | ptYoff | ptLen => simp [rwRegs] at hr
  all_goals rfl

theorem State.readReg_writeReg_same {r : Reg} (hr : r ∈ rwRegs) (s : State) (data : Word) :
    (s.writeReg r data).readReg r = data := by
  cases r
  case caps | opmemSize | ctrl | status | result | ptYoff | ptLen => simp [rwRegs] at hr
  all_goals rfl

/-- An RW register holds its value under a write of any other register of the map. -/
theorem State.readReg_writeReg_of_ne {r r' : Reg} (hr' : r' ∈ rwRegs) (hne : r' ≠ r) (s : State) (data : Word) :
    (s.writeReg r data).readReg r' = s.readReg r' := by
  cases r'
  case caps | opmemSize | ctrl | status | result | ptYoff | ptLen => simp [rwRegs] at hr'
  all_goals cases r <;> simp [State.writeReg, State.readReg] at hne ⊢

/-- Of the other registers, only PT_YOFF and PT_LEN can read differently after an RW register's write (10_state R35,
R36). -/
theorem State.readReg_writeReg_rw {r r' : Reg} (hr : r ∈ rwRegs) (hne : r' ≠ r) (hy : r' ≠ .ptYoff)
    (hl : r' ≠ .ptLen) (s : State) (data : Word) : (s.writeReg r data).readReg r' = s.readReg r' := by
  by_cases hr' : r' ∈ rwRegs
  · exact State.readReg_writeReg_of_ne hr' hne s data
  · obtain ⟨f, hf⟩ := State.writeReg_of_rw hr data
    rw [hf]
    cases r'
    case caps | opmemSize | ctrl | status | result => rfl
    case ptYoff | ptLen => contradiction
    all_goals simp [rwRegs] at hr'

/-- A completion and a write of an RW register commute (10_state R35, R42). -/
theorem State.complete_writeReg {r : Reg} (hr : r ∈ rwRegs) (s : State) (data : Word) (o : CmdOutcome) :
    (s.writeReg r data).complete o = (s.complete o).writeReg r data := by
  obtain ⟨f, hf⟩ := State.writeReg_of_rw hr data
  rw [hf, hf, State.complete_regs]
  cases o <;> rfl

/-- No register write changes what a command in flight reads (10_state R41). -/
theorem readsAlike_writeReg (s : State) (r : Reg) (data : Word) : ReadsAlike s (s.writeReg r data) where
  cfg := s.writeReg_cfg r data
  bytes := State.byte_congr (s.writeReg_opmem r data) (s.writeReg_draw r data)

/-- Running nine words after a write of an RW register is writing it after running them (10_state R35). -/
theorem runCommand_writeReg {r : Reg} (hr : r ∈ rwRegs) (c : Command) (s : State) (data : Word) :
    runCommand c (s.writeReg r data) = .next ((s.complete (commandRule c s)).writeReg r data) := by
  rw [runCommand_eq_complete, commandRule_congr (readsAlike_writeReg s r data), State.complete_writeReg hr]

end Sys2Proof.Machine
end

section
/-! The statements of 10_state: the host's register writes. -/

namespace Sys2Proof.Machine

/-- Settles O16: the write touches the registers alone, which neither the bytes nor the rule of the snapshot depend on. -/
theorem registerWriteMissesTheCommandInFlight : Obligations.RegisterWriteMissesTheCommandInFlight := by
  unfold Obligations.RegisterWriteMissesTheCommandInFlight
  intro s r data hr
  simp only [State.busWrite_regOffset]
  obtain ⟨f, hf⟩ := State.writeReg_of_rw hr data
  have hengine : (s.writeReg r data).engine = s.engine := by rw [hf]
  refine ⟨State.readReg_writeReg_same hr s data,
    fun r' hne hy hl => State.readReg_writeReg_rw hr hne hy hl s data,
    (readsAlike_writeReg s r data).bytes, hengine, fun c _ => ?_⟩
  exact ⟨s.complete (commandRule c s), runCommand_eq_complete c s, runCommand_writeReg hr c s data⟩

/-- Settles O10, by the bit START and the engine. -/
theorem ctrlWriteStartsOrRefuses : Obligations.CtrlWriteStartsOrRefuses := by
  unfold Obligations.CtrlWriteStartsOrRefuses
  intro s data
  rw [State.busWrite_ctrl]
  refine ⟨fun h0 => ?_, fun h0 hidle => ?_, fun c h0 hbusy => ?_⟩
  · rw [State.ctrlWrite_of_noStart h0]
    rfl
  · rw [State.ctrlWrite_of_start_idle h0 hidle]
    rfl
  · rw [State.ctrlWrite_of_start_busy h0 hbusy]
    rfl

/-- Settles O15: each flag is kept exactly where its bit is 0. -/
theorem statusWriteClearsFlags : Obligations.StatusWriteClearsFlags := by
  unfold Obligations.StatusWriteClearsFlags
  intro s data
  have hflag (old bit : Bool) : (old && !bit) = if bit then false else old := by
    cases bit <;> simp
  rw [State.busWrite_status, State.statusWrite, hflag, hflag]

/-- Settles O17: each listed address is a read-only register's, and the masks keep the bits that CTRL and STATUS read. -/
theorem readOnlyWritesAreIgnored : Obligations.ReadOnlyWritesAreIgnored := by
  unfold Obligations.ReadOnlyWritesAreIgnored
  intro s data
  refine ⟨fun addr haddr => ?_, ?_, ?_⟩
  · change addr ∈ readOnlyRegs.map fun r => BitVec.ofNat 16 (regOffset r) at haddr
    obtain ⟨r, hr, rfl⟩ := List.mem_map.1 haddr
    rw [State.busWrite_regOffset, State.writeReg_of_readOnly hr]
  · rw [State.busWrite_ctrl, State.busWrite_ctrl]
    exact State.ctrlWrite_congr (by simp) (by simp) s
  · rw [State.busWrite_status, State.busWrite_status]
    exact State.statusWrite_congr (by simp) (by simp) s

/-- Settles O23: both registers are computed from CURVE_FSB at the read, and both are read-only. -/
theorem pointGeometryRegisters : Obligations.PointGeometryRegisters := by
  unfold Obligations.PointGeometryRegisters
  intro s
  have hyoff : (s.busRead 0x03C).1 = s.ptYoff := congrArg Prod.fst (s.busRead_regOffset .ptYoff)
  have hlen : (s.busRead 0x040).1 = s.ptLen := congrArg Prod.fst (s.busRead_regOffset .ptLen)
  rw [hyoff, hlen]
  refine ⟨BitVec.toNat_ofNat _ _, BitVec.toNat_ofNat _ _, fun data => ⟨?_, ?_⟩⟩
  · exact s.busWrite_regOffset .ptYoff data
  · exact s.busWrite_regOffset .ptLen data

end Sys2Proof.Machine
end

section
/-! SUPPORT. What the host port does with each target of 10_state R21, and the step of each agent as the OPMEM bytes see
it: the rules the statements about 20_memory rest on. -/

namespace Sys2Proof.Machine

/-! ### Which addresses name a register, and which name nothing (10_state R21, 20_memory R71, R72) -/

/-- A register is found at its own offset and at no other. -/
theorem regAt_eq_some_iff (a : Nat) (r : Reg) : regAt a = some r ↔ regOffset r = a := by
  constructor
  · intro h
    simpa using List.find?_some h
  · rintro rfl
    exact regAt_regOffset r

/-- The register map ends at 0x040 and has a gap at 0x02C (10_state section 2). -/
theorem regOffset_bounds (r : Reg) : regOffset r ≤ 0x040 ∧ regOffset r ≠ 0x02C := by
  cases r <;> decide

theorem regAt_eq_none {a : Nat} (h : a = 0x02C ∨ 0x044 ≤ a) : regAt a = none := by
  rw [Option.eq_none_iff_forall_ne_some]
  intro r hr
  rw [regAt_eq_some_iff] at hr
  obtain ⟨hlast, hgap⟩ := regOffset_bounds r
  omega

theorem targetOf_misaligned {addr : Addr} (h : addr.toNat % 4 ≠ 0) (cfg : Config) : targetOf cfg addr = .misaligned :=
  if_neg h

/-- An aligned address past the register map or in its gap, and outside the window, names nothing (20_memory R60, R72). -/
theorem targetOf_unmapped {cfg : Config} {addr : Addr} (h4 : addr.toNat % 4 = 0)
    (hreg : addr.toNat = 0x02C ∨ 0x044 ≤ addr.toNat) (hwin : inWindow cfg addr.toNat = false) :
    targetOf cfg addr = .unmapped := by
  simp [targetOf, h4, hwin, regAt_eq_none hreg, regTarget]

/-- The addresses of 20_memory R71 and R72 name no register and no OPMEM word. -/
theorem targetOf_of_refused {cfg : Config} {addr : Addr}
    (h : addr.toNat % 4 ≠ 0 ∨ addr.toNat = 0x02C ∨ (0x044 ≤ addr.toNat ∧ addr.toNat < 0x1000) ∨
      0x1000 + cfg.opmemBytes ≤ addr.toNat) :
    targetOf cfg addr = .misaligned ∨ targetOf cfg addr = .unmapped := by
  by_cases h4 : addr.toNat % 4 = 0
  · have hout : ¬(windowBase ≤ addr.toNat ∧ addr.toNat < windowBase + cfg.opmemBytes) := by
      unfold windowBase
      omega
    rw [← inWindow_iff, Bool.not_eq_true] at hout
    exact .inr (targetOf_unmapped h4 (by omega) hout)
  · exact .inl (targetOf_misaligned h4 cfg)

/-! ### The transactions of a target that is no register (20_memory R61, R62, R71, R72) -/

section
variable {s : State} {addr : Addr}

theorem State.busRead_of_refused (h : targetOf s.cfg addr = .misaligned ∨ targetOf s.cfg addr = .unmapped) :
    s.busRead addr = (0, s.setAccErr) := by
  unfold State.busRead
  rcases h with h | h <;> rw [h]

theorem State.busWrite_of_refused (h : targetOf s.cfg addr = .misaligned ∨ targetOf s.cfg addr = .unmapped)
    (data : Word) : s.busWrite addr data = s.setAccErr := by
  unfold State.busWrite
  rcases h with h | h <;> rw [h]

variable {o : Nat}

theorem State.busRead_opmem_of_busy {c : Command} (h : targetOf s.cfg addr = .opmem o) (hs : s.engine = .busy c) :
    s.busRead addr = (0, s.setAccErr) := by
  unfold State.busRead
  rw [h]
  exact if_pos ((State.busy_eq_true_iff s).2 ⟨c, hs⟩)

theorem State.busWrite_opmem_of_busy {c : Command} (h : targetOf s.cfg addr = .opmem o) (hs : s.engine = .busy c)
    (data : Word) : s.busWrite addr data = s.setAccErr := by
  unfold State.busWrite
  rw [h]
  exact if_pos ((State.busy_eq_true_iff s).2 ⟨c, hs⟩)

theorem State.busRead_opmem_of_idle (h : targetOf s.cfg addr = .opmem o) (hs : s.engine = .idle) :
    s.busRead addr = (s.opmemWord o, s) := by
  unfold State.busRead
  simp only [h, (State.busy_eq_false_iff s).2 hs]
  rfl

theorem State.busWrite_opmem_of_idle (h : targetOf s.cfg addr = .opmem o) (hs : s.engine = .idle) (data : Word) :
    s.busWrite addr data = s.writeBytes (bytesAt o 4 data.toNat) := by
  unfold State.busWrite
  simp only [h, (State.busy_eq_false_iff s).2 hs]
  rfl

end

/-! ### The bytes of an OPMEM word (20_memory R61) -/

/-- A byte joined on below is one more little-endian digit. -/
theorem toNat_append_byte {w : Nat} (hi : BitVec w) (lo : Byte) : (hi ++ lo).toNat = lo.toNat + 256 * hi.toNat := by
  rw [BitVec.toNat_append, ← Nat.shiftLeft_add_eq_or_of_lt lo.isLt, Nat.shiftLeft_eq]
  omega

/-- The host word holds the lowest byte in bits 7 to 0. -/
theorem State.opmemWord_eq_append (s : State) (o : Nat) :
    s.opmemWord o = s.byte (o + 3) ++ s.byte (o + 2) ++ s.byte (o + 1) ++ s.byte o := by
  have hlt : s.number o 4 < 2 ^ 32 := s.number_lt o 4
  apply BitVec.eq_of_toNat_eq
  rw [State.opmemWord, BitVec.toNat_ofNat, Nat.mod_eq_of_lt hlt, toNat_append_byte, toNat_append_byte, toNat_append_byte]
  simp only [State.number_succ, State.number_zero, Nat.add_assoc, Nat.reduceAdd, Nat.mul_zero, Nat.add_zero]

/-- Byte `j` of a word as a number is its bits from `8·j` on. -/
theorem byteOf_toNat (data : Word) (j : Nat) : byteOf data.toNat j = data.extractLsb' (8 * j) 8 := rfl

/-- The accepted `OpmemWrite`: the four bytes of the data, and no other byte. -/
theorem State.storesAt_writeWord (s : State) (o : Nat) (data : Word) :
    StoresAt s (s.writeBytes (bytesAt o 4 data.toNat)) o 4 (fun j => data.extractLsb' (8 * j) 8) := by
  intro x
  rw [State.byte_writeBytes_bytesAt, byteOf_toNat]

/-! ### What can change an OPMEM byte (20_memory R85) -/

/-- A bus write changes a byte only as an accepted write of the byte's word. -/
theorem State.busWrite_byte_ne {s : State} {addr : Addr} {data : Word} {x : Nat}
    (h : (s.busWrite addr data).byte x ≠ s.byte x) :
    ∃ o, targetOf s.cfg addr = .opmem o ∧ s.engine = .idle ∧ InRegion o 4 x := by
  rcases s.busWrite_cases addr data with hw | ⟨r, -, hw⟩ | ⟨o, ho, hidle, hw⟩
  · rw [hw] at h
    exact absurd (State.byte_congr rfl rfl x) h
  · rw [hw] at h
    exact absurd (State.byte_congr (s.writeReg_opmem r data) (s.writeReg_draw r data) x) h
  · rw [hw, State.storesAt_writeWord s o data x] at h
    exact ⟨o, ho, hidle, (ite_ne_right_iff.1 h).1⟩

theorem State.busRead_sameBytes (s : State) (addr : Addr) : SameBytes s (s.busRead addr).2 := by
  intro x
  rcases s.busRead_cases addr with hr | hr
  · rw [hr]
  · rw [hr]
    exact State.byte_congr rfl rfl x

/-- Of the two transactions, only an accepted OPMEM write changes a byte. -/
theorem State.transact_byte_ne {s : State} {tr : Transaction} {x : Nat} (h : (s.transact tr).byte x ≠ s.byte x) :
    ∃ addr data o, tr = .write addr data ∧ targetOf s.cfg addr = .opmem o ∧ s.engine = .idle ∧ InRegion o 4 x := by
  cases tr with
  | read addr => exact absurd (s.busRead_sameBytes addr x) h
  | write addr data =>
    obtain ⟨o, ho⟩ := State.busWrite_byte_ne h
    exact ⟨addr, data, o, rfl, ho⟩

/-- An error completion changes no byte (60_exceptions R195). -/
theorem State.completeError_sameBytes (s : State) (e : CmdError) : SameBytes s (s.completeError e) :=
  State.byte_congr rfl rfl

/-- A completion that changes a byte has code OK (10_state R42). -/
theorem State.complete_byte_ne {s : State} {r : CmdOutcome} {x : Nat} (h : (s.complete r).byte x ≠ s.byte x) :
    (s.complete r).errCode = 0 := by
  cases r with
  | ok r => rfl
  | error e => exact absurd (s.completeError_sameBytes e x) h

theorem State.advance_byte (s : State) (x : Nat) : s.advance.byte x = s.byte x :=
  State.byte_congr rfl rfl x

end Sys2Proof.Machine
end

section
/-! The statements of 20_memory: refused transactions, the OPMEM window, and what changes OPMEM. -/

namespace Sys2Proof.Machine

/-- Settles O18: such an address is misaligned or names nothing, whatever the build. -/
theorem misalignedAndUnmappedAreRefused : Obligations.MisalignedAndUnmappedAreRefused := by
  unfold Obligations.MisalignedAndUnmappedAreRefused
  intro s addr data h
  have htarget := targetOf_of_refused h
  exact ⟨State.busRead_of_refused htarget, State.busWrite_of_refused htarget data⟩

/-- Settles O19: the address names the word at `o`, and the engine decides between refusal and access. -/
theorem opmemWindowAccess : Obligations.OpmemWindowAccess := by
  unfold Obligations.OpmemWindowAccess
  intro s o data hlegal ho hr addr
  have htarget : targetOf s.cfg addr = .opmem o := targetOf_window hlegal ho hr
  refine ⟨fun c hbusy => ?_, fun hidle => ?_⟩
  · exact ⟨State.busRead_opmem_of_busy htarget hbusy, State.busWrite_opmem_of_busy htarget hbusy data⟩
  · rw [State.busRead_opmem_of_idle htarget hidle, State.busWrite_opmem_of_idle htarget hidle,
      State.opmemWord_eq_append]
    exact ⟨rfl, s.storesAt_writeWord o data, rfl⟩

/-- Settles O28, by what the step was: a transaction, a reset, an idle slot, or a completion. -/
theorem opmemBytesChangeOnlySo : Obligations.OpmemBytesChangeOnlySo := by
  unfold Obligations.OpmemBytesChangeOnlySo
  intro s t x hstep hne
  rw [← State.advance_byte] at hne
  have completion {c : Command} {r : CmdOutcome} (hbusy : s.engine = .busy c) (ht : t = s.advance.complete r) :
      ∃ c, s.engine = .busy c ∧ t.engine = .idle ∧ t.done = true ∧ t.errCode = 0 := by
    subst ht
    exact ⟨c, hbusy, State.complete_engine _ _, State.complete_done _ _, State.complete_byte_ne hne⟩
  rcases step_cases hstep with ⟨tr, rest, hagenda, ht⟩ | ⟨rest, hagenda, -⟩ |
    ⟨-, ⟨-, ht⟩ | ⟨c, i, hbusy, -, ht⟩ | ⟨c, e, hbusy, -, ht⟩⟩
  · rw [ht] at hne
    obtain ⟨addr, data, o, rfl, haccepted⟩ := State.transact_byte_ne hne
    exact .inr (.inl ⟨addr, data, rest, o, hagenda, haccepted⟩)
  · exact .inl ⟨rest, hagenda⟩
  · rw [ht] at hne
    exact absurd rfl hne
  · exact .inr (.inr (completion hbusy ht))
  · exact .inr (.inr (completion hbusy ht))

end Sys2Proof.Machine
end

section
/-! SUPPORT. Which command words decode, and what runs of words that decode alike or not at all: the rules the statements
about 30_encoding rest on. -/

namespace Sys2Proof.Machine

/-! ### The decoder (30_encoding R91, R92, R99) -/

theorem decode_eq_ok_iff (c : Command) (i : Instr) :
    decode c = .ok i ↔ reservedField c.cmd = 0 ∧ decodeOpcode (opcodeField c.cmd).toNat c = some i := by
  unfold decode
  by_cases hres : reservedField c.cmd = 0#24
  · cases hrow : decodeOpcode (opcodeField c.cmd).toNat c <;> simp [hres]
  · simp [hres]

/-- A word with zero reserved bits is its OPCODE, zero-extended (30_encoding R90). -/
theorem eq_zext_opcodeField {w : Word} (h : reservedField w = 0) : w = (opcodeField w).setWidth 32 := by
  have hhigh : w.toNat / 2 ^ 8 % 2 ^ 24 = 0 := by
    simpa [reservedField, Nat.shiftRight_eq_div_pow] using congrArg BitVec.toNat h
  apply BitVec.eq_of_toNat_eq
  simp only [opcodeField, BitVec.toNat_setWidth, BitVec.extractLsb'_toNat, Nat.shiftRight_zero]
  omega

/-- The opcode map finds an instruction under that instruction's own OPCODE only (30_encoding R92). -/
theorem eq_opcodeOf_of_decodeOpcode {op : Nat} {c : Command} {i : Instr} (h : decodeOpcode op c = some i) :
    op = (opcodeOf i).toNat := by
  unfold decodeOpcode at h
  split at h <;> cases h <;> rfl

/-- What decodes has the command word of the instruction it decodes to (30_encoding R92). -/
theorem cmd_eq_commandWord_of_decode {c : Command} {i : Instr} (h : decode c = .ok i) : c.cmd = commandWord i := by
  obtain ⟨hres, hrow⟩ := (decode_eq_ok_iff c i).1 h
  have hop : opcodeField c.cmd = opcodeOf i := BitVec.eq_of_toNat_eq (eq_opcodeOf_of_decodeOpcode hrow)
  calc c.cmd = (opcodeField c.cmd).setWidth 32 := eq_zext_opcodeField hres
    _ = commandWord i := by rw [hop, commandWord]

theorem commandWord_mem_commandWords (i : Instr) : commandWord i ∈ commandWords := by
  cases i <;> simp [commandWord, opcodeOf, commandWords]

theorem decode_ok_of_mem_commandWords {c : Command} (h : c.cmd ∈ commandWords) : ∃ i, decode c = .ok i := by
  have hword {w : Word} {i : Instr} (hc : c.cmd = w) (hres : reservedField w = 0)
      (hrow : decodeOpcode (opcodeField w).toNat c = some i) : ∃ i, decode c = .ok i := by
    subst hc
    exact ⟨i, (decode_eq_ok_iff c i).2 ⟨hres, hrow⟩⟩
  simp only [commandWords, List.mem_cons, List.not_mem_nil, or_false] at h
  rcases h with h | h | h | h | h | h | h | h | h | h | h | h <;> exact hword h rfl rfl

/-- The twelve words of 30_encoding R92 are those that decode, whatever the operand words (30_encoding R97). -/
theorem decode_ok_iff_mem_commandWords (c : Command) : (∃ i, decode c = .ok i) ↔ c.cmd ∈ commandWords := by
  refine ⟨?_, decode_ok_of_mem_commandWords⟩
  rintro ⟨i, h⟩
  rw [cmd_eq_commandWord_of_decode h]
  exact commandWord_mem_commandWords i

/-! ### Error completion -/

/-- The frame of an error completion (10_state R42, 60_exceptions R195). -/
theorem completed_completeError (s : State) (e : CmdError) : Completed s (s.completeError e) e.code 0 := by
  constructor <;> rfl

/-! ### Runs that see no operand word (30_encoding R91, R95, R96) -/

/-- A word that is no command completes with BADOP, whatever the operand words (30_encoding R91, R96). -/
theorem runCommand_badop {c : Command} (h : c.cmd ∉ commandWords) (s : State) :
    runCommand c s = .next (s.completeError .badop) := by
  rw [← decode_ok_iff_mem_commandWords] at h
  unfold runCommand
  cases hdec : decode c with
  | ok i => exact absurd ⟨i, hdec⟩ h
  | error e => rfl

/-- Commands with one CMD word run alike if the row of that word reads the same operands from both (30_encoding R93). -/
theorem runCommand_congr_row {c c' : Command} {w : Word} (hc : c.cmd = w) (hc' : c'.cmd = c.cmd)
    (hrow : decodeOpcode (opcodeField w).toNat c' = decodeOpcode (opcodeField w).toNat c) (s : State) :
    runCommand c' s = runCommand c s := by
  subst hc
  simp only [runCommand, decode, hc', hrow]

end Sys2Proof.Machine
end

section
/-! The statements of 30_encoding: the command words, and the registers a command leaves alone. -/

namespace Sys2Proof.Machine

/-- Settles O2: the twelve words are those that decode, and no other word reaches a command's rule. -/
theorem commandWordsAreTwelveOrBadop : Obligations.CommandWordsAreTwelveOrBadop := by
  unfold Obligations.CommandWordsAreTwelveOrBadop
  intro c
  refine ⟨decode_ok_of_mem_commandWords, fun hcmd s => ?_⟩
  exact ⟨s.completeError .badop, runCommand_badop hcmd s, completed_completeError s .badop,
    s.completeError_sameBytes .badop⟩

/-- Settles O3: for each word the row that `decodeOpcode` selects computes to the same operands on both sides, and a word
without a row ends with BADOP on both. -/
theorem blankColumnsHaveNoEffect : Obligations.BlankColumnsHaveNoEffect := by
  unfold Obligations.BlankColumnsHaveNoEffect
  intro c v0 v1 v2 l l2 cb cf cm s
  refine ⟨?gfDeg, ?gfMul, ?gfRed, ?gfShl, ?gfInv, ?ecAdd, ?ecDbl, ?ecMul, ?ecOncurve, ?ecdhGenpub, ?ecdhValidate,
    ?ecdhShared, ?badop⟩
  case badop =>
    intro hcmd
    rw [runCommand_badop hcmd, runCommand_badop (c := ⟨c.cmd, v0, v1, v2, l, l2, cb, cf, cm⟩) hcmd]
  all_goals
    intro hcmd
    refine runCommand_congr_row hcmd ?sameCmd ?sameRow s
    case sameCmd | sameRow => rfl

end Sys2Proof.Machine
end

section
/-! SUPPORT. The numbers of 00_scope R9 read as polynomials over the field with two elements, so that Mathlib's algebra
of polynomials answers for XOR, `clmul`, `pmod` and `inv_euclid` (40_gf2 R111 to R115). -/

namespace Sys2Proof.Machine

open Polynomial

/-! ### The polynomial of a number (00_scope R9) -/

/-- The polynomial whose coefficient of `x^i` is bit `i` of the number (00_scope R9). -/
noncomputable def toPoly (p : Nat) : (ZMod 2)[X] :=
  ∑ i ∈ Finset.range (bitLen p), if p.testBit i then X ^ i else 0

theorem testBit_eq_false_of_bitLen_le {p i : Nat} (h : bitLen p ≤ i) : p.testBit i = false :=
  Nat.testBit_lt_two_pow ((bitLen_le_iff p i).1 h)

theorem coeff_toPoly (p i : Nat) : (toPoly p).coeff i = if p.testBit i then 1 else 0 := by
  have hterm (j : Nat) : (if p.testBit j then X ^ j else 0 : (ZMod 2)[X]).coeff i =
      if i = j then (if p.testBit i then 1 else 0) else 0 := by
    by_cases hij : i = j
    · subst hij
      split <;> simp
    · split <;> simp [coeff_X_pow, hij]
  rw [toPoly, finsetSum_coeff, Finset.sum_congr rfl fun j _ => hterm j, Finset.sum_ite_eq]
  split
  case isTrue => rfl
  case isFalse h =>
    have hle : bitLen p ≤ i := Nat.le_of_not_lt fun hlt => h (Finset.mem_range.2 hlt)
    rw [testBit_eq_false_of_bitLen_le hle, if_neg Bool.false_ne_true]

theorem testBit_eq_true_iff_coeff (p i : Nat) : p.testBit i = true ↔ (toPoly p).coeff i = 1 := by
  rw [coeff_toPoly]
  split <;> simp_all

theorem toPoly_injective : Function.Injective toPoly := fun p q h =>
  Nat.eq_of_testBit_eq fun i => Bool.eq_iff_iff.2 (by
    rw [testBit_eq_true_iff_coeff, testBit_eq_true_iff_coeff, h])

@[simp] theorem toPoly_inj {p q : Nat} : toPoly p = toPoly q ↔ p = q := toPoly_injective.eq_iff

@[simp] theorem toPoly_zero : toPoly 0 = 0 := by
  ext i; simp [coeff_toPoly]

@[simp] theorem toPoly_one : toPoly 1 = 1 := by
  simp [toPoly, show bitLen 1 = 1 from rfl]

@[simp] theorem toPoly_eq_zero_iff (p : Nat) : toPoly p = 0 ↔ p = 0 := by
  rw [← toPoly_zero, toPoly_inj]

/-- XOR is the sum (40_gf2 R116). -/
@[simp] theorem toPoly_xor (p q : Nat) : toPoly (p ^^^ q) = toPoly p + toPoly q := by
  ext i
  rw [coeff_add, coeff_toPoly, coeff_toPoly, coeff_toPoly, Nat.testBit_xor]
  cases p.testBit i <;> cases q.testBit i <;> decide

@[simp] theorem toPoly_shiftLeft (p s : Nat) : toPoly (p <<< s) = toPoly p * X ^ s := by
  ext i
  rw [coeff_mul_X_pow', coeff_toPoly, coeff_toPoly, Nat.testBit_shiftLeft]
  by_cases h : s ≤ i <;> simp [h]

/-- The partial products over the bits of `a` below a bound are a product with the part of `a` below it. -/
theorem toPoly_clmulBelow (a b n : Nat) :
    toPoly (clmulBelow a b n) = (∑ i ∈ Finset.range n, if a.testBit i then X ^ i else 0) * toPoly b := by
  induction n with
  | zero => simp [clmulBelow]
  | succ n ih =>
    rw [clmulBelow, toPoly_xor, ih, Finset.sum_range_succ, add_mul]
    split
    · rw [toPoly_shiftLeft, mul_comm (X ^ n)]
    · rw [toPoly_zero, zero_mul]

/-- The carry-less product is the product of the polynomials (40_gf2 R111). -/
@[simp] theorem toPoly_clmul (a b : Nat) : toPoly (clmul a b) = toPoly a * toPoly b := toPoly_clmulBelow a b _

/-- Every polynomial over the field with two elements is the polynomial of a number. -/
theorem toPoly_surjective : Function.Surjective toPoly := by
  intro P
  induction P using Polynomial.induction_on' with
  | add P Q hP hQ =>
    obtain ⟨p, rfl⟩ := hP
    obtain ⟨q, rfl⟩ := hQ
    exact ⟨p ^^^ q, toPoly_xor p q⟩
  | monomial n c =>
    have hbit : ∀ c : ZMod 2, c = 0 ∨ c = 1 := by decide
    obtain rfl | rfl := hbit c
    · exact ⟨0, by simp⟩
    · exact ⟨1 <<< n, by simp [X_pow_eq_monomial]⟩

/-! ### Degrees -/

theorem degree_toPoly_lt_iff (p n : Nat) : (toPoly p).degree < n ↔ deg p < n := by
  rw [degree_lt_iff_coeff_zero, deg_lt_iff]
  constructor
  · intro h
    refine Nat.lt_pow_two_of_testBit p fun i hi => Bool.eq_false_iff.2 fun hbit => ?_
    rw [testBit_eq_true_iff_coeff, h i hi] at hbit
    exact zero_ne_one hbit
  · intro h i hi
    have hlt : p < 2 ^ i := Nat.lt_of_lt_of_le h (Nat.pow_le_pow_right (by decide) hi)
    rw [coeff_toPoly, Nat.testBit_lt_two_pow hlt, if_neg Bool.false_ne_true]

theorem degree_toPoly {p : Nat} (hp : p ≠ 0) : (toPoly p).degree = (deg p).toNat := by
  have hdeg := (deg_nonneg_iff p).2 hp
  have hcoeff : (toPoly p).coeff (deg p).toNat = 1 := (testBit_eq_true_iff_coeff p _).1 (testBit_deg hp)
  refine le_antisymm ?_ (le_degree_of_ne_zero (hcoeff ▸ one_ne_zero))
  have hlt : (toPoly p).degree < ((deg p).toNat + 1 : Nat) := (degree_toPoly_lt_iff p _).2 (by omega)
  exact Order.le_of_lt_succ hlt

/-- `deg` orders numbers as the degree orders their polynomials (40_gf2 R110). -/
theorem degree_toPoly_lt_degree_iff {p f : Nat} (hf : f ≠ 0) :
    (toPoly p).degree < (toPoly f).degree ↔ deg p < deg f := by
  have hdeg := (deg_nonneg_iff f).2 hf
  rw [degree_toPoly hf, degree_toPoly_lt_iff]
  omega

theorem isUnit_toPoly_iff (p : Nat) : IsUnit (toPoly p) ↔ deg p = 0 := by
  by_cases hp : p = 0
  · simp [hp]
  · have hdeg := (deg_nonneg_iff p).2 hp
    rw [isUnit_iff_degree_eq_zero, degree_toPoly hp]
    norm_cast
    omega

/-- The only polynomial of degree 0 is 1. -/
theorem toPoly_eq_one_of_deg_eq_zero {p : Nat} (h : deg p = 0) : toPoly p = 1 := by
  have hlt : p < 2 ^ 1 := (deg_lt_iff p 1).1 (by omega)
  have hne : p ≠ 0 := (deg_nonneg_iff p).1 h.ge
  rw [show p = 1 by omega, toPoly_one]

/-! ### The bits and the degree of a product (40_gf2 R111), and the shift (R113) -/

/-- A coefficient of a product, as a count of the pairs of set bits (40_gf2 R111). -/
theorem coeff_toPoly_mul (a b k : Nat) : (toPoly a * toPoly b).coeff k =
    (((List.range (k + 1)).filter fun i => a.testBit i && b.testBit (k - i)).length : ZMod 2) := by
  have hterm (i : Nat) : (toPoly a).coeff i * (toPoly b).coeff (k - i) =
      if (a.testBit i && b.testBit (k - i)) = true then 1 else 0 := by
    rw [coeff_toPoly, coeff_toPoly]
    cases a.testBit i <;> cases b.testBit (k - i) <;> decide
  calc (toPoly a * toPoly b).coeff k
      = ∑ i ∈ Finset.range (k + 1), (toPoly a).coeff i * (toPoly b).coeff (k - i) := by
        rw [coeff_mul, Finset.Nat.sum_antidiagonal_eq_sum_range_succ fun i j => (toPoly a).coeff i * (toPoly b).coeff j]
    _ = ((Finset.range (k + 1)).filter fun i => (a.testBit i && b.testBit (k - i)) = true).card := by
        rw [Finset.sum_congr rfl fun i _ => hterm i, Finset.sum_boole]
    _ = _ := by simp [Finset.card_def, Finset.filter_val, Finset.range_val, Multiset.range]

theorem testBit_clmul (a b k : Nat) : (clmul a b).testBit k =
    decide (((List.range (k + 1)).filter fun i => a.testBit i && b.testBit (k - i)).length % 2 = 1) := by
  rw [Bool.eq_iff_iff, testBit_eq_true_iff_coeff, toPoly_clmul, coeff_toPoly_mul, ZMod.natCast_eq_one_iff_odd,
    Nat.odd_iff, decide_eq_true_iff]

/-- The product of two `n`-byte operands fits `16n − 1` bits (40_gf2 R111). -/
theorem deg_clmul_le {a b n : Nat} (hn : 1 ≤ n) (ha : a < 2 ^ (8 * n)) (hb : b < 2 ^ (8 * n)) :
    deg (clmul a b) ≤ 16 * n - 2 := by
  rw [← deg_lt_iff] at ha hb
  by_cases ha0 : a = 0
  · rw [ha0, clmul_zero_left, deg_zero]
    omega
  by_cases hb0 : b = 0
  · rw [hb0, clmul_zero_right, deg_zero]
    omega
  rw [deg_clmul ha0 hb0]
  omega

/-- `shl` is the truncated shift, also where it answers 0 at once (40_gf2 R113). -/
theorem shl_eq (p s w : Nat) : shl p s w = (p <<< s) % 2 ^ w := by
  unfold shl
  split
  case isTrue hws =>
    have hdvd : 2 ^ w ∣ p <<< s := by
      rw [Nat.shiftLeft_eq]
      exact Nat.dvd_mul_left_of_dvd (Nat.pow_dvd_pow 2 hws) p
    exact (Nat.mod_eq_zero_of_dvd hdvd).symm
  case isFalse => rfl

/-! ### Divisibility and gcd -/

theorem polyDvd_iff (d p : Nat) : PolyDvd d p ↔ toPoly d ∣ toPoly p := by
  constructor
  · rintro ⟨q, rfl⟩
    rw [toPoly_clmul]
    exact dvd_mul_left _ _
  · rintro ⟨Q, hQ⟩
    obtain ⟨q, rfl⟩ := toPoly_surjective Q
    refine ⟨q, toPoly_injective ?_⟩
    rw [hQ, toPoly_clmul, mul_comm]

/-- Without a common divisor of degree 1 or more, `a` and `f` generate 1 (40_gf2 R114). -/
theorem polyCoprime_iff_isCoprime {a f : Nat} (hf : f ≠ 0) : PolyCoprime a f ↔ IsCoprime (toPoly a) (toPoly f) := by
  constructor
  · intro h
    refine isCoprime_of_dvd _ _ (fun h0 => hf ((toPoly_eq_zero_iff f).1 h0.2)) fun D hD hD0 hDa hDf => hD ?_
    obtain ⟨d, rfl⟩ := toPoly_surjective D
    have hlt := h d ((polyDvd_iff d a).2 hDa) ((polyDvd_iff d f).2 hDf)
    have hge := (deg_nonneg_iff d).2 fun h0 => hD0 ((toPoly_eq_zero_iff d).2 h0)
    exact (isUnit_toPoly_iff d).2 (by omega)
  · intro h d hda hdf
    have hunit := h.isUnit_of_dvd' ((polyDvd_iff d a).1 hda) ((polyDvd_iff d f).1 hdf)
    rw [(isUnit_toPoly_iff d).1 hunit]
    decide

/-! ### Remainders (40_gf2 R112) -/

/-- `pmod` is the remainder of the polynomial division. -/
theorem toPoly_pmod {f : Nat} (hf : f ≠ 0) (p : Nat) : toPoly (pmod p f) = toPoly p % toPoly f := by
  have hF : toPoly f ≠ 0 := mt (toPoly_eq_zero_iff f).1 hf
  induction hlen : bitLen p using Nat.strong_induction_on generalizing p with
  | _ n ih =>
    rw [pmod_eq hf]
    split
    case isTrue hpass =>
      obtain ⟨hp, hle⟩ := hpass
      rw [ih _ (hlen ▸ bitLen_cancel_lt hp hf hle) _ rfl]
      refine mod_eq_of_dvd_sub ?_
      rw [toPoly_xor, toPoly_shiftLeft, add_sub_cancel_left]
      exact dvd_mul_right _ _
    case isFalse hstop =>
      refine ((mod_eq_self_iff hF).2 ((degree_toPoly_lt_degree_iff hf).2 ?_)).symm
      by_cases hp : p = 0
      · have hdeg := (deg_nonneg_iff f).2 hf
        rw [hp, deg_zero]
        omega
      · exact Int.not_le.1 fun hle => hstop ⟨hp, hle⟩

theorem deg_pmod_lt {f : Nat} (hf : f ≠ 0) (p : Nat) : deg (pmod p f) < deg f := by
  rw [← degree_toPoly_lt_degree_iff hf, toPoly_pmod hf]
  exact EuclideanDomain.mod_lt _ (mt (toPoly_eq_zero_iff f).1 hf)

/-- Numbers that differ by a multiple of `f` have one remainder. -/
theorem pmod_eq_pmod_of_dvd {p q f : Nat} (hf : f ≠ 0) (h : toPoly f ∣ toPoly p - toPoly q) : pmod p f = pmod q f := by
  refine toPoly_injective ?_
  rw [toPoly_pmod hf, toPoly_pmod hf, mod_eq_of_dvd_sub h]

theorem pmod_of_deg_lt {p f : Nat} (h : deg p < deg f) : pmod p f = p := by
  have hf : f ≠ 0 := by
    rintro rfl
    have := neg_one_le_deg p
    rw [deg_zero] at h
    omega
  rw [pmod_eq hf, if_neg fun hpass => by omega]

/-- A number and its remainder differ by a multiple of the modulus. -/
theorem dvd_toPoly_sub_pmod {f : Nat} (hf : f ≠ 0) (p : Nat) : toPoly f ∣ toPoly p - toPoly (pmod p f) := by
  rw [toPoly_pmod hf, EuclideanDomain.mod_eq_sub_mul_div, sub_sub_cancel]
  exact dvd_mul_right _ _

/-! ### Inversion (40_gf2 R114, R115) -/

/-- The invariant of the loop of `inv_euclid` (40_gf2 R114): modulo `f` each remainder is its coefficient times `a`, and
the remainders have common divisors as `a` and `f` do. -/
structure EuclidInv (a f u v g1 g2 : Nat) : Prop where
  first : toPoly f ∣ toPoly a * toPoly g1 - toPoly u
  second : toPoly f ∣ toPoly a * toPoly g2 - toPoly v
  coprime : IsCoprime (toPoly u) (toPoly v) ↔ IsCoprime (toPoly a) (toPoly f)

theorem euclidInv_start (a f : Nat) : EuclidInv a f a f 1 0 where
  first := by simp
  second := by simp
  coprime := Iff.rfl

theorem EuclidInv.swap {a f u v g1 g2 : Nat} (h : EuclidInv a f u v g1 g2) : EuclidInv a f v u g2 g1 :=
  ⟨h.second, h.first, isCoprime_comm.trans h.coprime⟩

/-- Adding a multiple of the second remainder to the first, and of the coefficients likewise, keeps the invariant. -/
theorem EuclidInv.cancel {a f u v g1 g2 : Nat} (h : EuclidInv a f u v g1 g2) (s : Nat) :
    EuclidInv a f (u ^^^ v <<< s) v (g1 ^^^ g2 <<< s) g2 where
  first := by
    have hsum := dvd_add h.first (dvd_mul_of_dvd_left h.second (X ^ s))
    rw [toPoly_xor, toPoly_xor, toPoly_shiftLeft, toPoly_shiftLeft]
    convert hsum using 1
    ring
  second := h.second
  coprime := by
    rw [toPoly_xor, toPoly_shiftLeft, IsCoprime.add_mul_left_left_iff]
    exact h.coprime

/-- What the loop answers from a state of its invariant: a coefficient whose product with `a` is 1 modulo `f`, or an
error when `a` and `f` have a common divisor (40_gf2 R114). -/
theorem euclid_spec {a f u v g1 g2 : Nat} (hv : v ≠ 0) (h : EuclidInv a f u v g1 g2) :
    (∃ r, euclid u v g1 g2 = .ok r ∧ toPoly f ∣ toPoly a * toPoly r - 1) ∨
    (euclid u v g1 g2 = .error .noinv ∧ ¬IsCoprime (toPoly a) (toPoly f)) := by
  induction hlen : bitLen u + bitLen v using Nat.strong_induction_on generalizing u v g1 g2 with
  | _ n ih =>
    rw [euclid_eq hv]
    split
    case isTrue hu1 => exact .inl ⟨g1, rfl, toPoly_eq_one_of_deg_eq_zero hu1 ▸ h.first⟩
    case isFalse =>
      split
      case isTrue hv1 => exact .inl ⟨g2, rfl, toPoly_eq_one_of_deg_eq_zero hv1 ▸ h.second⟩
      case isFalse hv1 =>
        split
        case isTrue hu0 =>
          refine .inr ⟨rfl, fun hcop => hv1 ((isUnit_toPoly_iff v).1 ?_)⟩
          rw [← h.coprime, hu0, toPoly_zero, isCoprime_zero_left] at hcop
          exact hcop
        case isFalse hu0 =>
          split
          case isTrue hlt =>
            have hless := bitLen_cancel_lt hv hu0 (Int.le_of_lt hlt)
            exact ih _ (by omega) hu0 (h.swap.cancel _) rfl
          case isFalse hge =>
            have hless := bitLen_cancel_lt hu0 hv (Int.not_lt.1 hge)
            exact ih _ (by omega) hv (h.cancel _) rfl

/-- `inv_euclid` answers an inverse below the modulus, or NOINV when `gcd(a, f) ≠ 1` (40_gf2 R114, R115). -/
theorem invEuclid_spec {a f : Nat} (hf : 1 ≤ deg f) :
    (∃ r, invEuclid a f = .ok r ∧ deg r < deg f ∧ pmod (clmul a r) f = 1 ∧ PolyCoprime a f) ∨
    (invEuclid a f = .error .noinv ∧ ¬PolyCoprime a f) := by
  have hf0 : f ≠ 0 := (deg_nonneg_iff f).1 (by omega)
  rw [invEuclid_eq, polyCoprime_iff_isCoprime hf0]
  rcases euclid_spec hf0 (euclidInv_start a f) with ⟨r, hr, hdvd⟩ | ⟨herr, hnot⟩
  case inr => exact .inr ⟨by rw [herr], hnot⟩
  case inl =>
    have hreduce : (if deg f ≤ deg r then pmod r f else r) = pmod r f := by
      split
      · rfl
      · rw [pmod_of_deg_lt (by omega)]
    refine .inl ⟨pmod r f, by rw [hr]; exact congrArg _ hreduce, deg_pmod_lt hf0 r, ?inverse, ?coprime⟩
    case inverse =>
      have hone : deg 1 < deg f := Int.lt_of_lt_of_le (by decide) hf
      calc pmod (clmul a (pmod r f)) f = pmod 1 f := by
            refine pmod_eq_pmod_of_dvd hf0 ?_
            have hsum := dvd_sub hdvd (dvd_mul_of_dvd_right (dvd_toPoly_sub_pmod hf0 r) (toPoly a))
            rw [toPoly_clmul, toPoly_one]
            convert hsum using 1
            ring
        _ = 1 := pmod_of_deg_lt hone
    case coprime =>
      obtain ⟨Q, hQ⟩ := hdvd
      exact ⟨toPoly r, -Q, by linear_combination hQ⟩

end Sys2Proof.Machine
end

section
/-! The statements of 40_gf2 section 1: the degree, the product and the shift. -/

namespace Sys2Proof.Machine

/-- Settles O32: the leading bit is set, and `p < 2^j` for every `j` above the degree. -/
theorem degreeIsTheHighestSetBit : Obligations.DegreeIsTheHighestSetBit := by
  unfold Obligations.DegreeIsTheHighestSetBit
  refine ⟨deg_zero, fun p hp => ⟨(deg p).toNat, ?_, testBit_deg hp, fun j hj => ?_⟩⟩
  · exact (Int.toNat_of_nonneg ((deg_nonneg_iff p).2 hp)).symm
  · exact Nat.testBit_lt_two_pow ((deg_lt_iff p j).1 (by omega))

/-- Settles O33: a bit is a coefficient of the product of the polynomials, and degrees of factors add up. -/
theorem carrylessProductBits : Obligations.CarrylessProductBits := by
  unfold Obligations.CarrylessProductBits
  exact ⟨testBit_clmul, fun a b n => deg_clmul_le⟩

/-- Settles O36, from the one equation for all shift counts. -/
theorem shiftKeepsTheLowCoefficients : Obligations.ShiftKeepsTheLowCoefficients := by
  unfold Obligations.ShiftKeepsTheLowCoefficients
  intro p s w
  refine ⟨fun j => ?_, shl_eq p s w, fun hws => if_pos hws⟩
  rw [shl_eq, Nat.testBit_mod_two_pow, Nat.testBit_shiftLeft, Bool.and_assoc]

end Sys2Proof.Machine
end

section
/-! SUPPORT. What every statement about a field command rests on: its CMD word, the two checks every rule begins with, and
what the two kinds of completion leave (40_gf2 section 2). -/

namespace Sys2Proof.Machine

/-- A command word with zero reserved bits decodes to what its row of 30_encoding R93 reads. -/
theorem decode_of_row {c : Command} {w : Word} {i : Instr} (hcmd : c.cmd = w) (hres : reservedField w = 0)
    (hrow : decodeOpcode (opcodeField w).toNat c = some i) : decode c = .ok i := by
  subst hcmd
  exact (decode_eq_ok_iff c i).2 ⟨hres, hrow⟩

/-! ### The checks of a rule (40_gf2 R118, 60_exceptions R192) -/

theorem State.inRange_iff_fits (s : State) (a n : Nat) : s.inRange a n = true ↔ Fits s a n := s.inRange_iff a n

section
variable {α : Type} {b b' : Bool} {e : CmdError}

theorem require_bind_of_true {k : Unit → Except CmdError α} (h : b = true) : (require b e >>= k) = k () := by
  rw [require_bind, if_pos h]

theorem require_bind_of_false {k : Unit → Except CmdError α} (h : ¬b = true) : (require b e >>= k) = .error e := by
  rw [require_bind, if_neg h]

/-- Two checks with one code let the rule go on if both hold. -/
theorem require_require_of_and {k : Unit → Except CmdError α} (h : b = true ∧ b' = true) :
    (require b e >>= fun _ => require b' e >>= k) = k () := by
  rw [require_bind_of_true h.1, require_bind_of_true h.2]

/-- Two checks with one code end the rule with it if one fails, whichever it is. -/
theorem require_require_of_not_and {k : Unit → Except CmdError α} (h : ¬(b = true ∧ b' = true)) :
    (require b e >>= fun _ => require b' e >>= k) = .error e := by
  by_cases hb : b = true
  · rw [require_bind_of_true hb, require_bind_of_false fun hb' => h ⟨hb, hb'⟩]
  · rw [require_bind_of_false hb]

end

/-! ### The completions (10_state R42) -/

/-- A rule that ends in an error is a command that fails with its code (60_exceptions R195). -/
theorem failsWith_of_ruleOf {i : Instr} {s : State} (e : CmdError) (h : ruleOf i s = .error e) :
    FailsWith i s e.code :=
  ⟨s.completeError e, by rw [exec_eq_complete, h, State.complete_error], completed_completeError s e,
    s.completeError_sameBytes e⟩

/-- The frame of an OK completion (10_state R42, 60_exceptions R210). -/
theorem completed_completeOk (s : State) (r : CmdResult) : Completed s (s.completeOk r) 0 r.result := by
  constructor <;> rfl

theorem exec_of_ruleOf_ok {i : Instr} {s : State} {r : CmdResult} (h : ruleOf i s = .ok r) :
    exec i s = .next (s.completeOk r) := by
  rw [exec_eq_complete, h, State.complete_ok]

/-- A completion that stages no byte changes none. -/
theorem State.completeOk_sameBytes (s : State) (result : Word) : SameBytes s (s.completeOk { result, writes := [] }) :=
  State.byte_congr rfl rfl

/-- A completion that stages one field element stores its bytes and no other (20_memory R64). -/
theorem State.completeOk_storesAt (s : State) (result : Word) (a n p : Nat) :
    StoresAt s (s.completeOk { result, writes := writeFE a n p }) a n (byteOf p) :=
  s.byte_writeBytes_bytesAt a n p

/-- A rule that answers RESULT 0 and one field element is a command that completes with OK and stores it. -/
theorem stores_of_ruleOf {i : Instr} {s : State} {a n p : Nat}
    (h : ruleOf i s = .ok { result := 0, writes := writeFE a n p }) :
    ∃ t, exec i s = .next t ∧ Completed s t 0 0 ∧ StoresAt s t a n (byteOf p) :=
  ⟨_, exec_of_ruleOf_ok h, completed_completeOk s _, s.completeOk_storesAt 0 a n p⟩

/-! ### The two length and region checks of each rule (40_gf2 R118 to R124) -/

theorem gfDeg_checks_iff (s : State) (src n : Nat) :
    (s.doubleLen n = true ∧ s.inRange src n = true) ↔ (1 ≤ n ∧ n ≤ 2 * s.cfg.capBytes) ∧ Fits s src n := by
  rw [s.doubleLen_iff, s.inRange_iff_fits]

theorem gfMul_checks_iff (s : State) (dst a b n : Nat) :
    (s.singleLen n = true ∧ (s.inRange a n && s.inRange b n && s.inRange dst (2 * n)) = true) ↔
      (1 ≤ n ∧ n ≤ s.cfg.capBytes) ∧ Fits s a n ∧ Fits s b n ∧ Fits s dst (2 * n) := by
  simp only [Bool.and_eq_true, s.singleLen_iff, s.inRange_iff_fits, and_assoc]

theorem gfRed_checks_iff (s : State) (poly modulus n n2 : Nat) :
    ((s.doubleLen n && s.singleLen n2) = true ∧ (s.inRange poly n && s.inRange modulus n2) = true) ↔
      (1 ≤ n ∧ n ≤ 2 * s.cfg.capBytes) ∧ (1 ≤ n2 ∧ n2 ≤ s.cfg.capBytes) ∧ Fits s poly n ∧ Fits s modulus n2 := by
  simp only [Bool.and_eq_true, s.singleLen_iff, s.doubleLen_iff, s.inRange_iff_fits, and_assoc]

theorem gfShl_checks_iff (s : State) (dst src n : Nat) :
    (s.doubleLen n = true ∧ (s.inRange src n && s.inRange dst n) = true) ↔
      (1 ≤ n ∧ n ≤ 2 * s.cfg.capBytes) ∧ Fits s src n ∧ Fits s dst n := by
  simp only [Bool.and_eq_true, s.doubleLen_iff, s.inRange_iff_fits]

theorem gfInv_checks_iff (s : State) (dst a modulus n : Nat) :
    (s.singleLen n = true ∧ (s.inRange a n && s.inRange modulus n && s.inRange dst n) = true) ↔
      (1 ≤ n ∧ n ≤ s.cfg.capBytes) ∧ Fits s a n ∧ Fits s modulus n ∧ Fits s dst n := by
  simp only [Bool.and_eq_true, s.singleLen_iff, s.inRange_iff_fits, and_assoc]

/-- What GF_RED's rule answers once its lengths and its regions are legal (40_gf2 R122). -/
theorem gfRedRule_of_checks {s : State} {poly modulus n n2 : Nat}
    (h : (1 ≤ n ∧ n ≤ 2 * s.cfg.capBytes) ∧ (1 ≤ n2 ∧ n2 ≤ s.cfg.capBytes) ∧ Fits s poly n ∧ Fits s modulus n2) :
    gfRedRule poly modulus n n2 s =
      (require (decide (s.fe modulus n2 ≠ 0)) .param >>= fun _ =>
        .ok { result := 0, writes := writeFE poly n (pmod (s.fe poly n) (s.fe modulus n2)) }) :=
  require_require_of_and ((gfRed_checks_iff s poly modulus n n2).2 h)

/-- What GF_INV's rule answers once its length and its regions are legal (40_gf2 R124). -/
theorem gfInvRule_of_checks {s : State} {dst a modulus n : Nat}
    (h : (1 ≤ n ∧ n ≤ s.cfg.capBytes) ∧ Fits s a n ∧ Fits s modulus n ∧ Fits s dst n) :
    gfInvRule dst a modulus n s =
      (require (decide (1 ≤ deg (s.fe modulus n))) .param >>= fun _ =>
        invEuclid (s.fe a n) (s.fe modulus n) >>= fun r => .ok { result := 0, writes := writeFE dst n r }) :=
  require_require_of_and ((gfInv_checks_iff s dst a modulus n).2 h)

end Sys2Proof.Machine
end

section
/-! The statements of 40_gf2 section 2: each field command's words, result, frame and errors. -/

namespace Sys2Proof.Machine

/-- Settles O39: the two checks decide between the degree and RANGE. -/
theorem gfDegCommand : Obligations.GfDegCommand := by
  unfold Obligations.GfDegCommand
  refine ⟨fun c hcmd => decode_of_row hcmd rfl rfl, fun src n s => ⟨fun hlen hsrc => ?ok, fun hbad => ?range⟩⟩
  case ok =>
    have hrule : ruleOf (.gfDeg src n) s = .ok { result := BitVec.ofInt 32 (deg (s.fe src n)), writes := [] } :=
      require_require_of_and ((gfDeg_checks_iff s src n).2 ⟨hlen, hsrc⟩)
    exact ⟨_, exec_of_ruleOf_ok hrule, completed_completeOk s _, s.completeOk_sameBytes _⟩
  case range =>
    exact failsWith_of_ruleOf .range (require_require_of_not_and (mt (gfDeg_checks_iff s src n).1 hbad))

/-- Settles O40: the two checks decide between the stored product and RANGE. -/
theorem gfMulCommand : Obligations.GfMulCommand := by
  unfold Obligations.GfMulCommand
  refine ⟨fun c hcmd => decode_of_row hcmd rfl rfl,
    fun dst a b n s => ⟨fun hlen ha hb hdst => ?ok, fun hbad => ?range⟩⟩
  case ok =>
    exact stores_of_ruleOf (require_require_of_and ((gfMul_checks_iff s dst a b n).2 ⟨hlen, ha, hb, hdst⟩))
  case range =>
    exact failsWith_of_ruleOf .range (require_require_of_not_and (mt (gfMul_checks_iff s dst a b n).1 hbad))

/-- Settles O41: after the two checks, a zero modulus decides between PARAM and the stored remainder. -/
theorem gfRedCommand : Obligations.GfRedCommand := by
  unfold Obligations.GfRedCommand
  refine ⟨fun c hcmd => decode_of_row hcmd rfl rfl,
    fun poly modulus n n2 s => ⟨fun hlen hlen2 hpoly hmod => ⟨fun hne => ?ok, fun hzero => ?param⟩, fun hbad => ?range⟩⟩
  case ok =>
    refine stores_of_ruleOf ?_
    rw [ruleOf, gfRedRule_of_checks ⟨hlen, hlen2, hpoly, hmod⟩, require_bind_of_true (decide_eq_true hne)]
  case param =>
    refine failsWith_of_ruleOf .param ?_
    rw [ruleOf, gfRedRule_of_checks ⟨hlen, hlen2, hpoly, hmod⟩,
      require_bind_of_false fun hne => absurd hzero (of_decide_eq_true hne)]
  case range =>
    exact failsWith_of_ruleOf .range (require_require_of_not_and (mt (gfRed_checks_iff s poly modulus n n2).1 hbad))

/-- Settles O42: the two checks decide between the stored shift, truncated for any count, and RANGE. -/
theorem gfShlCommand : Obligations.GfShlCommand := by
  unfold Obligations.GfShlCommand
  refine ⟨fun c hcmd => decode_of_row hcmd rfl rfl,
    fun dst src n count s => ⟨fun hlen hsrc hdst => ?ok, fun hbad => ?range⟩⟩
  case ok =>
    rw [← shl_eq]
    exact stores_of_ruleOf (require_require_of_and ((gfShl_checks_iff s dst src n).2 ⟨hlen, hsrc, hdst⟩))
  case range =>
    exact failsWith_of_ruleOf .range (require_require_of_not_and (mt (gfShl_checks_iff s dst src n).1 hbad))

/-- Settles O43: after the checks, `inv_euclid` answers an inverse or NOINV, by `gcd(a, f)`. -/
theorem gfInvCommand : Obligations.GfInvCommand := by
  unfold Obligations.GfInvCommand
  refine ⟨fun c hcmd => decode_of_row hcmd rfl rfl, fun dst a modulus n s =>
    ⟨fun hlen ha hmod hdst => ⟨fun hdeg hcop => ?ok, fun hdeg hnot => ?noinv, fun hdeg => ?param⟩, fun hbad => ?range⟩⟩
  case ok =>
    rcases invEuclid_spec (a := s.fe a n) hdeg with ⟨r, hinv, hlt, hone, -⟩ | ⟨-, hnot⟩
    · have hrule : ruleOf (.gfInv dst a modulus n) s = .ok { result := 0, writes := writeFE dst n r } := by
        rw [ruleOf, gfInvRule_of_checks ⟨hlen, ha, hmod, hdst⟩, require_bind_of_true (decide_eq_true hdeg), hinv]
        rfl
      obtain ⟨t, hexec, hcompleted, hstores⟩ := stores_of_ruleOf hrule
      exact ⟨r, t, hlt, hone, hexec, hcompleted, hstores⟩
    · exact absurd hcop hnot
  case noinv =>
    rcases invEuclid_spec (a := s.fe a n) hdeg with ⟨-, -, -, -, hcop⟩ | ⟨hinv, -⟩
    · exact absurd hcop hnot
    · refine failsWith_of_ruleOf .noinv ?_
      rw [ruleOf, gfInvRule_of_checks ⟨hlen, ha, hmod, hdst⟩, require_bind_of_true (decide_eq_true hdeg), hinv]
      rfl
  case param =>
    refine failsWith_of_ruleOf .param ?_
    rw [ruleOf, gfInvRule_of_checks ⟨hlen, ha, hmod, hdst⟩]
    exact require_bind_of_false fun hge => absurd (of_decide_eq_true hge) (Int.not_le.2 hdeg)
  case range =>
    exact failsWith_of_ruleOf .range (require_require_of_not_and (mt (gfInv_checks_iff s dst a modulus n).1 hbad))

end Sys2Proof.Machine
end

section
/-! SUPPORT. What every statement about a point command rests on: the checks its rule begins with, in their order, what the
rule does once they pass, and what a completion that stages a packed point leaves (41_ec_point section 2). -/

namespace Sys2Proof.Machine

/-! ### The curve context (41_ec_point R140, R141) -/

section
variable {s : State} {crv : CurveRegs}

/-- With consistent curve registers, only the record's region is left to check (41_ec_point R140). -/
theorem State.curveGeom_of_consistent (h : CurveRegsConsistent s crv) :
    s.curveGeom crv = require (s.inRange crv.base (7 * s.cfg.capBytes)) .range := by
  obtain ⟨hfsb, hcap, hm, hsize⟩ := h
  have hlength : (decide (1 ≤ crv.fsb) && decide (crv.fsb ≤ s.cfg.capBytes)) = true := by simp [hfsb, hcap]
  have hdegree : (decide (1 ≤ crv.m) && decide (crv.fsb = crv.m >>> 3 + 1)) = true := by simp [hm, ← hsize]
  unfold State.curveGeom
  rw [require_bind_of_true hlength, require_bind_of_true hdegree]

/-- Inconsistent curve registers are PARAM, whichever of the two checks finds them (41_ec_point R140). -/
theorem State.curveGeom_of_not_consistent (h : ¬CurveRegsConsistent s crv) : s.curveGeom crv = .error .param := by
  refine require_require_of_not_and fun hboth => h ?_
  simp only [Bool.and_eq_true, decide_eq_true_eq] at hboth
  obtain ⟨⟨hfsb, hcap⟩, hm, hsize⟩ := hboth
  exact ⟨hfsb, hcap, hm, hsize⟩

theorem State.curveLoad_of_deg_eq (h : deg (s.curveRecord crv).f = crv.m) :
    s.curveLoad crv = .ok (s.curveRecord crv) :=
  (s.curveLoad_eq_ok_iff crv _).2 ⟨h, rfl⟩

theorem State.curveLoad_of_deg_ne (h : deg (s.curveRecord crv).f ≠ crv.m) : s.curveLoad crv = .error .param :=
  require_bind_of_false fun heq => h (of_decide_eq_true heq)

end

/-! ### The shape of a rule that reads a curve (60_exceptions R192) -/

/-- A rule that reads a curve: CurveGeom, the check of its operand regions, CurveLoad, and its computation over the
record. -/
def curveRule (crv : CurveRegs) (s : State) (regions : Bool) (compute : Curve → CmdOutcome) : CmdOutcome := do
  s.curveGeom crv
  require regions .range
  let c ← s.curveLoad crv
  compute c

section
variable {i : Instr} {s : State} {crv : CurveRegs} {regions : Bool} {compute : Curve → CmdOutcome}

/-- With consistent registers, the record's and the operands' regions are two checks with one code. -/
theorem curveRule_of_consistent (h : CurveRegsConsistent s crv) :
    curveRule crv s regions compute =
      (require (s.inRange crv.base (7 * s.cfg.capBytes)) .range >>= fun _ => require regions .range >>= fun _ =>
        s.curveLoad crv >>= compute) := by
  unfold curveRule
  rw [State.curveGeom_of_consistent h]

theorem curveRule_of_not_consistent (h : ¬CurveRegsConsistent s crv) :
    curveRule crv s regions compute = .error .param := by
  unfold curveRule
  rw [State.curveGeom_of_not_consistent h]
  rfl

/-- Consistent registers and regions in range leave CurveLoad and the computation. -/
theorem curveRule_of_inRange (h : CurveRegsConsistent s crv) (hrecord : Fits s crv.base (7 * s.cfg.capBytes))
    (hregions : regions = true) : curveRule crv s regions compute = (s.curveLoad crv >>= compute) := by
  rw [curveRule_of_consistent h]
  exact require_require_of_and ⟨(s.inRange_iff_fits _ _).2 hrecord, hregions⟩

/-- When every check passes, the rule is its computation over the record (41_ec_point R141). -/
theorem curveRule_of_ready (h : CurveReady s crv) (hregions : regions = true) :
    curveRule crv s regions compute = compute (s.curveRecord crv) := by
  obtain ⟨hregs, hrecord, hdeg⟩ := h
  rw [curveRule_of_inRange hregs hrecord hregions, State.curveLoad_of_deg_eq hdeg]
  rfl

/-- The checks of a rule that reads a curve, in the order of 60_exceptions R192. -/
theorem curveChecks_of_curveRule (hrule : ruleOf i s = curveRule crv s regions compute)
    (hregions : regions = true ↔ RegionsFit s i) : CurveChecks i crv s := by
  refine ⟨fun hbad => ?registers, fun hregs hbad => ?range, fun hregs hrecord hfit hdeg => ?degree⟩
  case registers =>
    exact failsWith_of_ruleOf .param (hrule.trans (curveRule_of_not_consistent hbad))
  case range =>
    refine failsWith_of_ruleOf .range ?_
    rw [hrule, curveRule_of_consistent hregs]
    refine require_require_of_not_and fun hboth => hbad ?_
    rwa [s.inRange_iff_fits, hregions] at hboth
  case degree =>
    refine failsWith_of_ruleOf .param ?_
    rw [hrule, curveRule_of_inRange hregs hrecord (hregions.2 hfit), State.curveLoad_of_deg_ne hdeg]
    rfl

/-- A command whose checks pass answers what its computation answers. -/
theorem ruleOf_of_curveRuns (hrule : ruleOf i s = curveRule crv s regions compute)
    (hregions : regions = true ↔ RegionsFit s i) (h : CurveRuns i crv s) :
    ruleOf i s = compute (s.curveRecord crv) := by
  obtain ⟨hready, hfit⟩ := h
  rw [hrule, curveRule_of_ready hready (hregions.2 hfit)]

end

/-! ### The completion that stages a packed point (20_memory R68) -/

/-- The staged bytes of a packed point are its packed bytes, padding included, and no other byte changes. -/
theorem State.completeOk_storesPoint (s : State) (result : Word) (fsb a : Nat) (z : Point) :
    StoresAt s (s.completeOk { result, writes := writePoint fsb a z }) a (packedLen fsb) (pointByte fsb z) := by
  intro x
  refine (s.byte_writeBytes_writePoint fsb a z x).trans ?_
  unfold pointByte packedLen
  by_cases hin : a ≤ x ∧ x < a + (roundUp8 fsb + fsb)
  · rw [if_pos hin]
    by_cases hx : x - a < fsb
    · rw [if_pos hx, if_pos (by omega)]
    · rw [if_neg hx, if_neg (by omega)]
      by_cases hpad : x - a < roundUp8 fsb
      · rw [if_pos hpad, if_pos (by omega)]
      · rw [if_neg hpad, if_neg (by omega), if_pos (by omega), Nat.sub_add_eq]
  · rw [if_neg hin, if_neg (by omega), if_neg (by omega), if_neg (by omega)]

/-- A rule that answers RESULT 0 and a packed point is a command that completes with OK and stores it. -/
theorem storesPoint_of_ruleOf {i : Instr} {s : State} {fsb a : Nat} {z : Point}
    (h : ruleOf i s = .ok { result := 0, writes := writePoint fsb a z }) :
    ∃ t, exec i s = .next t ∧ Completed s t 0 0 ∧ StoresAt s t a (packedLen fsb) (pointByte fsb z) :=
  ⟨_, exec_of_ruleOf_ok h, completed_completeOk s _, s.completeOk_storesPoint 0 fsb a z⟩

/-- A command that reads a curve and computes a point makes its checks; once they pass, it stores the packed point, or
ends with the NOINV of its computation. -/
theorem pointCommand_of_curveRule {i : Instr} {s : State} {crv : CurveRegs} {r : Nat} {regions : Bool}
    (f : Curve → Except CmdError Point)
    (hrule : ruleOf i s =
      curveRule crv s regions fun c => f c >>= fun z => .ok { result := 0, writes := writePoint crv.fsb r z })
    (hregions : regions = true ↔ RegionsFit s i) :
    CurveChecks i crv s ∧
    (CurveRuns i crv s →
      (∀ z, f (s.curveRecord crv) = .ok z →
        ∃ t, exec i s = .next t ∧ Completed s t 0 0 ∧ StoresAt s t r (packedLen crv.fsb) (pointByte crv.fsb z)) ∧
      (f (s.curveRecord crv) = .error .noinv → FailsWith i s 4)) := by
  refine ⟨curveChecks_of_curveRule hrule hregions, fun hruns => ?_⟩
  have hcompute := ruleOf_of_curveRuns hrule hregions hruns
  refine ⟨fun z hz => storesPoint_of_ruleOf ?ok, fun herr => failsWith_of_ruleOf .noinv ?noinv⟩
  case ok =>
    rw [hcompute, hz]
    rfl
  case noinv =>
    rw [hcompute, herr]
    rfl

/-! ### The operand regions of each rule (41_ec_point R150 to R153) -/

theorem ecAdd_regions_iff (s : State) (r p q : Nat) (crv : CurveRegs) :
    (s.inRange p (packedLen crv.fsb) && s.inRange q (packedLen crv.fsb) && s.inRange r (packedLen crv.fsb)) = true ↔
      RegionsFit s (.ecAdd r p q crv) := by
  simp [RegionsFit, regionsOf, s.inRange_iff_fits, and_assoc]

theorem ecDbl_regions_iff (s : State) (r p : Nat) (crv : CurveRegs) :
    (s.inRange p (packedLen crv.fsb) && s.inRange r (packedLen crv.fsb)) = true ↔ RegionsFit s (.ecDbl r p crv) := by
  simp [RegionsFit, regionsOf, s.inRange_iff_fits]

theorem ecMul_regions_iff (s : State) (r p k : Nat) (crv : CurveRegs) :
    (s.inRange p (packedLen crv.fsb) && s.inRange k crv.fsb && s.inRange r (packedLen crv.fsb)) = true ↔
      RegionsFit s (.ecMul r p k crv) := by
  simp [RegionsFit, regionsOf, s.inRange_iff_fits, and_assoc]

theorem ecOncurve_regions_iff (s : State) (p : Nat) (crv : CurveRegs) :
    s.inRange p (packedLen crv.fsb) = true ↔ RegionsFit s (.ecOncurve p crv) := by
  simp [RegionsFit, regionsOf, s.inRange_iff_fits]

/-! ### Curve membership (41_ec_point R147) -/

/-- `on_curve` written out with products and remainders; the coefficient b enters unreduced (41_ec_point R147). -/
theorem onCurve_iff (c : Curve) (p : Point) :
    onCurve c p = true ↔
      (p.x = 0 ∧ p.y = 0) ∨
        pmod (clmul p.y p.y) c.f ^^^ pmod (clmul p.x p.y) c.f =
          pmod (clmul (pmod (clmul p.x p.x) c.f) p.x) c.f ^^^ pmod (clmul c.a (pmod (clmul p.x p.x) c.f)) c.f ^^^ c.b := by
  simp [onCurve, Point.isInf, feSqr, feMul]

end Sys2Proof.Machine
end

section
/-! The statements of 41_ec_point section 2: each point command's words, checks, result, frame and errors. -/

namespace Sys2Proof.Machine

/-- Settles O51: EC_ADD is the command that reads a curve and computes the sum. -/
theorem ecAddCommand : Obligations.EcAddCommand := by
  unfold Obligations.EcAddCommand
  refine ⟨fun c hcmd => decode_of_row hcmd rfl rfl, fun r p q crv s => ?_⟩
  exact pointCommand_of_curveRule (fun c => ecPlus c (s.readPoint crv.fsb p) (s.readPoint crv.fsb q)) rfl
    (ecAdd_regions_iff s r p q crv)

/-- Settles O52: EC_DBL is the command that reads a curve and computes the double. -/
theorem ecDblCommand : Obligations.EcDblCommand := by
  unfold Obligations.EcDblCommand
  refine ⟨fun c hcmd => decode_of_row hcmd rfl rfl, fun r p crv s => ?_⟩
  exact pointCommand_of_curveRule (fun c => ecDouble c (s.readPoint crv.fsb p)) rfl (ecDbl_regions_iff s r p crv)

/-- Settles O53: EC_MUL is the command that reads a curve and computes the multiple by the FSB-byte scalar. -/
theorem ecMulCommand : Obligations.EcMulCommand := by
  unfold Obligations.EcMulCommand
  refine ⟨fun c hcmd => decode_of_row hcmd rfl rfl, fun r p k crv s => ?_⟩
  exact pointCommand_of_curveRule (fun c => ecTimes c (s.readPoint crv.fsb p) (s.fe k crv.fsb)) rfl
    (ecMul_regions_iff s r p k crv)

/-- Settles O54: after the checks the command always completes with OK, and RESULT is the flag of membership. -/
theorem ecOncurveCommand : Obligations.EcOncurveCommand := by
  unfold Obligations.EcOncurveCommand
  refine ⟨fun c hcmd => decode_of_row hcmd rfl rfl, fun p crv s => ?_⟩
  have hrule : ruleOf (.ecOncurve p crv) s = curveRule crv s (s.inRange p (packedLen crv.fsb)) fun c =>
      .ok { result := flagWord (onCurve c (s.readPoint crv.fsb p)), writes := [] } := rfl
  have hregions := ecOncurve_regions_iff s p crv
  refine ⟨curveChecks_of_curveRule hrule hregions, fun hruns => ?_⟩
  have hanswer := ruleOf_of_curveRuns hrule hregions hruns
  have hcompleted := completed_completeOk s
    { result := flagWord (onCurve (s.curveRecord crv) (s.readPoint crv.fsb p)), writes := [] }
  have hmember := onCurve_iff (s.curveRecord crv) (s.readPoint crv.fsb p)
  refine ⟨_, exec_of_ruleOf_ok hanswer, s.completeOk_sameBytes _, fun hon => ?member, fun hoff => ?outside⟩
  case member =>
    rw [hmember.2 hon] at hcompleted ⊢
    exact hcompleted
  case outside =>
    rw [Bool.eq_false_iff.2 (mt hmember.1 hoff)] at hcompleted ⊢
    exact hcompleted

end Sys2Proof.Machine
end

section
/-! SUPPORT. What the statement about ECDH_VALIDATE rests on: when a key is accepted, and what a command leaves whose
rule answers a flag and stages no byte (42_ecdh R171). -/

namespace Sys2Proof.Machine

/-! ### The checks of a public key (42_ecdh R171) -/

theorem Point.isInf_iff (p : Point) : p.isInf = true ↔ p = Point.infinity := by
  cases p
  simp [Point.isInf, Point.infinity]

/-- Validation answers a flag for every key, and the flag is 1 exactly if the three checks pass; a multiple that raises
NOINV fails the last one (60_exceptions R196). -/
theorem acceptKey_spec (c : Curve) (p : Point) :
    ∃ accepted, acceptKey c p = .ok accepted ∧
      (accepted = true ↔ p.isInf = false ∧ onCurve c p = true ∧ ecTimes c p c.order = .ok Point.infinity) := by
  refine ⟨_, acceptKey_eq_ok c p, ?_⟩
  cases ecTimes c p c.order with
  | ok z => simp [Point.isInf_iff, and_assoc]
  | error e => simp

theorem ecdhValidate_regions_iff (s : State) (pub : Nat) (crv : CurveRegs) :
    s.inRange pub (packedLen crv.fsb) = true ↔ RegionsFit s (.ecdhValidate pub crv) := by
  simp [RegionsFit, regionsOf, s.inRange_iff_fits]

/-! ### The completion that answers a flag (10_state R42) -/

/-- A rule that answers a flag and stages no byte is a command that completes with OK, keeps every byte and has RESULT 1
or 0 by the condition the flag stands for. -/
theorem answersFlag_of_ruleOf {i : Instr} {s : State} {flag : Bool} {P : Prop}
    (h : ruleOf i s = .ok { result := flagWord flag, writes := [] }) (hflag : flag = true ↔ P) :
    ∃ t, exec i s = .next t ∧ SameBytes s t ∧ (P → Completed s t 0 1) ∧ (¬P → Completed s t 0 0) := by
  have hcompleted := completed_completeOk s { result := flagWord flag, writes := [] }
  refine ⟨_, exec_of_ruleOf_ok h, s.completeOk_sameBytes _, fun hP => ?one, fun hP => ?zero⟩
  case one =>
    obtain rfl : flag = true := hflag.2 hP
    exact hcompleted
  case zero =>
    obtain rfl : flag = false := Bool.eq_false_iff.2 (mt hflag.1 hP)
    exact hcompleted

end Sys2Proof.Machine
end

section
/-! The statement of 42_ecdh R171: the words, checks, answer and frame of ECDH_VALIDATE. -/

namespace Sys2Proof.Machine

/-- Settles O56: ECDH_VALIDATE is the command that reads a curve and answers whether the key is accepted. -/
theorem ecdhValidateCommand : Obligations.EcdhValidateCommand := by
  unfold Obligations.EcdhValidateCommand
  refine ⟨fun c hcmd => decode_of_row hcmd rfl rfl, fun pub crv s => ?_⟩
  have hrule : ruleOf (.ecdhValidate pub crv) s = curveRule crv s (s.inRange pub (packedLen crv.fsb)) fun c =>
      acceptKey c (s.readPoint crv.fsb pub) >>= fun accepted =>
        .ok { result := flagWord accepted, writes := [] } := rfl
  have hregions := ecdhValidate_regions_iff s pub crv
  refine ⟨curveChecks_of_curveRule hrule hregions, fun hruns => ?_⟩
  obtain ⟨accepted, haccept, hchecks⟩ := acceptKey_spec (s.curveRecord crv) (s.readPoint crv.fsb pub)
  refine answersFlag_of_ruleOf (flag := accepted) ?_ hchecks
  rw [ruleOf_of_curveRuns hrule hregions hruns, haccept]
  rfl

end Sys2Proof.Machine
end

section
/-! SUPPORT. What the statement about error completions rests on: every command ends in one completion, and a completion
with a nonzero code is an error completion (10_state R42, 60_exceptions R193). -/

namespace Sys2Proof.Machine

/-- A command, decoded or as nine words, ends in the completion of some rule outcome (10_state R42). -/
theorem exists_complete_of_completes {s t : State}
    (h : (∃ i, exec i s = .next t) ∨ ∃ c, runCommand c s = .next t) : ∃ o, t = s.complete o := by
  rcases h with ⟨i, hexec⟩ | ⟨c, hrun⟩
  · rw [exec_eq_complete] at hexec
    exact ⟨ruleOf i s, (Host.Outcome.next.inj hexec).symm⟩
  · rw [runCommand_eq_complete] at hrun
    exact ⟨commandRule c s, (Host.Outcome.next.inj hrun).symm⟩

/-- An OK completion has code 0, so a nonzero code comes from an error completion (60_exceptions R193). -/
theorem exists_error_of_complete_errCode_ne_zero {s : State} {o : CmdOutcome} (h : (s.complete o).errCode ≠ 0) :
    ∃ e, o = .error e := by
  cases o with
  | ok r => exact absurd (s.completeOk_errCode r) h
  | error e => exact ⟨e, rfl⟩

end Sys2Proof.Machine
end

section
/-! The statement of 60_exceptions R195: an error completion is precise. -/

namespace Sys2Proof.Machine

/-- Settles O29: the completion is that of an error, which stages no byte and sets only RESULT and the fields of STATUS. -/
theorem errorCompletionIsPrecise : Obligations.ErrorCompletionIsPrecise := by
  unfold Obligations.ErrorCompletionIsPrecise
  intro s t hcompletes hcode
  obtain ⟨o, rfl⟩ := exists_complete_of_completes hcompletes
  obtain ⟨e, rfl⟩ := exists_error_of_complete_errCode_ne_zero hcode
  rw [State.complete_error, State.completeError_errCode, State.completeError]

end Sys2Proof.Machine
end

section
/-! SUPPORT. The registers that hold a command's operands (30_encoding R93, R94): which command words decode to which
instruction once CMD and the operand registers are loaded. -/

namespace Sys2Proof.Machine

/-! ### Operands as register values (30_encoding R94) -/

theorem operandFits_iff (v : Nat) : operandFits v = true ↔ v < 2 ^ 32 := decide_eq_true_iff

@[simp] theorem operandFits_toNat (w : Word) : operandFits w.toNat = true := (operandFits_iff _).2 w.isLt

/-- A register loaded with a 32-bit operand reads that operand. -/
theorem toNat_operandWord {v : Nat} (h : operandFits v = true) : (operandWord v).toNat = v := by
  rw [operandWord, BitVec.toNat_ofNat, Nat.mod_eq_of_lt ((operandFits_iff v).1 h)]

@[simp] theorem curveOperands_fits (c : Command) : (curveOperands c).fits = true := by
  simp [CurveRegs.fits, curveOperands]

theorem curveOperands_withCurve {crv : CurveRegs} (h : crv.fits = true) (c : Command) :
    curveOperands (withCurve c crv) = crv := by
  simp only [CurveRegs.fits, Bool.and_eq_true] at h
  obtain ⟨⟨hbase, hfsb⟩, hm⟩ := h
  simp only [curveOperands, withCurve, toNat_operandWord hbase, toNat_operandWord hfsb, toNat_operandWord hm]

theorem fits_of_curveOf {i : Instr} {crv : CurveRegs} (hwf : i.wellFormed = true) (h : curveOf i = some crv) :
    crv.fits = true := by
  cases i <;> simp_all [curveOf, Instr.wellFormed]

/-! ### Loading operand registers -/

/-- The nine registers after a write of one of them (10_state R35). -/
def loadReg (c : Command) (r : Reg) (data : Word) : Command :=
  (State.writeReg { State.reset with regs := c } r data).regs

/-- The nine registers after writes of some of them, in order. -/
def loadRegs (c : Command) (ws : List (Reg × Nat)) : Command :=
  ws.foldl (fun c w => loadReg c w.1 (operandWord w.2)) c

/-- The operands of a command other than its curve operands, each with its register (30_encoding R93). -/
def operandsOf : Instr → List (Reg × Nat)
  | .gfDeg src n => [(.arg1, src), (.len, n)]
  | .gfMul dst a b n => [(.arg0, dst), (.arg1, a), (.arg2, b), (.len, n)]
  | .gfRed poly modulus n n2 => [(.arg0, poly), (.arg1, modulus), (.len, n), (.len2, n2)]
  | .gfShl dst src n count => [(.arg0, dst), (.arg1, src), (.len, n), (.len2, count)]
  | .gfInv dst a modulus n => [(.arg0, dst), (.arg1, a), (.arg2, modulus), (.len, n)]
  | .ecAdd r p q _ => [(.arg0, r), (.arg1, p), (.arg2, q)]
  | .ecDbl r p _ => [(.arg0, r), (.arg1, p)]
  | .ecMul r p k _ => [(.arg0, r), (.arg1, p), (.arg2, k)]
  | .ecOncurve p _ => [(.arg1, p)]
  | .ecdhGenpub pub d _ => [(.arg0, pub), (.arg1, d)]
  | .ecdhValidate pub _ => [(.arg1, pub)]
  | .ecdhShared secret d peer _ => [(.arg0, secret), (.arg1, d), (.arg2, peer)]

/-- A command's encoding is its command word with the curve operands and then the other operands loaded
(30_encoding R93). -/
theorem encode_eq_loadRegs (i : Instr) :
    encode i = loadRegs ((curveOf i).elim (bareCommand (commandWord i)) (withCurve (bareCommand (commandWord i))))
      (operandsOf i) := by
  cases i <;> rfl

/-- Registers whose CMD is the word of a well-formed command and whose curve registers hold its curve operands decode to
it once the other operands are loaded; the rest of what they held does not matter (30_encoding R93, R95). -/
theorem decode_loadRegs {i : Instr} {c : Command} (hwf : i.wellFormed = true) (hcmd : c.cmd = commandWord i)
    (hcurve : ∀ crv, curveOf i = some crv → curveOperands c = crv) :
    decode (loadRegs c (operandsOf i)) = .ok i := by
  have hres := Laws.reservedField_zext (opcodeOf i)
  have hop := Laws.opcodeField_zext (opcodeOf i)
  have hword : (loadRegs c (operandsOf i)).cmd = commandWord i := by
    rw [← hcmd]
    cases i <;> rfl
  refine decode_of_row hword hres ?_
  rw [commandWord, hop]
  cases i
  case gfDeg | gfMul | gfRed | gfShl | gfInv =>
    simp only [Instr.wellFormed, Bool.and_eq_true] at hwf
    simp [decodeOpcode, opcodeOf, operandsOf, loadRegs, loadReg, State.writeReg, toNat_operandWord, hwf]
  all_goals
    simp only [Instr.wellFormed, Bool.and_eq_true] at hwf
    obtain rfl := hcurve _ rfl
    simp [decodeOpcode, opcodeOf, operandsOf, loadRegs, loadReg, State.writeReg, toNat_operandWord, hwf, curveOperands]

/-- What decodes has registers' values for operands (30_encoding R94). -/
theorem wellFormed_of_decode {c : Command} {i : Instr} (h : decode c = .ok i) : i.wellFormed = true := by
  obtain ⟨-, hrow⟩ := (decode_eq_ok_iff c i).1 h
  unfold decodeOpcode at hrow
  split at hrow <;> cases hrow <;> simp [Instr.wellFormed]

end Sys2Proof.Machine
end

section
/-! The statements of 30_encoding about the encoder. -/

namespace Sys2Proof.Machine

/-- Settles O1: the encoding is the command word with the operands loaded, and what is loaded decodes. -/
theorem decodeInvertsEncode : Obligations.DecodeInvertsEncode := by
  unfold Obligations.DecodeInvertsEncode
  intro i hwf
  rw [encode_eq_loadRegs]
  refine decode_loadRegs hwf ?cmd fun crv hcrv => ?curve
  case cmd => cases curveOf i <;> rfl
  case curve =>
    rw [hcrv]
    exact curveOperands_withCurve (fits_of_curveOf hwf hcrv) _

/-- Settles O5: operands read from registers fit them, and CMD decides the instruction's word. -/
theorem decodedCommandsReencode : Obligations.DecodedCommandsReencode := by
  unfold Obligations.DecodedCommandsReencode
  intro c i hdec
  have hwf := wellFormed_of_decode hdec
  have hword : (encode i).cmd = commandWord i := by cases i <;> rfl
  exact ⟨hwf, hword.trans (cmd_eq_commandWord_of_decode hdec).symm, decodeInvertsEncode i hwf⟩

/-- Settles O4: each word computes to its row of 30_encoding R92, or to none. -/
theorem specWordsDecode : Obligations.SpecWordsDecode := by
  unfold Obligations.SpecWordsDecode
  decide

end Sys2Proof.Machine
end

section
/-! SUPPORT. The step, one equation per first event of the agenda, and what each agent's step keeps (00_scope R8). -/

namespace Sys2Proof.Machine

/-! ### The step of each event (00_scope R8, 70_reset R220) -/

section
variable {s : State} {rest : List Event}

theorem State.advance_of_agenda {e : Event} (h : s.agenda = e :: rest) :
    s.advance = { s with agenda := rest, portData := none } := by
  rw [State.advance, h, List.tail_cons]

theorem step_of_bus {tr : Transaction} (h : s.agenda = .bus tr :: rest) : step s = .next (s.advance.transact tr) := by
  rw [step, nextTurn, h]
  rfl

theorem step_of_reset (h : s.agenda = .reset :: rest) : step s = .next s.advance.applyReset := by
  rw [step, nextTurn, h]
  rfl

theorem step_of_engineTurn (h : s.agenda = [] ∨ ∃ rest, s.agenda = .engine :: rest) :
    step s = engineTurn s.advance := by
  rcases h with h | ⟨rest, h⟩
  · rw [step, nextTurn, h]
  · rw [step, nextTurn, h]
    rfl

end

theorem engineTurn_of_idle {s : State} (h : s.engine = .idle) : engineTurn s = .next s := by
  rw [engineTurn, (s.fetch_eq_none_iff).2 h]

theorem engineTurn_of_busy {s : State} {c : Command} (h : s.engine = .busy c) : engineTurn s = runCommand c s := by
  rw [engineTurn, (s.fetch_eq_some_iff c).2 h]

/-! ### What a transaction keeps -/

theorem State.busRead_cfg (s : State) (addr : Addr) : (s.busRead addr).2.cfg = s.cfg := by
  rcases s.busRead_cases addr with h | h <;> rw [h]
  rfl

theorem State.busWrite_cfg (s : State) (addr : Addr) (data : Word) : (s.busWrite addr data).cfg = s.cfg := by
  rcases s.busWrite_cases addr data with h | ⟨r, -, h⟩ | ⟨o, -, -, h⟩ <;> rw [h]
  · rfl
  · exact s.writeReg_cfg r data
  · rfl

@[simp] theorem State.transact_cfg (s : State) (tr : Transaction) : (s.transact tr).cfg = s.cfg := by
  cases tr with
  | read addr => exact s.busRead_cfg addr
  | write addr data => exact s.busWrite_cfg addr data

theorem State.busRead_agenda (s : State) (addr : Addr) : (s.busRead addr).2.agenda = s.agenda := by
  rcases s.busRead_cases addr with h | h <;> rw [h]
  rfl

theorem State.busWrite_agenda (s : State) (addr : Addr) (data : Word) : (s.busWrite addr data).agenda = s.agenda := by
  rcases s.busWrite_cases addr data with h | ⟨r, -, h⟩ | ⟨o, -, -, h⟩ <;> rw [h]
  · rfl
  · exact s.writeReg_agenda r data
  · rfl

@[simp] theorem State.transact_agenda (s : State) (tr : Transaction) : (s.transact tr).agenda = s.agenda := by
  cases tr with
  | read addr => exact s.busRead_agenda addr
  | write addr data => exact s.busWrite_agenda addr data

/-- A register write leaves a command in flight alone: a START while BUSY is refused (10_state R25, R35). -/
theorem State.writeReg_engine_of_busy {s : State} {c : Command} (h : s.engine = .busy c) (r : Reg) (data : Word) :
    (s.writeReg r data).engine = .busy c := by
  cases r
  case ctrl =>
    cases h0 : data.getLsbD 0 with
    | false => rw [State.writeReg, State.ctrlWrite_of_noStart h0, State.setIrqEn_engine, h]
    | true => rw [State.writeReg, State.ctrlWrite_of_start_busy h0 h, State.setAccErr_engine, State.setIrqEn_engine, h]
  all_goals exact h

/-- No transaction disturbs a command in flight (10_state R41). -/
theorem State.transact_engine_of_busy {s : State} {c : Command} (h : s.engine = .busy c) (tr : Transaction) :
    (s.transact tr).engine = .busy c := by
  cases tr with
  | read addr =>
    change (s.busRead addr).2.engine = _
    rcases s.busRead_cases addr with hr | hr <;> rw [hr] <;> exact h
  | write addr data =>
    change (s.busWrite addr data).engine = _
    rcases s.busWrite_cases addr data with hw | ⟨r, -, hw⟩ | ⟨o, -, hidle, -⟩
    · rw [hw]
      exact h
    · rw [hw]
      exact State.writeReg_engine_of_busy h r data
    · rw [hidle] at h
      cases h

/-- No transaction changes an OPMEM byte while a command is in flight (20_memory R62). -/
theorem State.transact_sameBytes_of_busy {s : State} {c : Command} (h : s.engine = .busy c) (tr : Transaction) :
    SameBytes s (s.transact tr) := by
  intro x
  by_contra hne
  obtain ⟨addr, data, o, -, -, hidle, -⟩ := State.transact_byte_ne hne
  rw [hidle] at h
  cases h

/-! ### Runs -/

theorem run_zero (s : State) : Host.Core.run Sys2Proof.core 0 s = .next s := rfl

theorem core_run_succ {M : Host.Core} {s t : M.State} (h : M.step s = .next t) (k : Nat) :
    M.run (k + 1) s = M.run k t := by
  rw [Host.Core.run, h]

theorem run_succ {s t : State} (h : step s = .next t) (k : Nat) :
    Host.Core.run Sys2Proof.core (k + 1) s = Host.Core.run Sys2Proof.core k t :=
  core_run_succ (M := Sys2Proof.core) h k

/-- While BUSY with no reset to come, the host's transactions are used up until it is the engine's turn, and the command
in flight and the bytes it reads stay (10_state R41, R42). -/
theorem exists_run_to_engineTurn {s : State} {c : Command} (hbusy : s.engine = .busy c) (hreset : .reset ∉ s.agenda) :
    ∃ (k : Nat) (u : State), k ≤ s.agenda.length ∧ Host.Core.run Sys2Proof.core k s = .next u ∧
      u.engine = .busy c ∧ SameBytes s u ∧ u.cfg = s.cfg ∧ (u.agenda = [] ∨ ∃ rest, u.agenda = .engine :: rest) := by
  induction hagenda : s.agenda generalizing s with
  | nil => exact ⟨0, s, Nat.le_refl 0, run_zero s, hbusy, fun _ => rfl, rfl, .inl hagenda⟩
  | cons e rest ih =>
    cases e with
    | reset => exact absurd (hagenda ▸ List.mem_cons_self) hreset
    | engine => exact ⟨0, s, Nat.zero_le _, run_zero s, hbusy, fun _ => rfl, rfl, .inr ⟨rest, hagenda⟩⟩
    | bus tr =>
      have hrest : (s.advance.transact tr).agenda = rest := by
        rw [State.transact_agenda, State.advance_agenda, hagenda, List.tail_cons]
      have hadvance : s.advance.engine = .busy c := hbusy
      obtain ⟨k, u, hk, hrun, hengine, hbytes, hcfg, hturn⟩ :=
        ih (s := s.advance.transact tr) (State.transact_engine_of_busy hadvance tr)
          (fun hmem => hreset (hagenda ▸ List.mem_cons_of_mem _ (hrest ▸ hmem))) hrest
      refine ⟨k + 1, u, Nat.succ_le_succ hk, ?_, hengine, fun x => ?_, ?_, hturn⟩
      · rw [run_succ (step_of_bus hagenda), hrun]
      · rw [hbytes x, State.transact_sameBytes_of_busy hadvance tr x, State.advance_byte]
      · rw [hcfg, State.transact_cfg, State.advance_cfg]

end Sys2Proof.Machine
end

section
/-! The statements about the step and the engine (00_scope R8, 10_state R40 to R42), and about reset (10_state R45). -/

namespace Sys2Proof.Machine

/-- Settles O6: the engine's turn runs the snapshot, which decodes to the instruction. -/
theorem stepRunsTheDecodedCommand : Obligations.StepRunsTheDecodedCommand := by
  unfold Obligations.StepRunsTheDecodedCommand
  intro s c i hbusy hdec hturn
  rw [step_of_engineTurn hturn, engineTurn_of_busy (s := s.advance) hbusy, runCommand, hdec]
  rfl

/-- Settles O7: the step of each event, on the state that has taken the event off its agenda. -/
theorem stepTakesTheFirstEvent : Obligations.StepTakesTheFirstEvent := by
  unfold Obligations.StepTakesTheFirstEvent
  intro s rest
  refine ⟨fun addr h => ?read, fun addr data h => ?write, fun h => ?reset, fun h hidle => ?slot, fun h hidle => ?wait⟩
  case read =>
    rw [step_of_bus h, State.advance_of_agenda h]
    rfl
  case write =>
    rw [step_of_bus h, State.advance_of_agenda h]
    rfl
  case reset => rw [step_of_reset h, State.advance_of_agenda h]
  case slot =>
    rw [step_of_engineTurn (.inr ⟨rest, h⟩), engineTurn_of_idle (s := s.advance) hidle, State.advance_of_agenda h]
  case wait =>
    rw [step_of_engineTurn (.inl h), engineTurn_of_idle (s := s.advance) hidle, State.advance, h, List.tail_nil]

/-- Settles O8, by the first event of the agenda; at the engine's turn every command completes. -/
theorem machineNeverStops : Obligations.MachineNeverStops := by
  unfold Obligations.MachineNeverStops
  intro s
  have hturn : ∃ t, engineTurn s.advance = .next t := by
    cases hengine : s.engine with
    | idle => exact ⟨_, engineTurn_of_idle (s := s.advance) hengine⟩
    | busy c => exact ⟨_, (engineTurn_of_busy (s := s.advance) hengine).trans (runCommand_eq_complete c s.advance)⟩
  cases hagenda : s.agenda with
  | nil => rwa [step_of_engineTurn (.inl hagenda)]
  | cons e rest =>
    cases e with
    | bus tr => exact ⟨_, step_of_bus hagenda⟩
    | engine => rwa [step_of_engineTurn (.inr ⟨rest, hagenda⟩)]
    | reset => exact ⟨_, step_of_reset hagenda⟩

/-- Settles O9: the run reaches the engine's turn, and there the step runs the snapshot. -/
theorem commandInFlightCompletes : Obligations.CommandInFlightCompletes := by
  unfold Obligations.CommandInFlightCompletes
  intro s c hbusy hreset
  obtain ⟨k, u, hk, hrun, hengine, hbytes, hcfg, hturn⟩ := exists_run_to_engineTurn hbusy hreset
  have hrule := runCommand_eq_complete c u.advance
  refine ⟨k, u, _, hk, hrun, hengine, hbytes, hcfg, ?_, hrule⟩
  rw [step_of_engineTurn hturn, engineTurn_of_busy (s := u.advance) hengine, hrule]

/-- Settles O27: each of the three kinds of step keeps the build. -/
theorem buildConstantsNeverChange : Obligations.BuildConstantsNeverChange := by
  unfold Obligations.BuildConstantsNeverChange
  intro s t hstep
  have hcfg : t.cfg = s.cfg := by
    rcases step_cases hstep with ⟨tr, rest, -, ht⟩ | ⟨rest, -, ht⟩ | ⟨-, ⟨-, ht⟩ | ⟨c, i, -, -, ht⟩ | ⟨c, e, -, -, ht⟩⟩
    · rw [ht, State.transact_cfg, State.advance_cfg]
    · rw [ht, State.applyReset_cfg, State.advance_cfg]
    · rw [ht, State.advance_cfg]
    · rw [ht, State.complete_cfg, State.advance_cfg]
    · rw [ht, State.complete_cfg, State.advance_cfg]
  simp only [State.readReg, hcfg, and_self]

/-- Settles O24: after a reset nothing is known of OPMEM, and every register but the two constants is 0. -/
theorem resetStepValues : Obligations.ResetStepValues := by
  unfold Obligations.ResetStepValues
  intro s rest hagenda
  refine ⟨_, step_of_reset hagenda, rfl, rfl, rfl, fun r hcaps hsize => ?_, rfl, rfl, fun x => rfl,
    Nat.succ_ne_self s.draw⟩
  cases r
  case caps | opmemSize => contradiction
  case status => simp [State.readReg, State.statusWord, State.busy, flagWord]
  all_goals rfl

end Sys2Proof.Machine
end

section
/-! SUPPORT. What a command's rule can answer: the regions it has checked and the bytes it stages when it answers, and
the codes it can end with (60_exceptions R190 to R194). -/

namespace Sys2Proof.Machine

/-! ### The two checks of a field command's rule and the checks of a curve rule -/

section
variable {α : Type} {b b' : Bool} {e e' err : CmdError} {k : Unit → Except CmdError α} {r : α}

theorem require_require_eq_ok :
    (require b e >>= fun _ => require b' e' >>= k) = .ok r ↔ (b = true ∧ b' = true) ∧ k () = .ok r := by
  rw [require_bind_eq_ok, require_bind_eq_ok, and_assoc]

theorem require_require_eq_error (h : (require b e >>= fun _ => require b' e >>= k) = .error err) :
    err = e ∨ k () = .error err := by
  rw [require_bind_eq_error, require_bind_eq_error] at h
  rcases h with ⟨-, h⟩ | ⟨-, ⟨-, h⟩ | ⟨-, h⟩⟩
  · exact .inl h.symm
  · exact .inl h.symm
  · exact .inr h

end

/-- CurveGeom's only errors are PARAM and RANGE (41_ec_point R140). -/
theorem State.curveGeom_error {s : State} {crv : CurveRegs} {e : CmdError} (h : s.curveGeom crv = .error e) :
    e = .param ∨ e = .range := by
  by_cases hregs : CurveRegsConsistent s crv
  · rw [State.curveGeom_of_consistent hregs, require] at h
    split at h <;> cases h
    exact .inr rfl
  · rw [State.curveGeom_of_not_consistent hregs] at h
    cases h
    exact .inl rfl

section
variable {crv : CurveRegs} {s : State} {regions : Bool} {compute : Curve → CmdOutcome}

theorem curveRule_eq_ok {r : CmdResult} (h : curveRule crv s regions compute = .ok r) :
    regions = true ∧ ∃ c, compute c = .ok r := by
  unfold curveRule at h
  obtain ⟨-, -, h⟩ := bind_eq_ok.1 h
  obtain ⟨hregions, h⟩ := require_bind_eq_ok.1 h
  obtain ⟨c, -, h⟩ := bind_eq_ok.1 h
  exact ⟨hregions, c, h⟩

/-- The checks of a curve rule are PARAM or RANGE; every other error is its computation's. -/
theorem curveRule_eq_error {e : CmdError} (h : curveRule crv s regions compute = .error e) :
    e = .range ∨ e = .param ∨ ∃ c, compute c = .error e := by
  unfold curveRule at h
  rcases bind_eq_error.1 h with h | ⟨-, -, h⟩
  · exact (State.curveGeom_error h).elim (fun h => .inr (.inl h)) .inl
  rcases require_bind_eq_error.1 h with ⟨-, h⟩ | ⟨-, h⟩
  · exact .inl h.symm
  rcases bind_eq_error.1 h with h | ⟨c, -, h⟩
  · exact .inr (.inl (State.curveLoad_error h).1)
  · exact .inr (.inr ⟨c, h⟩)

end

/-! ### The rules that read a curve, in their common shape (60_exceptions R192) -/

theorem ecdhGenpub_regions_iff (s : State) (pub d : Nat) (crv : CurveRegs) :
    (s.inRange d crv.fsb && s.inRange pub (packedLen crv.fsb)) = true ↔ RegionsFit s (.ecdhGenpub pub d crv) := by
  simp [RegionsFit, regionsOf, s.inRange_iff_fits]

theorem ecdhShared_regions_iff (s : State) (secret d peer : Nat) (crv : CurveRegs) :
    (s.inRange d crv.fsb && s.inRange peer (packedLen crv.fsb) && s.inRange secret crv.fsb) = true ↔
      RegionsFit s (.ecdhShared secret d peer crv) := by
  simp [RegionsFit, regionsOf, s.inRange_iff_fits, and_assoc]

/-! ### What a rule that answers has checked and stages (20_memory R65, 60_exceptions R194) -/

/-- The byte lists a command can stage: none, a field element, or a packed point, in one of its operand regions. -/
inductive Stages (i : Instr) : List Host.Cell → Prop where
  | nothing : Stages i []
  | element {a n : Nat} (p : Nat) (h : (a, n) ∈ regionsOf i) : Stages i (writeFE a n p)
  | point {a fsb : Nat} (p : Point) (h : (a, packedLen fsb) ∈ regionsOf i) : Stages i (writePoint fsb a p)

/-- A staged byte lies in an operand region. -/
theorem Stages.exists_region {i : Instr} {cells : List Host.Cell} (h : Stages i cells) {c : Host.Cell}
    (hc : c ∈ cells) :
    ∃ g ∈ regionsOf i, InRegion g.1 g.2 c.1 := by
  cases h with
  | nothing => cases hc
  | element p h => exact ⟨_, h, mem_bytesAt hc⟩
  | point p h => exact ⟨_, h, mem_writePoint hc⟩

/-- A command that reads a curve and computes one value has checked its regions when it answers, and stages what that
value makes it stage. -/
theorem stages_of_curveRule {β : Type} {i : Instr} {crv : CurveRegs} {s : State} {regions : Bool}
    {f : Curve → Except CmdError β} {g : β → CmdResult} {r : CmdResult}
    (h : curveRule crv s regions (fun c => f c >>= fun z => .ok (g z)) = .ok r)
    (hregions : regions = true ↔ RegionsFit s i) (hstages : ∀ z, Stages i (g z).writes) :
    RegionsFit s i ∧ Stages i r.writes := by
  obtain ⟨hfit, c, hcompute⟩ := curveRule_eq_ok h
  obtain ⟨z, -, hok⟩ := bind_eq_ok.1 hcompute
  cases hok
  exact ⟨hregions.1 hfit, hstages z⟩

/-- A rule that answers has checked every operand region, and stages one field element, one packed point, or nothing. -/
theorem ruleOf_eq_ok {i : Instr} {s : State} {r : CmdResult} (h : ruleOf i s = .ok r) :
    RegionsFit s i ∧ Stages i r.writes := by
  cases i with
  | gfDeg src n =>
    obtain ⟨hchecks, hok⟩ := require_require_eq_ok.1 h
    rw [gfDeg_checks_iff] at hchecks
    cases hok
    exact ⟨by simp [RegionsFit, regionsOf, hchecks], .nothing⟩
  | gfMul dst a b n =>
    obtain ⟨hchecks, hok⟩ := require_require_eq_ok.1 h
    rw [gfMul_checks_iff] at hchecks
    cases hok
    exact ⟨by simp [RegionsFit, regionsOf, hchecks], .element _ (by simp [regionsOf])⟩
  | gfRed poly modulus n n2 =>
    obtain ⟨hchecks, hrest⟩ := require_require_eq_ok.1 h
    rw [gfRed_checks_iff] at hchecks
    obtain ⟨-, hok⟩ := require_bind_eq_ok.1 hrest
    cases hok
    exact ⟨by simp [RegionsFit, regionsOf, hchecks], .element _ (by simp [regionsOf])⟩
  | gfShl dst src n count =>
    obtain ⟨hchecks, hok⟩ := require_require_eq_ok.1 h
    rw [gfShl_checks_iff] at hchecks
    cases hok
    exact ⟨by simp [RegionsFit, regionsOf, hchecks], .element _ (by simp [regionsOf])⟩
  | gfInv dst a modulus n =>
    obtain ⟨hchecks, hrest⟩ := require_require_eq_ok.1 h
    rw [gfInv_checks_iff] at hchecks
    obtain ⟨-, hrest⟩ := require_bind_eq_ok.1 hrest
    obtain ⟨inv, -, hok⟩ := bind_eq_ok.1 hrest
    cases hok
    exact ⟨by simp [RegionsFit, regionsOf, hchecks], .element _ (by simp [regionsOf])⟩
  | ecAdd r p q crv =>
    exact stages_of_curveRule h (ecAdd_regions_iff s r p q crv) fun z => .point z (by simp [regionsOf])
  | ecDbl r p crv => exact stages_of_curveRule h (ecDbl_regions_iff s r p crv) fun z => .point z (by simp [regionsOf])
  | ecMul r p k crv =>
    exact stages_of_curveRule h (ecMul_regions_iff s r p k crv) fun z => .point z (by simp [regionsOf])
  | ecOncurve p crv =>
    obtain ⟨hregions, c, hok⟩ := curveRule_eq_ok h
    cases hok
    exact ⟨(ecOncurve_regions_iff s p crv).1 hregions, .nothing⟩
  | ecdhGenpub pub d crv =>
    exact stages_of_curveRule h (ecdhGenpub_regions_iff s pub d crv) fun z => .point z (by simp [regionsOf])
  | ecdhValidate pub crv =>
    exact stages_of_curveRule h (ecdhValidate_regions_iff s pub crv) fun _ => .nothing
  | ecdhShared secret d peer crv =>
    exact stages_of_curveRule h (ecdhShared_regions_iff s secret d peer crv) fun z => .element z.x (by simp [regionsOf])

/-! ### The codes a rule can end with (60_exceptions R190) -/

/-- The errors each command can report: RANGE of its checks, PARAM of a modulus or of the curve registers, NOINV of an
inversion (60_exceptions R190, R196). -/
def errorsOf : Instr → List CmdError
  | .gfDeg .. | .gfMul .. | .gfShl .. => [.range]
  | .gfRed .. | .ecOncurve .. | .ecdhValidate .. => [.range, .param]
  | .gfInv .. | .ecAdd .. | .ecDbl .. | .ecMul .. | .ecdhGenpub .. | .ecdhShared .. => [.range, .param, .noinv]

/-- A decoded command never ends with BADOP (60_exceptions R190). -/
theorem badop_not_mem_errorsOf (i : Instr) : .badop ∉ errorsOf i := by cases i <;> simp [errorsOf]

/-- An error of a command that reads a curve and computes one value is RANGE, PARAM, or its computation's. -/
theorem mem_errors_of_curveRule {β : Type} {errs : List CmdError} {crv : CurveRegs} {s : State} {regions : Bool}
    {f : Curve → Except CmdError β} {g : β → CmdResult} {e : CmdError}
    (h : curveRule crv s regions (fun c => f c >>= fun z => .ok (g z)) = .error e)
    (hf : ∀ c, f c = .error e → e ∈ .range :: .param :: errs) : e ∈ .range :: .param :: errs := by
  rcases curveRule_eq_error h with rfl | rfl | ⟨c, hcompute⟩
  · simp
  · simp
  · rcases bind_eq_error.1 hcompute with herr | ⟨z, -, hok⟩
    · exact hf c herr
    · cases hok

/-- A rule that ends in an error ends in one of its command's. -/
theorem ruleOf_eq_error {i : Instr} {s : State} {e : CmdError} (h : ruleOf i s = .error e) : e ∈ errorsOf i := by
  cases i with
  | gfDeg | gfMul | gfShl =>
    rcases require_require_eq_error h with rfl | hrest
    · exact List.mem_singleton_self _
    · cases hrest
  | gfRed =>
    rcases require_require_eq_error h with rfl | hrest
    · simp [errorsOf]
    rcases require_bind_eq_error.1 hrest with ⟨-, rfl⟩ | ⟨-, hrest⟩
    · simp [errorsOf]
    · cases hrest
  | gfInv =>
    rcases require_require_eq_error h with rfl | hrest
    · simp [errorsOf]
    rcases require_bind_eq_error.1 hrest with ⟨-, rfl⟩ | ⟨-, hrest⟩
    · simp [errorsOf]
    rcases bind_eq_error.1 hrest with hinv | ⟨r, -, hrest⟩
    · simp [errorsOf, invEuclid_error hinv]
    · cases hrest
  | ecAdd => exact mem_errors_of_curveRule h fun c hcompute => by simp [ecPlus_error hcompute]
  | ecDbl => exact mem_errors_of_curveRule h fun c hcompute => by simp [ecDouble_error hcompute]
  | ecMul | ecdhGenpub | ecdhShared =>
    exact mem_errors_of_curveRule h fun c hcompute => by simp [ecTimes_error hcompute]
  | ecOncurve =>
    rcases curveRule_eq_error h with rfl | rfl | ⟨c, hcompute⟩
    · simp [errorsOf]
    · simp [errorsOf]
    · cases hcompute
  | ecdhValidate pub crv =>
    exact mem_errors_of_curveRule h fun c hcompute => by
      rw [acceptKey_eq_ok] at hcompute
      cases hcompute

theorem CmdError.code_le (e : CmdError) : e.code.toNat ≤ 4 := by cases e <;> decide

theorem State.complete_code_le (s : State) (o : CmdOutcome) : (s.complete o).errCode.toNat ≤ 4 := by
  cases o with
  | ok r => exact Nat.zero_le 4
  | error e => exact e.code_le

end Sys2Proof.Machine
end

section
/-! SUPPORT. The invariant under each operation of the block (60_exceptions R190, R195, R202). -/

namespace Sys2Proof.Machine

/-- The invariant reads the build, OPMEM, the engine, ERRCODE and RESULT, and of DONE only that it is clear while
BUSY. -/
theorem Inv.of_eq {s t : State} (h : Inv s) (hcfg : t.cfg = s.cfg) (hopmem : t.opmem = s.opmem)
    (hengine : t.engine = s.engine) (hcode : t.errCode = s.errCode) (hresult : t.result = s.result)
    (hdone : s.done = false → t.done = false) : Inv t where
  legal := hcfg ▸ h.legal
  canonical := hopmem ▸ h.canonical
  bounded := by
    rw [hopmem, hcfg]
    exact h.bounded
  code := hcode ▸ h.code
  inFlight hbusy := by
    have hbusy' : s.busy = true := by rwa [State.busy_eq_true_iff, hengine, ← State.busy_eq_true_iff] at hbusy
    obtain ⟨hd, hc, hr⟩ := h.inFlight hbusy'
    exact ⟨hdone hd, hcode.trans hc, hresult.trans hr⟩
  errorResult hne := hresult.trans (h.errorResult (hcode ▸ hne))

theorem Inv.advance {s : State} (h : Inv s) : Inv s.advance := h.of_eq rfl rfl rfl rfl rfl id

theorem Inv.setAccErr {s : State} (h : Inv s) : Inv s.setAccErr := h.of_eq rfl rfl rfl rfl rfl id

theorem Inv.setIrqEn {s : State} (h : Inv s) (b : Bool) : Inv (s.setIrqEn b) := h.of_eq rfl rfl rfl rfl rfl id

/-- START clears DONE, ERRCODE and RESULT as it makes the block BUSY (10_state R41). -/
theorem Inv.start {s : State} (h : Inv s) : Inv s.start where
  legal := h.legal
  canonical := h.canonical
  bounded := h.bounded
  code := Nat.zero_le 4
  inFlight _ := ⟨rfl, rfl, rfl⟩
  errorResult _ := rfl

theorem Inv.requestStart {s : State} (h : Inv s) : Inv s.requestStart := by
  unfold State.requestStart
  split
  · exact h.setAccErr
  · exact h.start

theorem Inv.writeReg {s : State} (h : Inv s) (r : Reg) (data : Word) : Inv (s.writeReg r data) := by
  cases r
  case ctrl =>
    change Inv (s.ctrlWrite data)
    unfold State.ctrlWrite
    split
    · exact (h.setIrqEn _).requestStart
    · exact h.setIrqEn _
  case status => exact h.of_eq rfl rfl rfl rfl rfl fun hd => by simp [State.writeReg, hd]
  all_goals exact h.of_eq rfl rfl rfl rfl rfl id

/-- Bytes staged within OPMEM keep it canonical and in its range (20_memory R61). -/
theorem Inv.writeBytes {s : State} (h : Inv s) {cells : List Host.Cell} (hcells : ∀ c ∈ cells, c.1 < s.cfg.opmemBytes) :
    Inv (s.writeBytes cells) where
  legal := h.legal
  canonical := Memory.wf_writeAll h.canonical cells
  bounded c hc := (Memory.mem_writeAll hc).elim (h.bounded c) (hcells c)
  code := h.code
  inFlight := h.inFlight
  errorResult := h.errorResult

theorem Inv.transact {s : State} (h : Inv s) (tr : Transaction) : Inv (s.transact tr) := by
  cases tr with
  | read addr =>
    have hread : Inv (s.busRead addr).2 := by
      rcases s.busRead_cases addr with hr | hr <;> rw [hr]
      · exact h
      · exact h.setAccErr
    exact hread.of_eq rfl rfl rfl rfl rfl id
  | write addr data =>
    change Inv (s.busWrite addr data)
    rcases s.busWrite_cases addr data with hw | ⟨r, -, hw⟩ | ⟨o, ho, -, hw⟩ <;> rw [hw]
    · exact h.setAccErr
    · exact h.writeReg r data
    · refine h.writeBytes fun c hc => ?_
      obtain ⟨-, -, hfits⟩ := targetOf_opmem h.legal ho
      obtain ⟨-, hlt⟩ := mem_bytesAt hc
      omega

/-- A completion leaves the block IDLE, and RESULT 0 with an error code (10_state R42, 60_exceptions R195). -/
theorem Inv.complete {s : State} (h : Inv s) {o : CmdOutcome}
    (hwrites : ∀ r, o = .ok r → ∀ c ∈ r.writes, c.1 < s.cfg.opmemBytes) : Inv (s.complete o) where
  legal := (s.complete_cfg o).symm ▸ h.legal
  canonical := by
    cases o with
    | ok r => exact Memory.wf_writeAll h.canonical r.writes
    | error e => exact h.canonical
  bounded := by
    cases o with
    | ok r => exact (h.writeBytes (hwrites r rfl)).bounded
    | error e => exact h.bounded
  code := s.complete_code_le o
  inFlight hbusy := by
    obtain ⟨c, hc⟩ := (State.busy_eq_true_iff _).1 hbusy
    rw [State.complete_engine] at hc
    cases hc
  errorResult hne := by
    cases o with
    | ok r => exact absurd rfl hne
    | error e => rfl

/-- A decoded command stages its bytes within OPMEM (20_memory R65). -/
theorem ruleOf_writes_lt {i : Instr} {s : State} {r : CmdResult} (h : ruleOf i s = .ok r) :
    ∀ c ∈ r.writes, c.1 < s.cfg.opmemBytes := by
  intro c hc
  obtain ⟨hfit, hstages⟩ := ruleOf_eq_ok h
  obtain ⟨g, hg, -, hlt⟩ := hstages.exists_region hc
  exact Nat.lt_of_lt_of_le hlt (hfit g hg)

theorem inv_afterReset {cfg : Config} (h : cfg.Legal) (draw : Nat) (agenda : List Event) :
    Inv (State.afterReset cfg draw agenda) where
  legal := h
  canonical := List.Pairwise.nil
  bounded := by simp [State.afterReset]
  code := Nat.zero_le 4
  inFlight hbusy := by simp [State.afterReset, State.busy] at hbusy
  errorResult _ := rfl

end Sys2Proof.Machine
end

section
/-! The statements about the invariant and about the codes of each command (60_exceptions R190). -/

namespace Sys2Proof.Machine

/-- Settles O26, by what the step was; a completion stages bytes only within the regions it has checked. -/
theorem everyStepKeepsTheInvariant : Obligations.EveryStepKeepsTheInvariant := by
  unfold Obligations.EveryStepKeepsTheInvariant
  intro s t h hstep
  rcases step_cases hstep with ⟨tr, rest, -, rfl⟩ | ⟨rest, -, rfl⟩ |
    ⟨-, ⟨-, rfl⟩ | ⟨c, i, -, -, rfl⟩ | ⟨c, e, -, -, rfl⟩⟩
  · exact h.advance.transact tr
  · exact inv_afterReset h.legal _ _
  · exact h.advance
  · exact h.advance.complete fun r hr => ruleOf_writes_lt hr
  · exact h.advance.complete fun r hr => by cases hr

/-- Settles O25: nothing is written and no command is in flight after a reset. -/
theorem resetStateSatisfiesInvariant : Obligations.ResetStateSatisfiesInvariant := by
  unfold Obligations.ResetStateSatisfiesInvariant
  exact ⟨fun cfg draw agenda h => inv_afterReset h draw agenda, inv_afterReset (by decide) 0 []⟩

/-- Settles O30: an error code is that of one of the command's own errors. -/
theorem errorCodesOfEachCommand : Obligations.ErrorCodesOfEachCommand := by
  unfold Obligations.ErrorCodesOfEachCommand
  refine ⟨fun c s t hrun => ?_, fun i s t hexec => ?_⟩
  · rw [runCommand_eq_complete] at hrun
    cases hrun
    exact s.complete_code_le _
  · rw [exec_eq_complete] at hexec
    cases hexec
    cases hrule : ruleOf i s with
    | ok r => simp [okCode]
    | error e =>
      have he := ruleOf_eq_error hrule
      have hnot {i' : Instr} (hmem : e ∉ errorsOf i') : i ≠ i' := fun hi => hmem (hi ▸ he)
      rw [State.complete_error, State.completeError_errCode]
      cases e with
      | badop => exact absurd he (badop_not_mem_errorsOf i)
      | range => simp [CmdError.code]
      | param => simp [CmdError.code, hnot, errorsOf]
      | noinv => simp [CmdError.code, hnot, errorsOf]

end Sys2Proof.Machine
end

section
/-! SUPPORT. Read after write of the OPMEM window, and what a transaction does to ACCERR and to the interrupt level
(20_memory R61, 60_exceptions R197, R199). -/

namespace Sys2Proof.Machine

/-! ### Numbers from their bytes (20_memory R63, R64) -/

theorem byteOf_zero_toNat (p : Nat) : (byteOf p 0).toNat = p % 256 := by
  rw [byteOf, BitVec.toNat_ofNat, Nat.mul_zero, Nat.shiftRight_zero]

theorem byteOf_succ (p j : Nat) : byteOf p (j + 1) = byteOf (p / 256) j := by
  have hshift : p >>> (8 * (j + 1)) = (p / 256) >>> (8 * j) := by
    rw [show 8 * (j + 1) = 8 + 8 * j by omega, Nat.shiftRight_add, Nat.shiftRight_eq_div_pow p 8]
  rw [byteOf, byteOf, hshift]

/-- Where the `n` bytes of a number stand, its low `n` bytes are read (20_memory R63, R64). -/
theorem State.number_of_bytes {s : State} {a n p : Nat} (h : ∀ j < n, s.byte (a + j) = byteOf p j) :
    s.number a n = p % 256 ^ n := by
  induction n generalizing a p with
  | zero => rw [State.number_zero, Nat.pow_zero, Nat.mod_one]
  | succ n ih =>
    have hfirst : s.byte a = byteOf p 0 := h 0 (Nat.succ_pos n)
    have hrest : s.number (a + 1) n = p / 256 % 256 ^ n := ih fun j hj => by
      rw [Nat.add_right_comm, Nat.add_assoc, h (j + 1) (Nat.succ_lt_succ hj), byteOf_succ]
    rw [State.number_succ, hfirst, hrest, byteOf_zero_toNat, Nat.pow_succ, Nat.mul_comm (256 ^ n), Nat.mod_mul]

/-- A word reads the word just written to it (20_memory R61). -/
theorem State.opmemWord_writeWord_same (s : State) (o : Nat) (data : Word) :
    (s.writeBytes (bytesAt o 4 data.toNat)).opmemWord o = data := by
  have hnumber : (s.writeBytes (bytesAt o 4 data.toNat)).number o 4 = data.toNat % 256 ^ 4 :=
    State.number_of_bytes fun j hj => by
      rw [State.byte_writeBytes_bytesAt, if_pos (by omega), Nat.add_sub_cancel_left]
  have hlt : data.toNat < 256 ^ 4 := data.isLt
  rw [State.opmemWord, hnumber, Nat.mod_eq_of_lt hlt, BitVec.ofNat_toNat, BitVec.setWidth_eq]

/-- A word apart from the one written reads what it read before. -/
theorem State.opmemWord_writeWord_of_disjoint {o o' : Nat} (h : o' + 4 ≤ o ∨ o + 4 ≤ o') (s : State) (data : Word) :
    (s.writeBytes (bytesAt o 4 data.toNat)).opmemWord o' = s.opmemWord o' := by
  rw [State.opmemWord, State.opmemWord, State.number_congr fun x hlo hhi => ?_]
  rw [State.byte_writeBytes_bytesAt, if_neg (by omega)]

/-! ### ACCERR (60_exceptions R197) -/

/-- The transactions refused on their address: misaligned, unmapped, or in OPMEM while BUSY. -/
def RefusedAt (s : State) (addr : Addr) : Prop :=
  targetOf s.cfg addr = .misaligned ∨ targetOf s.cfg addr = .unmapped ∨
    ((∃ o, targetOf s.cfg addr = .opmem o) ∧ s.busy = true)

section
variable {s : State} {addr : Addr}

theorem State.busRead_of_refusedAt (h : RefusedAt s addr) : s.busRead addr = (0, s.setAccErr) := by
  rcases h with h | h | ⟨⟨o, h⟩, hbusy⟩
  · exact State.busRead_of_refused (.inl h)
  · exact State.busRead_of_refused (.inr h)
  · obtain ⟨c, hc⟩ := (s.busy_eq_true_iff).1 hbusy
    exact State.busRead_opmem_of_busy h hc

theorem State.busWrite_of_refusedAt (h : RefusedAt s addr) (data : Word) : s.busWrite addr data = s.setAccErr := by
  rcases h with h | h | ⟨⟨o, h⟩, hbusy⟩
  · exact State.busWrite_of_refused (.inl h) data
  · exact State.busWrite_of_refused (.inr h) data
  · obtain ⟨c, hc⟩ := (s.busy_eq_true_iff).1 hbusy
    exact State.busWrite_opmem_of_busy h hc data

/-- An address that is not refused names a register, or an OPMEM word of an IDLE block. -/
theorem target_of_not_refusedAt (h : ¬RefusedAt s addr) :
    (∃ r, targetOf s.cfg addr = .reg r) ∨ ((∃ o, targetOf s.cfg addr = .opmem o) ∧ s.engine = .idle) := by
  unfold RefusedAt at h
  cases htarget : targetOf s.cfg addr with
  | misaligned => exact absurd (.inl htarget) h
  | unmapped => exact absurd (.inr (.inl htarget)) h
  | reg r => exact .inl ⟨r, rfl⟩
  | opmem o =>
    cases hengine : s.engine with
    | idle => exact .inr ⟨⟨o, rfl⟩, rfl⟩
    | busy c => exact absurd (.inr (.inr ⟨⟨o, htarget⟩, (s.busy_eq_true_iff).2 ⟨c, hengine⟩⟩)) h

theorem State.busWrite_of_reg {r : Reg} (h : targetOf s.cfg addr = .reg r) (data : Word) :
    s.busWrite addr data = s.writeReg r data := by
  rw [State.busWrite, h]

theorem State.busRead_of_reg {r : Reg} (h : targetOf s.cfg addr = .reg r) : s.busRead addr = (s.readReg r, s) := by
  rw [State.busRead, h]

theorem not_refusedAt_of_reg {r : Reg} (h : targetOf s.cfg addr = .reg r) : ¬RefusedAt s addr := by
  simp [RefusedAt, h]

/-- A read sets ACCERR exactly if it is refused. -/
theorem State.busRead_accErr_iff : (s.busRead addr).2.accErr = true ↔ s.accErr = true ∨ RefusedAt s addr := by
  by_cases hrefused : RefusedAt s addr
  · simp [State.busRead_of_refusedAt hrefused, hrefused]
  · rcases target_of_not_refusedAt hrefused with ⟨r, hr⟩ | ⟨⟨o, ho⟩, hidle⟩
    · simp [State.busRead_of_reg hr, hrefused]
    · simp [State.busRead_opmem_of_idle ho hidle, hrefused]

/-- A CTRL write sets ACCERR exactly if it is a START while BUSY (10_state R25). -/
theorem State.ctrlWrite_accErr_iff (s : State) (data : Word) :
    (s.ctrlWrite data).accErr = true ↔ s.accErr = true ∨ (data.getLsbD 0 = true ∧ s.busy = true) := by
  cases h0 : data.getLsbD 0 with
  | false => simp [State.ctrlWrite_of_noStart h0]
  | true =>
    cases hengine : s.engine with
    | idle => simp [State.ctrlWrite_of_start_idle h0 hengine, (s.busy_eq_false_iff).2 hengine]
    | busy c => simp [State.ctrlWrite_of_start_busy h0 hengine, (s.busy_eq_true_iff).2 ⟨c, hengine⟩]

/-- A write clears ACCERR exactly as a STATUS write with bit 2 set, and sets it exactly if it is refused on its address
or as a START while BUSY. -/
theorem State.busWrite_accErr_iff {data : Word} :
    (s.busWrite addr data).accErr = true ↔
      (s.accErr = true ∧ ¬(targetOf s.cfg addr = .reg .status ∧ data.getLsbD 2 = true)) ∨ RefusedAt s addr ∨
        (data.getLsbD 0 = true ∧ targetOf s.cfg addr = .reg .ctrl ∧ s.busy = true) := by
  by_cases hrefused : RefusedAt s addr
  · simp [State.busWrite_of_refusedAt hrefused, hrefused]
  · rcases target_of_not_refusedAt hrefused with ⟨r, hr⟩ | ⟨⟨o, ho⟩, hidle⟩
    · rw [State.busWrite_of_reg hr]
      cases r
      case ctrl => simp [hr, hrefused, State.writeReg, State.ctrlWrite_accErr_iff]
      case status => simp [hr, hrefused, State.writeReg]
      all_goals simp [hr, hrefused, State.writeReg]
    · simp [State.busWrite_opmem_of_idle ho hidle, ho, hrefused]

end

/-! ### The words of STATUS and CTRL (10_state R24, R26) -/

theorem getLsbD_flagWord (b : Bool) (j : Nat) : (flagWord b).getLsbD j = (decide (j = 0) && b) := by
  cases j with
  | zero => simp [flagWord]
  | succ j => simp [flagWord]

theorem getLsbD_flagWord_shiftLeft (b : Bool) {k : Nat} (hk : k < 32) (j : Nat) :
    (flagWord b <<< k).getLsbD j = (decide (j = k) && b) := by
  rw [BitVec.getLsbD_shiftLeft, getLsbD_flagWord]
  by_cases hj : j = k
  · simp [hj, hk]
  · by_cases hlt : j < k
    · simp [hj, hlt]
    · simp [hj, show j - k ≠ 0 by omega]

/-- ERRCODE stands in the bits from 8 on, ACCERR in bit 2, DONE in bit 1 and BUSY in bit 0 (10_state R26). -/
theorem State.getLsbD_statusWord (s : State) (j : Nat) :
    s.statusWord.getLsbD j =
      ((decide (8 ≤ j) && s.errCode.getLsbD (j - 8)) || (decide (j = 2) && s.accErr) ||
        (decide (j = 1) && s.done) || (decide (j = 0) && s.busy)) := by
  have hcode : (s.errCode.setWidth 32 <<< 8).getLsbD j = (decide (8 ≤ j) && s.errCode.getLsbD (j - 8)) := by
    rw [BitVec.getLsbD_shiftLeft, BitVec.getLsbD_setWidth]
    by_cases hj : j < 32
    · have hlow : (!decide (j < 8)) = decide (8 ≤ j) := by rw [← decide_not, decide_eq_decide, Nat.not_lt]
      simp [hj, hlow, show j - 8 < 32 by omega]
    · rw [BitVec.getLsbD_of_ge s.errCode (j - 8) (by omega)]
      simp
  rw [State.statusWord, BitVec.getLsbD_or, BitVec.getLsbD_or, BitVec.getLsbD_or, hcode,
    getLsbD_flagWord_shiftLeft _ (by decide), getLsbD_flagWord_shiftLeft _ (by decide), getLsbD_flagWord]

theorem State.getLsbD_ctrlWord (s : State) (j : Nat) : s.ctrlWord.getLsbD j = (decide (j = 1) && s.irqEn) :=
  getLsbD_flagWord_shiftLeft s.irqEn (by decide) j

/-! ### The interrupt level (10_state R43, 60_exceptions R199) -/

theorem State.complete_irq (s : State) (o : CmdOutcome) : (s.complete o).irq = s.irqEn := by
  rw [State.irq, State.complete_done, State.complete_irqEn, Bool.true_and]

end Sys2Proof.Machine
end

section
/-! The statements of 10_state, 20_memory and 60_exceptions about registers, the OPMEM window, ACCERR and the
interrupt. -/

namespace Sys2Proof.Machine

/-- Settles O13: each address is the offset of a register. -/
theorem registerReadValues : Obligations.RegisterReadValues := by
  unfold Obligations.RegisterReadValues
  intro s
  exact ⟨s.busRead_regOffset .caps, s.busRead_regOffset .opmemSize, s.busRead_regOffset .ctrl,
    s.busRead_regOffset .status, s.busRead_regOffset .cmd, s.busRead_regOffset .arg0, s.busRead_regOffset .arg1,
    s.busRead_regOffset .arg2, s.busRead_regOffset .len, s.busRead_regOffset .len2, s.busRead_regOffset .result,
    s.busRead_regOffset .curveBase, s.busRead_regOffset .curveFsb, s.busRead_regOffset .curveM,
    s.busRead_regOffset .ptYoff, s.busRead_regOffset .ptLen⟩

/-- Settles O14, bit by bit. -/
theorem statusAndCtrlBits : Obligations.StatusAndCtrlBits := by
  unfold Obligations.StatusAndCtrlBits
  intro s
  refine ⟨?busy, ?done, ?accErr, ?code, fun j hj => ?reserved, ?irqEn, fun j hj => ?rest⟩
  case busy | done | accErr =>
    rw [s.getLsbD_statusWord]
    simp
  case code =>
    ext j hj
    rw [BitVec.getElem_extractLsb', s.getLsbD_statusWord]
    simp [hj, show 8 + j ≠ 2 by omega, show 8 + j ≠ 1 by omega]
  case reserved =>
    rw [s.getLsbD_statusWord]
    rcases hj with ⟨hlo, hhi⟩ | hj
    · simp [show ¬8 ≤ j by omega, show j ≠ 2 by omega, show j ≠ 1 by omega, show j ≠ 0 by omega]
    · rw [BitVec.getLsbD_of_ge s.errCode (j - 8) (by omega)]
      simp [show j ≠ 2 by omega, show j ≠ 1 by omega, show j ≠ 0 by omega]
  case irqEn =>
    rw [s.getLsbD_ctrlWord]
    simp
  case rest => simp [s.getLsbD_ctrlWord, hj]

/-- Settles O22: a completion sets DONE and keeps IRQ_EN; each write of CTRL or STATUS sets the two as 10_state says. -/
theorem interruptLevel : Obligations.InterruptLevel := by
  unfold Obligations.InterruptLevel
  intro s data
  rw [State.busWrite_ctrl, State.busWrite_status]
  refine ⟨fun i t hexec => ?exec, fun c t hrun => ?run, fun h0 => ?noStart, fun h0 hidle => ?start,
    fun c h0 hbusy => ?refused, fun h1 => ?clear, fun h1 => ?keep, rfl⟩
  case exec =>
    rw [exec_eq_complete] at hexec
    cases hexec
    exact s.complete_irq _
  case run =>
    rw [runCommand_eq_complete] at hrun
    cases hrun
    exact s.complete_irq _
  case noStart => rw [State.ctrlWrite_of_noStart h0, State.irq, State.setIrqEn_done, State.setIrqEn_irqEn]
  case start => rw [State.ctrlWrite_of_start_idle h0 hidle, State.irq, State.start_done, Bool.false_and]
  case refused => rw [State.ctrlWrite_of_start_busy h0 hbusy]; rfl
  case clear => rw [State.irq, State.statusWrite_done, h1, Bool.not_true, Bool.and_false, Bool.false_and]
  case keep =>
    rw [State.irq, State.irq, State.statusWrite_done, State.statusWrite_irqEn, h1, Bool.not_false, Bool.and_true]

/-- Settles O20: the write stores its word's bytes, and another aligned word shares none of them. -/
theorem opmemWordReadAfterWrite : Obligations.OpmemWordReadAfterWrite := by
  unfold Obligations.OpmemWordReadAfterWrite
  intro s o o' data hlegal hidle ho hr ho' hr'
  have htarget : targetOf s.cfg (BitVec.ofNat 16 (0x1000 + o)) = .opmem o := targetOf_window hlegal ho hr
  have htarget' : targetOf s.cfg (BitVec.ofNat 16 (0x1000 + o')) = .opmem o' := targetOf_window hlegal ho' hr'
  rw [State.busWrite_opmem_of_idle htarget hidle, State.busRead_opmem_of_idle htarget' hidle,
    State.busRead_opmem_of_idle (s := s.writeBytes _) htarget' hidle]
  split
  case isTrue heq =>
    subst heq
    exact s.opmemWord_writeWord_same o' data
  case isFalse hne => exact State.opmemWord_writeWord_of_disjoint (by omega) s data

/-- Settles O21, by what the step was; only a transaction or a reset touches ACCERR. -/
theorem accErrRisesAndFallsOnlySo : Obligations.AccErrRisesAndFallsOnlySo := by
  unfold Obligations.AccErrRisesAndFallsOnlySo
  intro s t hstep
  rcases step_cases hstep with ⟨tr, rest, hagenda, rfl⟩ | ⟨rest, hagenda, rfl⟩ | ⟨hturn, hcompleted⟩
  case inl =>
    cases tr with
    | read addr =>
      have hiff : (s.advance.transact (.read addr)).accErr = true ↔ s.accErr = true ∨ RefusedAt s addr :=
        State.busRead_accErr_iff (s := s.advance)
      refine ⟨fun hclear => ?_, fun hset => ?_⟩
      · rw [hiff]
        simp [hagenda, hclear, RefusedAt]
      · rw [← Bool.not_eq_true, hiff]
        simp [hagenda, hset]
    | write addr data =>
      have hiff : (s.advance.transact (.write addr data)).accErr = true ↔
          (s.accErr = true ∧ ¬(targetOf s.cfg addr = .reg .status ∧ data.getLsbD 2 = true)) ∨ RefusedAt s addr ∨
            (data.getLsbD 0 = true ∧ targetOf s.cfg addr = .reg .ctrl ∧ s.busy = true) :=
        State.busWrite_accErr_iff (s := s.advance)
      refine ⟨fun hclear => ?_, fun hset => ?_⟩
      · rw [hiff]
        simp [hagenda, hclear, RefusedAt, or_assoc]
      · rw [← Bool.not_eq_true, hiff]
        simpa [hagenda, hset] using fun h _ => ⟨not_refusedAt_of_reg h, fun _ hctrl => by simp [h] at hctrl⟩
  case inr.inl =>
    refine ⟨fun _ => ?_, fun _ => ?_⟩
    · simp [hagenda]
    · simp [hagenda]
  case inr.inr =>
    have hkeeps : t.accErr = s.accErr := by
      rcases hcompleted with ⟨-, rfl⟩ | ⟨c, i, -, -, rfl⟩ | ⟨c, e, -, -, rfl⟩ <;> simp
    rw [hkeeps]
    rcases hturn with hagenda | ⟨rest, hagenda⟩
    · exact ⟨fun h => by simp [h, hagenda], fun h => by simp [h, hagenda]⟩
    · exact ⟨fun h => by simp [h, hagenda], fun h => by simp [h, hagenda]⟩

end Sys2Proof.Machine
end

section
/-! SUPPORT. Runs of the assembler's transactions (30_encoding R100 to R103): register loads, polls of STATUS, the
engine's slot, and writes of OPMEM words. -/

namespace Sys2Proof.Machine

/-! ### The port and the agenda in a run (log 1, log 2) -/

/-- A state as the host's next transactions find it, the port being silent (log 1, log 2). -/
def State.withAgenda (s : State) (es : List Event) : State := { s with agenda := es, portData := none }

/-- What stands on the port makes no difference to a run that has steps left (log 2). -/
theorem run_portData (s : State) (p : Option Word) (k : Nat) :
    Host.Core.run Sys2Proof.core (k + 1) { s with portData := p } = Host.Core.run Sys2Proof.core (k + 1) s := rfl

theorem run_withAgenda (s : State) (es : List Event) (k : Nat) :
    Host.Core.run Sys2Proof.core (k + 1) { s with agenda := es } =
      Host.Core.run Sys2Proof.core (k + 1) (s.withAgenda es) := rfl

theorem run_bus (s : State) (tr : Transaction) (es : List Event) (k : Nat) :
    Host.Core.run Sys2Proof.core (k + 1) (s.withAgenda (.bus tr :: es)) =
      Host.Core.run Sys2Proof.core k ((s.withAgenda es).transact tr) :=
  run_succ (step_of_bus rfl) k

/-! ### Register loads (30_encoding R101) -/

/-- `WR` of a register followed by its value, as an event. -/
def loadEvent (w : Reg × Nat) : Event := .bus (asmWr (.reg w.1) (operandWord w.2))

theorem asmOperands_eq_map (i : Instr) : (asmOperands i).map .bus = (operandsOf i).map loadEvent := by
  cases i <;> rfl

theorem State.writeReg_eq_loadReg {r : Reg} (hr : r ∈ rwRegs) (s : State) (data : Word) :
    s.writeReg r data = { s with regs := loadReg s.regs r data } := by
  cases r
  case caps | opmemSize | ctrl | status | result | ptYoff | ptLen => simp [rwRegs] at hr
  all_goals rfl

/-- An assembled write of a register is that register's write (30_encoding R100). -/
theorem State.transact_asmWr_reg (s : State) (r : Reg) (data : Word) :
    s.transact (asmWr (.reg r) data) = s.writeReg r data := s.busWrite_regOffset r data

/-- An assembled read of a register puts its value on the port (30_encoding R100). -/
theorem State.transact_asmRd_reg (s : State) (r : Reg) :
    s.transact (asmRd (.reg r)) = { s with portData := some (s.readReg r) } := by
  have hread := s.busRead_regOffset r
  rw [asmRd, asmAddr, State.transact, hread]

/-- A run of register writes loads the registers. -/
theorem run_loads {ws : List (Reg × Nat)} (hws : ∀ w ∈ ws, w.1 ∈ rwRegs) (s : State) (es : List Event) (k : Nat) :
    Host.Core.run Sys2Proof.core (ws.length + k) (s.withAgenda (ws.map loadEvent ++ es)) =
      Host.Core.run Sys2Proof.core k ({ s with regs := loadRegs s.regs ws }.withAgenda es) := by
  induction ws generalizing s with
  | nil => rw [List.length_nil, Nat.zero_add]; rfl
  | cons w ws ih =>
    obtain ⟨hw, hrest⟩ := List.forall_mem_cons.1 hws
    rw [List.length_cons, Nat.add_right_comm, List.map_cons, List.cons_append, loadEvent, run_bus,
      State.transact_asmWr_reg, State.writeReg_eq_loadReg hw]
    exact ih hrest { s with regs := loadReg s.regs w.1 (operandWord w.2) }

theorem operandsOf_rw (i : Instr) : ∀ w ∈ operandsOf i, w.1 ∈ rwRegs := by
  cases i <;> simp [operandsOf, rwRegs]

/-! ### A command's START and WAIT (30_encoding R101, R102) -/

/-- The block as an accepted START leaves it, with the given registers loaded and IRQ_EN written (10_state R41). -/
def State.started (s : State) (c : Command) (irqEn : Bool) : State := ({ s with regs := c }.setIrqEn irqEn).start

theorem readsAlike_started (s : State) (c : Command) (irqEn : Bool) : ReadsAlike s (s.started c irqEn) where
  cfg := rfl
  bytes _ := rfl

theorem run_start {s : State} (hidle : s.engine = .idle) (irqEn : Bool) (es : List Event) (k : Nat) :
    Host.Core.run Sys2Proof.core (k + 1)
        (s.withAgenda (.bus (asmWr (.reg .ctrl) (if irqEn then 3 else 1)) :: es)) =
      Host.Core.run Sys2Proof.core k ((s.started s.regs irqEn).withAgenda es) := by
  have hstart : (if irqEn then 3 else 1 : Word).getLsbD 0 = true := by cases irqEn <;> rfl
  have hirq : (if irqEn then 3 else 1 : Word).getLsbD 1 = irqEn := by cases irqEn <;> rfl
  rw [run_bus, State.transact_asmWr_reg, State.writeReg,
    State.ctrlWrite_of_start_idle (s := s.withAgenda es) hstart hidle, hirq]
  rfl

/-- Polls of STATUS change nothing that a later step sees (20_memory R74, log 13). -/
theorem run_polls (s : State) (polls : Nat) (es : List Event) (k : Nat) :
    Host.Core.run Sys2Proof.core (polls + (k + 1))
        (s.withAgenda (List.replicate polls (.bus (asmRd (.reg .status))) ++ es)) =
      Host.Core.run Sys2Proof.core (k + 1) (s.withAgenda es) := by
  induction polls with
  | zero => rw [Nat.zero_add]; rfl
  | succ polls ih =>
    rw [Nat.add_right_comm, List.replicate_succ, List.cons_append, run_bus, State.transact_asmRd_reg]
    exact (run_portData _ _ (polls + k)).trans ih

theorem readsAlike_withAgenda (s : State) (es : List Event) : ReadsAlike s (s.withAgenda es) where
  cfg := rfl
  bytes _ := rfl

theorem State.complete_withAgenda (s : State) (es : List Event) (o : CmdOutcome) :
    (s.withAgenda es).complete o = (s.complete o).withAgenda es := by
  cases o <;> rfl

theorem run_engine {s : State} {c : Command} {i : Instr} (hbusy : s.engine = .busy c) (hdec : decode c = .ok i)
    (es : List Event) (k : Nat) :
    Host.Core.run Sys2Proof.core (k + 1) (s.withAgenda (.engine :: es)) =
      Host.Core.run Sys2Proof.core k ((s.complete (ruleOf i s)).withAgenda es) := by
  have hturn : engineTurn (s.withAgenda es) = .next ((s.complete (ruleOf i s)).withAgenda es) := by
    rw [engineTurn_of_busy (s := s.withAgenda es) hbusy, runCommand, hdec, ← State.complete_withAgenda,
      ← ruleOf_congr (readsAlike_withAgenda s es)]
    exact exec_eq_complete i _
  refine run_succ ?_ k
  rw [step_of_engineTurn (.inr ⟨es, rfl⟩)]
  exact hturn

/-- `WAIT` while a command is in flight completes it and leaves STATUS on the port (30_encoding R102). -/
theorem run_wait {s : State} {c : Command} {i : Instr} (hbusy : s.engine = .busy c) (hdec : decode c = .ok i)
    (polls : Nat) :
    Host.Core.run Sys2Proof.core (polls + 2) (s.withAgenda (asmWait polls)) =
      .next { s.complete (ruleOf i s) with
        agenda := [], portData := some (s.complete (ruleOf i s)).statusWord } := by
  rw [asmWait, run_polls s polls _ 1, run_engine hbusy hdec, run_bus, State.transact_asmRd_reg, run_zero]
  rfl

/-- The registers once a command's word and operands are loaded (30_encoding R101). -/
def commandRegs (i : Instr) (s : State) : Command := loadRegs (loadReg s.regs .cmd (commandWord i)) (operandsOf i)

theorem decode_commandRegs {i : Instr} {s : State} (hwf : i.wellFormed = true) (hcurve : CurveRegsHold s i) :
    decode (commandRegs i s) = .ok i := by
  refine decode_loadRegs hwf rfl fun crv hcrv => ?_
  rw [CurveRegsHold, hcrv] at hcurve
  exact hcurve

/-- The expansion of a command's pseudo-instruction, transaction by transaction: CMD, the operands, START, WAIT. -/
theorem asmCommand_eq (irqEn : Bool) (i : Instr) (polls : Nat) :
    asmCommand irqEn i polls =
      .bus (asmWr (.reg .cmd) (commandWord i)) :: ((operandsOf i).map loadEvent ++
        .bus (asmWr (.reg .ctrl) (if irqEn then 3 else 1)) :: asmWait polls) := by
  rw [← asmOperands_eq_map]
  simp [asmCommand, asmIssue]

/-- Running the expansion of a command from an IDLE block is START with the command's registers, then its completion. -/
theorem run_asmCommand {i : Instr} {s : State} (hwf : i.wellFormed = true) (hidle : s.engine = .idle)
    (hcurve : CurveRegsHold s i) (irqEn : Bool) (polls : Nat) :
    let u := (s.started (commandRegs i s) irqEn).complete (ruleOf i s)
    Host.Core.run Sys2Proof.core (asmCommand irqEn i polls).length { s with agenda := asmCommand irqEn i polls } =
      .next { u with agenda := [], portData := some u.statusWord } := by
  have hlength : (asmCommand irqEn i polls).length = (operandsOf i).length + (polls + 2 + 1) + 1 := by
    simp [asmCommand_eq, asmWait]
  have hrule := ruleOf_congr (readsAlike_started s (commandRegs i s) irqEn) i
  intro u
  rw [hlength, asmCommand_eq, run_withAgenda, run_bus, State.transact_asmWr_reg,
    State.writeReg_eq_loadReg (by simp [rwRegs])]
  refine (run_loads (operandsOf_rw i) { s with regs := loadReg s.regs .cmd (commandWord i) } _ _).trans ?_
  rw [run_start (by exact hidle)]
  refine (run_wait (s := s.started (commandRegs i s) irqEn) rfl (decode_commandRegs hwf hcurve) polls).trans ?_
  rw [hrule]

/-! ### Completions of one answer on two states -/

theorem State.complete_errCode_eq (s t : State) (o : CmdOutcome) : (t.complete o).errCode = (s.complete o).errCode := by
  cases o <;> rfl

theorem State.complete_result_eq (s t : State) (o : CmdOutcome) : (t.complete o).result = (s.complete o).result := by
  cases o <;> rfl

theorem State.complete_opmem_eq {s t : State} (h : t.opmem = s.opmem) (o : CmdOutcome) :
    (t.complete o).opmem = (s.complete o).opmem := by
  cases o with
  | ok r => exact congrArg (Memory.writeAll · r.writes) h
  | error e => exact h

/-! ### Writes of OPMEM words (30_encoding R103) -/

/-- `WR MEM+off` followed by its word, as an event. -/
def storeEvent (w : Nat × Word) : Event := .bus (asmWr (.mem w.1) w.2)

/-- The bytes of a list of OPMEM words, each at its offset. -/
def wordCells (ws : List (Nat × Word)) : List Host.Cell := ws.flatMap fun w => bytesAt w.1 4 w.2.toNat

theorem State.transact_asmWr_mem {s : State} {o : Nat} (hlegal : s.cfg.Legal) (hidle : s.engine = .idle)
    (ho : o % 4 = 0) (hr : o < s.cfg.opmemBytes) (data : Word) :
    s.transact (asmWr (.mem o) data) = s.writeBytes (bytesAt o 4 data.toNat) :=
  State.busWrite_opmem_of_idle (targetOf_window hlegal ho hr) hidle data

/-- A run of word writes to an IDLE block stores the words' bytes and changes nothing else but the agenda and the
port. -/
theorem run_stores {s : State} (hlegal : s.cfg.Legal) (hidle : s.engine = .idle) {ws : List (Nat × Word)}
    (hws : ∀ w ∈ ws, w.1 % 4 = 0 ∧ w.1 < s.cfg.opmemBytes) :
    ∃ p, Host.Core.run Sys2Proof.core ws.length { s with agenda := ws.map storeEvent } =
      .next { s.writeBytes (wordCells ws) with agenda := [], portData := p } := by
  induction ws generalizing s with
  | nil => exact ⟨s.portData, rfl⟩
  | cons w ws ih =>
    obtain ⟨⟨ho, hr⟩, hrest⟩ := List.forall_mem_cons.1 hws
    obtain ⟨p, hp⟩ := ih (s := { s.writeBytes (bytesAt w.1 4 w.2.toNat) with portData := none }) hlegal hidle hrest
    refine ⟨p, ?_⟩
    rw [List.map_cons, List.length_cons, storeEvent, run_withAgenda, run_bus,
      State.transact_asmWr_mem (s := s.withAgenda _) hlegal hidle ho hr, wordCells, List.flatMap_cons,
      State.writeBytes_append]
    exact hp

/-- The words of an element, least significant first (30_encoding R103). -/
def elementWords (off n v : Nat) : List (Nat × Word) :=
  (List.range n).map fun j => (off + 4 * j, BitVec.ofNat 32 (v >>> (32 * j)))

theorem asmWrfe_eq_map (off n v : Nat) :
    (asmWrfe off n v).map .bus = (elementWords off ((n + 3) / 4) v).map storeEvent := by
  simp [asmWrfe, elementWords, storeEvent, Function.comp_def]

theorem byteOf_shiftRight (p k j : Nat) : byteOf (p >>> (8 * k)) j = byteOf p (k + j) := by
  rw [byteOf, byteOf, ← Nat.shiftRight_add, Nat.mul_add]

theorem byteOf_mod_word {j : Nat} (hj : j < 4) (p : Nat) : byteOf (p % 2 ^ 32) j = byteOf p j := by
  ext i hi
  rw [← BitVec.getLsbD_eq_getElem hi, ← BitVec.getLsbD_eq_getElem hi]
  simp only [byteOf, BitVec.getLsbD_ofNat, Nat.testBit_shiftRight, Nat.testBit_mod_two_pow,
    show 8 * j + i < 32 by omega, decide_true, Bool.true_and]

/-- An element has no byte from its length on (20_memory R64). -/
theorem byteOf_eq_zero {p n j : Nat} (hp : p < 2 ^ (8 * n)) (hj : n ≤ j) : byteOf p j = 0 := by
  have hlt : p < 2 ^ (8 * j) := Nat.lt_of_lt_of_le hp (Nat.pow_le_pow_right (by decide) (Nat.mul_le_mul_left 8 hj))
  rw [byteOf, Nat.shiftRight_eq_div_pow, Nat.div_eq_of_lt hlt]
  rfl

/-- The bytes of an element's words are the bytes of the element, filled up to whole words. -/
theorem wordCells_elementWords (off n v : Nat) : wordCells (elementWords off n v) = bytesAt off (4 * n) v := by
  induction n with
  | zero => rfl
  | succ n ih =>
    have hword : bytesAt (off + 4 * n) 4 (v >>> (32 * n) % 2 ^ 32) =
        [0, 1, 2, 3].map fun j => (off + 4 * n + j, byteOf v (4 * n + j)) := by
      refine List.map_congr_left fun j hj => ?_
      rw [byteOf_mod_word (List.mem_range.1 hj), show 32 * n = 8 * (4 * n) by omega, byteOf_shiftRight]
    have hlast : wordCells (elementWords off (n + 1) v) =
        wordCells (elementWords off n v) ++ bytesAt (off + 4 * n) 4 (v >>> (32 * n) % 2 ^ 32) := by
      simp [wordCells, elementWords, List.range_succ]
    rw [hlast, ih, hword]
    simp [bytesAt_succ, Nat.mul_succ, Nat.add_assoc]

end Sys2Proof.Machine
end

section
/-! The statements of 30_encoding section 5: a command's pseudo-instruction and WRFE. -/

namespace Sys2Proof.Machine

/-- Settles O11: the run is START and the completion, whose answer the registers and flags that START sets do not
touch. -/
theorem issuedCommandHasItsMeaning : Obligations.IssuedCommandHasItsMeaning := by
  unfold Obligations.IssuedCommandHasItsMeaning
  intro i s irqEn polls hwf hidle hcurve
  refine ⟨_, _, exec_eq_complete i s, run_asmCommand hwf hidle hcurve irqEn polls, State.complete_engine _ _,
    State.complete_done _ _, State.complete_errCode_eq _ _ _, State.complete_result_eq _ _ _, ?bytes,
    State.complete_irqEn _ _, State.complete_accErr _ _, State.complete_cfg _ _, rfl, rfl⟩
  case bytes =>
    refine State.byte_congr (State.complete_opmem_eq (s := s) (t := s.started (commandRegs i s) irqEn) rfl _) ?_
    exact (State.complete_draw _ _).trans (s.complete_draw _).symm

/-- Settles O12: the run stores the element's words, whose bytes past the element are 0. -/
theorem wrfeStoresTheElement : Obligations.WrfeStoresTheElement := by
  unfold Obligations.WrfeStoresTheElement
  intro s off n v hlegal hidle hoff hfits hv
  have hws : ∀ w ∈ elementWords off ((n + 3) / 4) v, w.1 % 4 = 0 ∧ w.1 < s.cfg.opmemBytes := by
    intro w hw
    obtain ⟨j, hj, rfl⟩ := List.mem_map.1 hw
    rw [List.mem_range] at hj
    unfold Fits at hfits
    dsimp only
    omega
  obtain ⟨p, hrun⟩ := run_stores hlegal hidle hws
  have hlength : (asmWrfe off n v).length = (elementWords off ((n + 3) / 4) v).length := by
    simp [asmWrfe, elementWords]
  rw [← hlength, ← asmWrfe_eq_map, wordCells_elementWords] at hrun
  have hbyte (x : Nat) := s.byte_writeBytes_bytesAt off (4 * ((n + 3) / 4)) v x
  refine ⟨_, hrun, ?element, fun x hlo hhi => ?tail, fun x hx => ?frame, rfl⟩
  case element =>
    have hsmall : v < 256 ^ n := by rwa [show 256 = 2 ^ 8 from rfl, ← Nat.pow_mul]
    refine (State.number_of_bytes fun j hj => ?_).trans (Nat.mod_eq_of_lt hsmall)
    refine (hbyte _).trans ?_
    rw [if_pos (by omega), Nat.add_sub_cancel_left]
  case tail =>
    refine (hbyte x).trans ?_
    rw [if_pos (by omega), byteOf_eq_zero hv (by omega)]
  case frame => exact (hbyte x).trans (if_neg hx)

end Sys2Proof.Machine
end

section
/-! SUPPORT. What a command's rule reads, byte by byte, and what its completion writes whatever stood in OPMEM before
(10_state R42, 20_memory R63 to R70). -/

namespace Sys2Proof.Machine

/-! ### The checks of a rule see only the build -/

section
variable {s t : State} (h : t.cfg = s.cfg)
include h

theorem State.inRange_of_cfg (a n : Nat) : t.inRange a n = s.inRange a n := by
  rw [State.inRange, State.inRange, h]

theorem State.singleLen_of_cfg (n : Nat) : t.singleLen n = s.singleLen n := by
  rw [State.singleLen, State.singleLen, h]

theorem State.doubleLen_of_cfg (n : Nat) : t.doubleLen n = s.doubleLen n := by
  rw [State.doubleLen, State.doubleLen, h]

theorem State.curveGeom_of_cfg (crv : CurveRegs) : t.curveGeom crv = s.curveGeom crv := by
  rw [State.curveGeom, State.curveGeom, State.inRange_of_cfg h, h]

end

/-! ### The operands of a rule see only their own bytes (20_memory R63, R66, R67, R70) -/

section
variable {s t : State}

theorem State.fe_of_region {a n : Nat} (h : ∀ x, InRegion a n x → t.byte x = s.byte x) : t.fe a n = s.fe a n :=
  State.number_congr fun x hlo hhi => h x ⟨hlo, hhi⟩

theorem State.readScalar_of_region {a n : Nat} (h : ∀ x, InRegion a n x → t.byte x = s.byte x) :
    t.readScalar a n = s.readScalar a n := State.fe_of_region h

/-- A packed point is read from its coordinate bytes, not from its padding (20_memory R67). -/
theorem State.readPoint_of_point {fsb a : Nat} (h : ∀ x, InPoint fsb a x → t.byte x = s.byte x) :
    t.readPoint fsb a = s.readPoint fsb a := by
  rw [State.readPoint, State.readPoint, State.fe_of_region fun x hx => h x (.inl hx),
    State.fe_of_region fun x hx => h x (.inr hx)]

/-- The record is read from the first FSB bytes of six of its slots (20_memory R66). -/
theorem State.curveRecord_of_record {crv : CurveRegs} (hcfg : t.cfg = s.cfg)
    (h : ∀ x, InRecord s crv x → t.byte x = s.byte x) : t.curveRecord crv = s.curveRecord crv := by
  have hslot {k : Nat} (hk : k < 6) : t.slot crv k = s.slot crv k := by
    rw [State.slot, State.slot, hcfg]
    exact State.fe_of_region fun x hx => h x ⟨k, hk, hx⟩
  simp only [State.curveRecord, hslot (show 0 < 6 by decide), hslot (show 1 < 6 by decide),
    hslot (show 2 < 6 by decide), hslot (show 3 < 6 by decide), hslot (show 4 < 6 by decide),
    hslot (show 5 < 6 by decide)]

theorem State.curveLoad_of_record {crv : CurveRegs} (hcfg : t.cfg = s.cfg)
    (h : ∀ x, InRecord s crv x → t.byte x = s.byte x) : t.curveLoad crv = s.curveLoad crv := by
  rw [State.curveLoad, State.curveLoad, State.curveRecord_of_record hcfg h]

end

/-- A command's rule answers alike on two states of one build that agree on the bytes it reads. -/
theorem ruleOf_of_readsByte {i : Instr} {s t : State} (hcfg : t.cfg = s.cfg)
    (h : ∀ x, ReadsByte s i x → t.byte x = s.byte x) : ruleOf i t = ruleOf i s := by
  cases i with
  | gfDeg src n =>
    simp only [ruleOf, gfDegRule, State.doubleLen_of_cfg hcfg, State.inRange_of_cfg hcfg, State.fe_of_region h]
  | gfMul dst a b n =>
    simp only [ruleOf, gfMulRule, State.singleLen_of_cfg hcfg, State.inRange_of_cfg hcfg,
      State.fe_of_region fun x hx => h x (.inl hx), State.fe_of_region fun x hx => h x (.inr hx)]
  | gfRed poly modulus n n2 =>
    simp only [ruleOf, gfRedRule, State.doubleLen_of_cfg hcfg, State.singleLen_of_cfg hcfg, State.inRange_of_cfg hcfg,
      State.fe_of_region fun x hx => h x (.inl hx), State.fe_of_region fun x hx => h x (.inr hx)]
  | gfShl dst src n count =>
    simp only [ruleOf, gfShlRule, State.doubleLen_of_cfg hcfg, State.inRange_of_cfg hcfg, State.fe_of_region h]
  | gfInv dst a modulus n =>
    simp only [ruleOf, gfInvRule, State.singleLen_of_cfg hcfg, State.inRange_of_cfg hcfg,
      State.fe_of_region fun x hx => h x (.inl hx), State.fe_of_region fun x hx => h x (.inr hx)]
  | ecAdd r p q crv =>
    simp only [ruleOf, ecAddRule, State.curveGeom_of_cfg hcfg, State.inRange_of_cfg hcfg,
      State.curveLoad_of_record hcfg fun x hx => h x (.inl hx),
      State.readPoint_of_point fun x hx => h x (.inr (.inl hx)),
      State.readPoint_of_point fun x hx => h x (.inr (.inr hx))]
  | ecDbl r p crv =>
    simp only [ruleOf, ecDblRule, State.curveGeom_of_cfg hcfg, State.inRange_of_cfg hcfg,
      State.curveLoad_of_record hcfg fun x hx => h x (.inl hx), State.readPoint_of_point fun x hx => h x (.inr hx)]
  | ecMul r p k crv =>
    simp only [ruleOf, ecMulRule, State.curveGeom_of_cfg hcfg, State.inRange_of_cfg hcfg,
      State.curveLoad_of_record hcfg fun x hx => h x (.inl hx),
      State.readPoint_of_point fun x hx => h x (.inr (.inl hx)),
      State.readScalar_of_region fun x hx => h x (.inr (.inr hx))]
  | ecOncurve p crv =>
    simp only [ruleOf, ecOncurveRule, State.curveGeom_of_cfg hcfg, State.inRange_of_cfg hcfg,
      State.curveLoad_of_record hcfg fun x hx => h x (.inl hx), State.readPoint_of_point fun x hx => h x (.inr hx)]
  | ecdhGenpub pub d crv =>
    simp only [ruleOf, ecdhGenpubRule, State.curveGeom_of_cfg hcfg, State.inRange_of_cfg hcfg,
      State.curveLoad_of_record hcfg fun x hx => h x (.inl hx), State.readScalar_of_region fun x hx => h x (.inr hx)]
  | ecdhValidate pub crv =>
    simp only [ruleOf, ecdhValidateRule, State.curveGeom_of_cfg hcfg, State.inRange_of_cfg hcfg,
      State.curveLoad_of_record hcfg fun x hx => h x (.inl hx), State.readPoint_of_point fun x hx => h x (.inr hx)]
  | ecdhShared secret d peer crv =>
    simp only [ruleOf, ecdhSharedRule, State.curveGeom_of_cfg hcfg, State.inRange_of_cfg hcfg,
      State.curveLoad_of_record hcfg fun x hx => h x (.inl hx),
      State.readScalar_of_region fun x hx => h x (.inr (.inl hx)),
      State.readPoint_of_point fun x hx => h x (.inr (.inr hx))]

/-! ### What a completion writes (20_memory R84) -/

/-- A list of bytes either leaves an offset alone or gives it one value, whatever stood there before. -/
theorem Memory.read_writeAll_cases (cells : List Host.Cell) (x : Nat) :
    (∀ m, Memory.read (Memory.writeAll m cells) x = Memory.read m x) ∨
      ∃ v, ∀ m, Memory.read (Memory.writeAll m cells) x = some v := by
  induction cells with
  | nil => exact .inl fun m => rfl
  | cons c rest ih =>
    simp only [Memory.writeAll_cons]
    rcases ih with hkeep | ⟨v, hv⟩
    · by_cases hx : x = c.1
      · exact .inr ⟨c.2, fun m => by rw [hkeep, Memory.read_write, if_pos hx]⟩
      · exact .inl fun m => by rw [hkeep, Memory.read_write, if_neg hx]
    · exact .inr ⟨v, fun m => hv _⟩

/-- Two completions with one answer leave an offset with one value, or each leaves it alone. -/
theorem State.complete_byte_cases (s t : State) (o : CmdOutcome) (x : Nat) :
    (t.complete o).byte x = (s.complete o).byte x ∨
      ((s.complete o).byte x = s.byte x ∧ (t.complete o).byte x = t.byte x) := by
  cases o with
  | error e => exact .inr ⟨s.completeError_sameBytes e x, t.completeError_sameBytes e x⟩
  | ok r =>
    simp only [State.byte, State.complete_ok, State.completeOk_opmem, State.completeOk_draw]
    rcases Memory.read_writeAll_cases r.writes x with hkeep | ⟨v, hv⟩
    · exact .inr ⟨by rw [hkeep], by rw [hkeep]⟩
    · exact .inl (by rw [hv, hv]; rfl)

end Sys2Proof.Machine
end

section
/-! The statement about what a command's outcome depends on (10_state R42, 20_memory R66, R67). -/

namespace Sys2Proof.Machine

/-- Settles O31: the two rules answer alike, and a completion writes the same bytes on both states. -/
theorem commandsReadOnlyTheirSources : Obligations.CommandsReadOnlyTheirSources := by
  unfold Obligations.CommandsReadOnlyTheirSources
  intro i s s' t t' hcfg hbytes hexec hexec'
  rw [exec_eq_complete] at hexec hexec'
  rw [ruleOf_of_readsByte hcfg hbytes] at hexec'
  cases hexec
  cases hexec'
  exact ⟨State.complete_errCode_eq s s' _, State.complete_result_eq s s' _, s.complete_byte_cases s' _⟩

end Sys2Proof.Machine
end

section
/-! SUPPORT. Arithmetic modulo a polynomial: products of remainders, and coprimality and inverses of remainders
(40_gf2 R112, R115, R116). -/

namespace Sys2Proof.Machine

theorem pmod_clmul_pmod_pmod {f : Nat} (hf : f ≠ 0) (u v : Nat) :
    pmod (clmul (pmod u f) (pmod v f)) f = pmod (clmul u v) f := by
  refine pmod_eq_pmod_of_dvd hf ?_
  have hu := dvd_mul_of_dvd_left (dvd_toPoly_sub_pmod hf u) (toPoly (pmod v f))
  have hv := dvd_mul_of_dvd_right (dvd_toPoly_sub_pmod hf v) (toPoly u)
  rw [toPoly_clmul, toPoly_clmul, dvd_sub_comm]
  convert dvd_add hu hv using 1
  ring

/-- A number whose remainder by `f` is written as `r` with `deg r < deg f` has the remainder `r`. -/
theorem eq_pmod_of_eq_xor {p q r f : Nat} (hdeg : deg r < deg f) (h : p = clmul q f ^^^ r) : r = pmod p f := by
  have hf : f ≠ 0 := by
    rintro rfl
    have := neg_one_le_deg r
    rw [deg_zero] at hdeg
    omega
  rw [← pmod_of_deg_lt hdeg]
  conv_rhs => rw [h]
  refine pmod_eq_pmod_of_dvd hf ?_
  rw [toPoly_xor, toPoly_clmul, dvd_sub_comm, add_sub_cancel_right]
  exact dvd_mul_left _ _

theorem exists_eq_clmul_xor_pmod {f : Nat} (hf : f ≠ 0) (p : Nat) : ∃ q, p = clmul q f ^^^ pmod p f := by
  obtain ⟨Q, hQ⟩ := dvd_toPoly_sub_pmod hf p
  obtain ⟨q, rfl⟩ := toPoly_surjective Q
  refine ⟨q, toPoly_injective ?_⟩
  rw [toPoly_xor, toPoly_clmul, mul_comm, ← hQ, sub_add_cancel]

theorem deg_pmod_le {f : Nat} (hf : f ≠ 0) (p : Nat) : deg (pmod p f) ≤ deg p := by
  by_cases hlt : deg p < deg f
  · rw [pmod_of_deg_lt hlt]
  · have := deg_pmod_lt hf p
    omega

theorem pmod_one (p : Nat) : pmod p 1 = 0 := by
  have hlt : deg (pmod p 1) < 0 := deg_pmod_lt one_ne_zero p
  by_contra hne
  have := (deg_nonneg_iff _).2 hne
  omega

theorem ne_zero_of_one_le_deg {f : Nat} (hf : 1 ≤ deg f) : f ≠ 0 := (deg_nonneg_iff f).1 (by omega)

/-- A number and its remainder have the same common divisors with the modulus (40_gf2 R115). -/
theorem polyCoprime_pmod_iff {f : Nat} (hf : f ≠ 0) (a : Nat) : PolyCoprime (pmod a f) f ↔ PolyCoprime a f := by
  have hdvd {d : Nat} (hd : PolyDvd d f) : PolyDvd d (pmod a f) ↔ PolyDvd d a := by
    rw [polyDvd_iff] at hd
    rw [polyDvd_iff, polyDvd_iff, toPoly_pmod hf, EuclideanDomain.dvd_mod_iff hd]
  exact ⟨fun h d hda hdf => h d ((hdvd hdf).2 hda) hdf, fun h d hda hdf => h d ((hdvd hdf).1 hda) hdf⟩

/-- 0 has the modulus as a common divisor with it (40_gf2 R114). -/
theorem not_polyCoprime_zero {f : Nat} (hf : 1 ≤ deg f) : ¬PolyCoprime 0 f := fun h => by
  have hlt := h f ((polyDvd_iff f 0).2 (by simp)) ((polyDvd_iff f f).2 dvd_rfl)
  omega

theorem invEuclid_eq_error_iff {f : Nat} (hf : 1 ≤ deg f) (a : Nat) :
    invEuclid a f = .error .noinv ↔ ¬PolyCoprime a f := by
  rcases invEuclid_spec (a := a) hf with ⟨r, hr, -, -, hcop⟩ | ⟨herr, hnot⟩
  · simp [hr, hcop]
  · simp [herr, hnot]

theorem invEuclid_of_coprime {a f : Nat} (hf : 1 ≤ deg f) (h : PolyCoprime a f) :
    ∃ r, invEuclid a f = .ok r ∧ deg r < deg f ∧ pmod (clmul a r) f = 1 := by
  rcases invEuclid_spec (a := a) hf with ⟨r, hr, hlt, hone, -⟩ | ⟨-, hnot⟩
  · exact ⟨r, hr, hlt, hone⟩
  · exact absurd h hnot

/-- Of the polynomials below the modulus at most one is an inverse of a coprime element (40_gf2 R115). -/
theorem eq_of_pmod_clmul_eq_one {a f r r' : Nat} (hf : 1 ≤ deg f) (hcop : PolyCoprime a f) (hr : deg r < deg f)
    (hr' : deg r' < deg f) (h : pmod (clmul a r) f = 1) (h' : pmod (clmul a r') f = 1) : r' = r := by
  have hf0 := ne_zero_of_one_le_deg hf
  have hdiff : toPoly f ∣ toPoly a * (toPoly r' - toPoly r) := by
    have hdvd := dvd_toPoly_sub_pmod hf0 (clmul a r)
    have hdvd' := dvd_toPoly_sub_pmod hf0 (clmul a r')
    rw [h, toPoly_clmul] at hdvd
    rw [h', toPoly_clmul] at hdvd'
    convert dvd_sub hdvd' hdvd using 1
    ring
  have hdvd := ((polyCoprime_iff_isCoprime hf0).1 hcop).symm.dvd_of_dvd_mul_left hdiff
  rw [← pmod_of_deg_lt hr', pmod_eq_pmod_of_dvd hf0 hdvd, pmod_of_deg_lt hr]

end Sys2Proof.Machine
end

section
/-! The statements of 40_gf2 section 1 about remainders and inverses. -/

namespace Sys2Proof.Machine

/-- Settles O34: XOR, `clmul` and `pmod` are the sum, the product and the remainder of polynomials. -/
theorem fieldArithmeticLaws : Obligations.FieldArithmeticLaws := by
  unfold Obligations.FieldArithmeticLaws
  refine ⟨fun p q r => ⟨Nat.xor_assoc p q r, Nat.xor_comm p q, Nat.xor_zero p, Nat.xor_self p⟩,
    fun p q r => ⟨?assoc, ?comm, ?distrib, ?one⟩, fun u v f hf => pmod_clmul_pmod_pmod hf u v⟩
  all_goals refine toPoly_injective ?_
  case assoc => simp only [toPoly_clmul, mul_assoc]
  case comm => simp only [toPoly_clmul, mul_comm]
  case distrib => simp only [toPoly_clmul, toPoly_xor, mul_add]
  case one => simp only [toPoly_clmul, toPoly_one, mul_one]

/-- Settles O35, by the remainder of polynomial division. -/
theorem remainderIsUnique : Obligations.RemainderIsUnique := by
  unfold Obligations.RemainderIsUnique
  refine ⟨fun p f hf => ⟨deg_pmod_lt hf p, exists_eq_clmul_xor_pmod hf p, ?unique, deg_pmod_le hf p, pmod_of_deg_lt⟩,
    pmod_one⟩
  case unique => exact fun q r hdeg h => eq_pmod_of_eq_xor hdeg h

/-- Settles O37: the loop answers an inverse, inverses below the modulus are unique, and the one of the remainder is one
of the number itself. -/
theorem inverseOfACoprimeElement : Obligations.InverseOfACoprimeElement := by
  unfold Obligations.InverseOfACoprimeElement
  intro a f hf hcop
  have hf0 := ne_zero_of_one_le_deg hf
  obtain ⟨r, hinv, hlt, hone⟩ := invEuclid_of_coprime hf hcop
  have hunique (r' : Nat) (hlt' : deg r' < deg f) (hone' : pmod (clmul a r') f = 1) : r' = r :=
    eq_of_pmod_clmul_eq_one hf hcop hlt hlt' hone hone'
  obtain ⟨r', hinv', hlt', hone'⟩ := invEuclid_of_coprime hf ((polyCoprime_pmod_iff hf0 a).2 hcop)
  have hsame : pmod (clmul a r') f = 1 := by
    rw [← pmod_clmul_pmod_pmod hf0, pmod_of_deg_lt hlt', hone']
  exact ⟨r, hinv, hlt, hone, hunique, hunique r' hlt' hsame ▸ hinv'⟩

/-- Settles O38: NOINV is the loop's answer exactly without coprimality, which 0 and the multiples of `f` lack. -/
theorem noInverseExactlyWhenNotCoprime : Obligations.NoInverseExactlyWhenNotCoprime := by
  unfold Obligations.NoInverseExactlyWhenNotCoprime
  intro a f hf
  refine ⟨invEuclid_eq_error_iff hf a, (invEuclid_eq_error_iff hf 0).2 (not_polyCoprime_zero hf), fun hzero => ?_⟩
  rw [invEuclid_eq_error_iff hf, ← polyCoprime_pmod_iff (ne_zero_of_one_le_deg hf), hzero]
  exact not_polyCoprime_zero hf

end Sys2Proof.Machine
end

section
/-! SUPPORT. The residues of polynomials modulo the record's modulus, a ring in which the point formulas of 41_ec_point
section 1 can be computed with, reducible moduli included. -/

namespace Sys2Proof.Machine

/-! ### Residues (40_gf2 R112, 41_ec_point R142) -/

/-- The residue of a polynomial modulo `f`, in the ring of polynomials modulo `f`. -/
noncomputable def residue (f p : Nat) : AdjoinRoot (toPoly f) := AdjoinRoot.mk (toPoly f) (toPoly p)

theorem residue_xor (f p q : Nat) : residue f (p ^^^ q) = residue f p + residue f q := by
  rw [residue, toPoly_xor, map_add]
  rfl

theorem residue_clmul (f p q : Nat) : residue f (clmul p q) = residue f p * residue f q := by
  rw [residue, toPoly_clmul, map_mul]
  rfl

theorem residue_one (f : Nat) : residue f 1 = 1 := by
  rw [residue, toPoly_one, map_one]

theorem residue_pmod {f : Nat} (hf : f ≠ 0) (p : Nat) : residue f (pmod p f) = residue f p := by
  rw [residue, residue, eq_comm, AdjoinRoot.mk_eq_mk]
  exact dvd_toPoly_sub_pmod hf p

/-- A polynomial below the modulus is determined by its residue. -/
theorem eq_of_residue_eq {f p q : Nat} (hp : deg p < deg f) (hq : deg q < deg f) (h : residue f p = residue f q) :
    p = q := by
  have hf : f ≠ 0 := by
    rintro rfl
    have := neg_one_le_deg p
    rw [deg_zero] at hp
    omega
  rw [← pmod_of_deg_lt hp, pmod_eq_pmod_of_dvd hf (AdjoinRoot.mk_eq_mk.1 h), pmod_of_deg_lt hq]

/-- The coefficients have characteristic 2, so every residue is its own negative. -/
theorem two_eq_zero (f : Nat) : (2 : AdjoinRoot (toPoly f)) = 0 := by
  have hsum := residue_xor f 1 1
  rw [Nat.xor_self, residue, toPoly_zero, map_zero, residue_one, one_add_one_eq_two] at hsum
  exact hsum.symm

/-! ### Sums (00_scope R9) -/

theorem xor_xor_xor_cancel (a b x : Nat) : (a ^^^ x) ^^^ (b ^^^ x) = a ^^^ b := by
  rw [Nat.xor_comm b x, Nat.xor_assoc a x, ← Nat.xor_assoc x x, Nat.xor_self, Nat.zero_xor]

/-- From `a + b = y + z` follows `a + y = b + z`. -/
theorem xor_eq_xor_of_xor_eq {a b y z : Nat} (x : Nat) (h : a ^^^ b = y ^^^ z) : a ^^^ x ^^^ y = b ^^^ x ^^^ z := by
  have ha : a = y ^^^ (z ^^^ b) := by
    rw [← Nat.xor_assoc, ← h, Nat.xor_assoc, Nat.xor_self, Nat.xor_zero]
  have hay : a ^^^ y = b ^^^ z := by
    rw [ha, Nat.xor_comm, ← Nat.xor_assoc, Nat.xor_self, Nat.zero_xor, Nat.xor_comm]
  rw [Nat.xor_right_comm, hay, Nat.xor_right_comm]

theorem deg_xor_le (p q : Nat) : deg (p ^^^ q) ≤ max (deg p) (deg q) := by
  have hp := Nat.lt_of_lt_of_le (lt_two_pow_bitLen p) (Nat.pow_le_pow_right (by decide) (le_max_left _ (bitLen q)))
  have hq := Nat.lt_of_lt_of_le (lt_two_pow_bitLen q) (Nat.pow_le_pow_right (by decide) (le_max_right (bitLen p) _))
  have hlt := (deg_lt_iff _ _).2 (Nat.xor_lt_two_pow hp hq)
  have h1 := bitLen_eq p
  have h2 := bitLen_eq q
  omega

theorem deg_xor_lt_of_lt {p q : Nat} {n : Int} (hp : deg p < n) (hq : deg q < n) : deg (p ^^^ q) < n :=
  Int.lt_of_le_of_lt (deg_xor_le p q) (max_lt hp hq)

/-! ### The field operations (41_ec_point R142) -/

section
variable {c : Curve}

theorem deg_feMul_lt (hf : 1 ≤ deg c.f) (u v : Nat) : deg (feMul c u v) < deg c.f :=
  deg_pmod_lt (ne_zero_of_one_le_deg hf) _

theorem deg_feSqr_lt (hf : 1 ≤ deg c.f) (u : Nat) : deg (feSqr c u) < deg c.f := deg_feMul_lt hf u u

theorem residue_feMul (hf : 1 ≤ deg c.f) (u v : Nat) :
    residue c.f (feMul c u v) = residue c.f u * residue c.f v := by
  rw [feMul, residue_pmod (ne_zero_of_one_le_deg hf), residue_clmul]

theorem residue_feSqr (hf : 1 ≤ deg c.f) (u : Nat) : residue c.f (feSqr c u) = residue c.f u ^ 2 := by
  rw [feSqr, residue_feMul hf, sq]

theorem feMul_xor (hf : 1 ≤ deg c.f) (u v w : Nat) : feMul c u (v ^^^ w) = feMul c u v ^^^ feMul c u w := by
  refine eq_of_residue_eq (deg_feMul_lt hf _ _) (deg_xor_lt_of_lt (deg_feMul_lt hf _ _) (deg_feMul_lt hf _ _)) ?_
  simp only [residue_feMul hf, residue_xor, mul_add]

/-- What `fe_inv` answers is an inverse (41_ec_point R142). -/
theorem feInv_spec (hf : 1 ≤ deg c.f) {u inv : Nat} (h : feInv c u = .ok inv) :
    residue c.f u * residue c.f inv = 1 := by
  rcases invEuclid_spec (a := u) hf with ⟨r, hr, -, hone, -⟩ | ⟨herr, -⟩
  · cases hr.symm.trans h
    rw [← residue_clmul, ← residue_pmod (ne_zero_of_one_le_deg hf), hone, residue_one]
  · cases herr.symm.trans h

theorem feInv_of_coprime (hf : 1 ≤ deg c.f) {u : Nat} (h : PolyCoprime u c.f) : ∃ inv, feInv c u = .ok inv := by
  obtain ⟨inv, hinv, -⟩ := invEuclid_of_coprime hf h
  exact ⟨inv, hinv⟩

/-- A quotient times its divisor is the reduced dividend. -/
theorem feMul_quotient (hf : 1 ≤ deg c.f) {u inv : Nat} (h : feInv c u = .ok inv) (v : Nat) :
    feMul c (feMul c v inv) u = pmod v c.f := by
  have hf0 := ne_zero_of_one_le_deg hf
  refine eq_of_residue_eq (deg_feMul_lt hf _ _) (deg_pmod_lt hf0 v) ?_
  rw [residue_feMul hf, residue_feMul hf, residue_pmod hf0, mul_assoc, mul_comm (residue c.f inv), feInv_spec hf h,
    mul_one]

end

end Sys2Proof.Machine
end

section
/-! SUPPORT. What the point functions can answer: the cases of 41_ec_point R144 and R145 with their formulas. -/

namespace Sys2Proof.Machine

/-! ### The formulas (41_ec_point R144 case 5, R145) -/

/-- The sum of two points whose chord has the slope `lam` (41_ec_point R144, case 5). -/
def chordPoint (c : Curve) (p q : Point) (lam : Nat) : Point :=
  ⟨feSqr c lam ^^^ lam ^^^ p.x ^^^ q.x ^^^ c.a,
    feMul c lam (p.x ^^^ (feSqr c lam ^^^ lam ^^^ p.x ^^^ q.x ^^^ c.a)) ^^^
      (feSqr c lam ^^^ lam ^^^ p.x ^^^ q.x ^^^ c.a) ^^^ p.y⟩

/-- The double of a point whose tangent has the slope `lam` (41_ec_point R145). -/
def tangentPoint (c : Curve) (p : Point) (lam : Nat) : Point :=
  ⟨feSqr c lam ^^^ lam ^^^ c.a,
    feMul c lam (feSqr c lam ^^^ lam ^^^ c.a ^^^ p.x) ^^^ (feSqr c lam ^^^ lam ^^^ c.a) ^^^ p.y⟩

theorem Point.eq_iff (p q : Point) : p = q ↔ p.x = q.x ∧ p.y = q.y := by
  cases p
  cases q
  simp

/-! ### Doubling (41_ec_point R145) -/

@[simp] theorem ecDouble_infinity (c : Curve) : ecDouble c Point.infinity = .ok Point.infinity := rfl

theorem ecDouble_of_finite {p : Point} (h : p.isInf = false) (c : Curve) :
    ecDouble c p = feInv c p.x >>= fun inv => .ok (tangentPoint c p (p.x ^^^ feMul c p.y inv)) := by
  unfold ecDouble
  rw [h]
  rfl

/-- A double is infinity's, or lies on the tangent. -/
theorem ecDouble_eq_ok {c : Curve} {p r : Point} (h : ecDouble c p = .ok r) :
    r = Point.infinity ∨
      (p.isInf = false ∧ ∃ inv, feInv c p.x = .ok inv ∧ r = tangentPoint c p (p.x ^^^ feMul c p.y inv)) := by
  cases hp : p.isInf with
  | true =>
    rw [(Point.isInf_iff p).1 hp, ecDouble_infinity] at h
    cases h
    exact .inl rfl
  | false =>
    rw [ecDouble_of_finite hp, bind_eq_ok] at h
    obtain ⟨inv, hinv, hok⟩ := h
    cases hok
    exact .inr ⟨rfl, inv, hinv, rfl⟩

/-! ### Addition (41_ec_point R144) -/

theorem ecPlus_self (c : Curve) (p : Point) : ecPlus c p p = ecDouble c p := if_pos ⟨rfl, rfl⟩

@[simp] theorem ecPlus_infinity_left (c : Curve) (p : Point) : ecPlus c Point.infinity p = .ok p := by
  by_cases hp : p = Point.infinity
  · rw [hp, ecPlus_self, ecDouble_infinity]
  · rw [ecPlus, if_neg fun h => hp ((Point.eq_iff _ _).2 h).symm]
    rfl

@[simp] theorem ecPlus_infinity_right (c : Curve) (p : Point) : ecPlus c p Point.infinity = .ok p := by
  by_cases hp : p = Point.infinity
  · rw [hp, ecPlus_self, ecDouble_infinity]
  · have hfinite : ¬p.isInf = true := mt (Point.isInf_iff p).1 hp
    rw [ecPlus, if_neg (mt (Point.eq_iff _ _).2 hp), if_neg hfinite]
    rfl

section
variable {p q : Point} (hne : p ≠ q) (hp : p.isInf = false) (hq : q.isInf = false)
include hne hp hq

theorem ecPlus_of_opposite (h : p.x = q.x ∧ q.y = p.x ^^^ p.y) (c : Curve) : ecPlus c p q = .ok Point.infinity := by
  rw [ecPlus, if_neg (mt (Point.eq_iff p q).2 hne), if_neg (Bool.eq_false_iff.1 hp), if_neg (Bool.eq_false_iff.1 hq),
    if_pos h]

theorem ecPlus_of_chord (h : ¬(p.x = q.x ∧ q.y = p.x ^^^ p.y)) (c : Curve) :
    ecPlus c p q =
      feInv c (p.x ^^^ q.x) >>= fun inv => .ok (chordPoint c p q (feMul c (p.y ^^^ q.y) inv)) := by
  rw [ecPlus, if_neg (mt (Point.eq_iff p q).2 hne), if_neg (Bool.eq_false_iff.1 hp), if_neg (Bool.eq_false_iff.1 hq),
    if_neg h]
  rfl

end

/-- Being opposite is symmetric (41_ec_point R144, case 4). -/
theorem opposite_symm {p q : Point} (h : p.x = q.x ∧ q.y = p.x ^^^ p.y) : q.x = p.x ∧ p.y = q.x ^^^ q.y := by
  obtain ⟨hx, hy⟩ := h
  rw [hy, hx, ← Nat.xor_assoc, Nat.xor_self, Nat.zero_xor]
  exact ⟨rfl, rfl⟩

/-- A sum is a double, one of the points, infinity, or lies on the chord. -/
theorem ecPlus_eq_ok {c : Curve} {p q r : Point} (h : ecPlus c p q = .ok r) :
    ecDouble c p = .ok r ∨ r = q ∨ r = p ∨ r = Point.infinity ∨
      (p.isInf = false ∧ q.isInf = false ∧ ∃ inv, feInv c (p.x ^^^ q.x) = .ok inv ∧
        r = chordPoint c p q (feMul c (p.y ^^^ q.y) inv)) := by
  by_cases hpq : p = q
  · rw [← hpq, ecPlus_self] at h
    exact .inl h
  by_cases hp : p = Point.infinity
  · rw [hp, ecPlus_infinity_left] at h
    cases h
    exact .inr (.inl rfl)
  by_cases hq : q = Point.infinity
  · rw [hq, ecPlus_infinity_right] at h
    cases h
    exact .inr (.inr (.inl rfl))
  have hp' : p.isInf = false := Bool.eq_false_iff.2 (mt (Point.isInf_iff p).1 hp)
  have hq' : q.isInf = false := Bool.eq_false_iff.2 (mt (Point.isInf_iff q).1 hq)
  by_cases hopp : p.x = q.x ∧ q.y = p.x ^^^ p.y
  · rw [ecPlus_of_opposite hpq hp' hq' hopp] at h
    cases h
    exact .inr (.inr (.inr (.inl rfl)))
  · rw [ecPlus_of_chord hpq hp' hq' hopp, bind_eq_ok] at h
    obtain ⟨inv, hinv, hok⟩ := h
    cases hok
    exact .inr (.inr (.inr (.inr ⟨hp', hq', inv, hinv, rfl⟩)))

/-- The order of the points makes no difference on a chord whose slope is that of reduced `y` (95_test_vectors L1.1). -/
theorem chordPoint_comm {c : Curve} (hf : 1 ≤ deg c.f) {p q : Point} {lam : Nat}
    (h : feMul c lam (p.x ^^^ q.x) = p.y ^^^ q.y) : chordPoint c p q lam = chordPoint c q p lam := by
  have hx : feSqr c lam ^^^ lam ^^^ p.x ^^^ q.x ^^^ c.a = feSqr c lam ^^^ lam ^^^ q.x ^^^ p.x ^^^ c.a := by
    rw [Nat.xor_right_comm (feSqr c lam ^^^ lam)]
  have hy (x : Nat) : feMul c lam (p.x ^^^ x) ^^^ x ^^^ p.y = feMul c lam (q.x ^^^ x) ^^^ x ^^^ q.y := by
    have hsplit : feMul c lam (p.x ^^^ x) ^^^ feMul c lam (q.x ^^^ x) = p.y ^^^ q.y := by
      rw [← feMul_xor hf, ← h]
      rw [xor_xor_xor_cancel]
    exact xor_eq_xor_of_xor_eq x hsplit
  rw [chordPoint, chordPoint, hx, hy]

/-! ### Scalar multiplication (41_ec_point R146) -/

theorem ecTimesBelow_succ (c : Curve) (p : Point) (k n : Nat) (acc : Point) :
    ecTimesBelow c p k (n + 1) acc =
      ecDouble c acc >>= fun twice =>
        ecPlus c twice (if k.testBit n then p else Point.infinity) >>= ecTimesBelow c p k n := rfl

/-- The loop over the bits of `2k + b` is the loop over those of `k` and one more pass for `b`. -/
theorem ecTimesBelow_bit (c : Curve) (p : Point) (b : Bool) (k n : Nat) (acc : Point) :
    ecTimesBelow c p (Nat.bit b k) (n + 1) acc =
      ecTimesBelow c p k n acc >>= fun z =>
        ecDouble c z >>= fun d => ecPlus c d (if b then p else Point.infinity) := by
  induction n generalizing acc with
  | zero =>
    rw [ecTimesBelow_succ, Nat.testBit_bit_zero]
    exact congrArg (ecDouble c acc >>= ·) (funext fun d => bind_pure _)
  | succ n ih =>
    rw [ecTimesBelow_succ, Nat.testBit_bit_succ, ecTimesBelow_succ, bind_assoc]
    refine congrArg (ecDouble c acc >>= ·) (funext fun twice => ?_)
    rw [bind_assoc]
    exact congrArg (ecPlus c twice _ >>= ·) (funext fun next => ih next)

theorem bitLen_bit (b : Bool) {k : Nat} (hk : 1 ≤ k) : bitLen (Nat.bit b k) = bitLen k + 1 := by
  have hiff (n : Nat) : bitLen (Nat.bit b k) ≤ n + 1 ↔ bitLen k ≤ n := by
    rw [bitLen_le_iff, bitLen_le_iff, Nat.pow_succ, Nat.bit_val]
    cases b <;> simp <;> omega
  have hle := (hiff (bitLen k)).2 le_rfl
  have hge : ¬bitLen (Nat.bit b k) ≤ bitLen k := by
    have hpos : 0 < bitLen k := Nat.pos_of_ne_zero fun h0 => by
      have := (bitLen_le_iff k 0).1 h0.le
      omega
    obtain ⟨n, hn⟩ := Nat.exists_eq_succ_of_ne_zero hpos.ne'
    rw [hn, Nat.succ_eq_add_one, hiff]
    omega
  omega

theorem ecTimes_zero (c : Curve) (p : Point) : ecTimes c p 0 = .ok Point.infinity := rfl

theorem ecTimes_bit (c : Curve) (p : Point) (b : Bool) {k : Nat} (hk : 1 ≤ k) :
    ecTimes c p (Nat.bit b k) =
      ecTimes c p k >>= fun z => ecDouble c z >>= fun d => ecPlus c d (if b then p else Point.infinity) := by
  rw [ecTimes, bitLen_bit b hk, ecTimesBelow_bit, ecTimes]

theorem ecTimes_one (c : Curve) (p : Point) : ecTimes c p 1 = .ok p := by
  have hpass : ecTimes c p 1 = ecTimesBelow c p 1 1 Point.infinity := rfl
  rw [hpass, ecTimesBelow_succ, ecDouble_infinity]
  exact (bind_pure _).trans (ecPlus_infinity_left c p)

/-- What doubling and adding keep, a multiple has, if the point and infinity have it. -/
theorem ecTimes_induction {c : Curve} {p : Point} {P : Point → Prop} (hp : P p) (hinf : P Point.infinity)
    (hdouble : ∀ q r, P q → ecDouble c q = .ok r → P r) (hplus : ∀ q q' r, P q → P q' → ecPlus c q q' = .ok r → P r)
    {k : Nat} {r : Point} (h : ecTimes c p k = .ok r) : P r := by
  have hloop (n : Nat) : ∀ acc, P acc → ecTimesBelow c p k n acc = .ok r → P r := by
    induction n with
    | zero =>
      intro acc hacc hok
      cases hok
      exact hacc
    | succ n ih =>
      intro acc hacc hok
      rw [ecTimesBelow_succ] at hok
      obtain ⟨twice, htwice, hok⟩ := bind_eq_ok.1 hok
      obtain ⟨next, hnext, hok⟩ := bind_eq_ok.1 hok
      have hadd : P (if k.testBit n then p else Point.infinity) := by
        split
        · exact hp
        · exact hinf
      exact ih next (hplus _ _ _ (hdouble _ _ hacc htwice) hadd hnext) hok
  exact hloop _ _ hinf h

/-! ### Coordinates that fit a slot (41_ec_point R148) -/

/-- Both coordinates have degree below `w`. -/
def CoordsBelow (w : Nat) (p : Point) : Prop := deg p.x < w ∧ deg p.y < w

theorem coordsBelow_infinity (w : Nat) : CoordsBelow w Point.infinity := by
  have hneg : deg 0 < (w : Int) := by
    rw [deg_zero]
    omega
  exact ⟨hneg, hneg⟩

section
variable {c : Curve} {w : Nat} (hf : 1 ≤ deg c.f) (hfw : deg c.f < w) (ha : deg c.a < w)
include hf hfw

theorem deg_feMul_lt_width (u v : Nat) : deg (feMul c u v) < w := (deg_feMul_lt hf u v).trans hfw

include ha

theorem coordsBelow_tangentPoint {p : Point} {lam : Nat} (hp : CoordsBelow w p) (hlam : deg lam < w) :
    CoordsBelow w (tangentPoint c p lam) := by
  obtain ⟨hpx, hpy⟩ := hp
  have hmul := deg_feMul_lt_width hf hfw
  have hx : deg (tangentPoint c p lam).x < w := deg_xor_lt_of_lt (deg_xor_lt_of_lt (hmul _ _) hlam) ha
  exact ⟨hx, deg_xor_lt_of_lt (deg_xor_lt_of_lt (hmul _ _) hx) hpy⟩

theorem coordsBelow_chordPoint {p q : Point} {lam : Nat} (hp : CoordsBelow w p) (hq : CoordsBelow w q)
    (hlam : deg lam < w) : CoordsBelow w (chordPoint c p q lam) := by
  obtain ⟨hpx, hpy⟩ := hp
  obtain ⟨hqx, -⟩ := hq
  have hmul := deg_feMul_lt_width hf hfw
  have hx : deg (chordPoint c p q lam).x < w :=
    deg_xor_lt_of_lt (deg_xor_lt_of_lt (deg_xor_lt_of_lt (deg_xor_lt_of_lt (hmul _ _) hlam) hpx) hqx) ha
  exact ⟨hx, deg_xor_lt_of_lt (deg_xor_lt_of_lt (hmul _ _) hx) hpy⟩

theorem coordsBelow_ecDouble {p r : Point} (hp : CoordsBelow w p) (h : ecDouble c p = .ok r) : CoordsBelow w r := by
  rcases ecDouble_eq_ok h with rfl | ⟨-, inv, -, rfl⟩
  · exact coordsBelow_infinity w
  · exact coordsBelow_tangentPoint hf hfw ha hp (deg_xor_lt_of_lt hp.1 (deg_feMul_lt_width hf hfw _ _))

theorem coordsBelow_ecPlus {p q r : Point} (hp : CoordsBelow w p) (hq : CoordsBelow w q) (h : ecPlus c p q = .ok r) :
    CoordsBelow w r := by
  rcases ecPlus_eq_ok h with h | rfl | rfl | rfl | ⟨-, -, inv, -, rfl⟩
  · exact coordsBelow_ecDouble hf hfw ha hp h
  · exact hq
  · exact hp
  · exact coordsBelow_infinity w
  · exact coordsBelow_chordPoint hf hfw ha hp hq (deg_feMul_lt_width hf hfw _ _)

end

end Sys2Proof.Machine
end

section
/-! The statements of 41_ec_point section 1 about sums, doubles and multiples. -/

namespace Sys2Proof.Machine

/-- Settles O44: the first four cases of the addition. -/
theorem pointAdditionSpecialCases : Obligations.PointAdditionSpecialCases := by
  unfold Obligations.PointAdditionSpecialCases
  intro c p
  refine ⟨ecPlus_self c p, ecPlus_infinity_left c p, ecPlus_infinity_right c p, fun hx => ?opposite⟩
  case opposite =>
    have hne : p ≠ ⟨p.x, p.x ^^^ p.y⟩ := fun heq => by
      have hy : p.y = p.x ^^^ p.y := congrArg Point.y heq
      exact hx (by rw [← Nat.xor_xor_cancel_right p.x p.y, ← hy, Nat.xor_self])
    have hfinite {y : Nat} : (⟨p.x, y⟩ : Point).isInf = false := by simp [Point.isInf, hx]
    exact ecPlus_of_opposite hne hfinite hfinite ⟨rfl, rfl⟩ c

/-- Settles O45: the slope is the quotient of the differences, which exists exactly if that of the `x` is coprime to the
modulus. -/
theorem pointAdditionFollowsTheChord : Obligations.PointAdditionFollowsTheChord := by
  unfold Obligations.PointAdditionFollowsTheChord
  intro c p q hf hp hq
  refine ⟨fun hcop => ?chord, fun hnot hne hopp => ?noinv⟩
  case chord =>
    have hx : p.x ≠ q.x := fun heq => not_polyCoprime_zero hf (by rwa [heq, Nat.xor_self] at hcop)
    obtain ⟨inv, hinv⟩ := feInv_of_coprime hf hcop
    refine ⟨feMul c (p.y ^^^ q.y) inv, deg_feMul_lt hf _ _, feMul_quotient hf hinv _, ?_⟩
    rw [ecPlus_of_chord (fun heq => hx (congrArg Point.x heq)) hp hq fun h => hx h.1, hinv]
    rfl
  case noinv =>
    rw [ecPlus_of_chord hne hp hq hopp, feInv, (invEuclid_eq_error_iff hf _).2 hnot]
    rfl

/-- Settles O46: the slope is `P.x` plus a quotient, which exists exactly if `P.x` is coprime to the modulus. -/
theorem pointDoublingFollowsTheTangent : Obligations.PointDoublingFollowsTheTangent := by
  unfold Obligations.PointDoublingFollowsTheTangent
  intro c p hf
  refine ⟨ecDouble_infinity c, fun hcop => ?tangent, fun hnot hp => ?noinv⟩
  case tangent =>
    have hx : p.x ≠ 0 := fun heq => not_polyCoprime_zero hf (heq ▸ hcop)
    obtain ⟨inv, hinv⟩ := feInv_of_coprime hf hcop
    refine ⟨feMul c p.y inv, deg_feMul_lt hf _ _, feMul_quotient hf hinv _, ?_⟩
    rw [ecDouble_of_finite (by simp [Point.isInf, hx]), hinv]
    rfl
  case noinv =>
    rw [ecDouble_of_finite hp, feInv, (invEuclid_eq_error_iff hf _).2 hnot]
    rfl

/-- Settles O47, by the cases of the addition; on a chord the two orders have one slope. -/
theorem pointAdditionCommutes : Obligations.PointAdditionCommutes := by
  unfold Obligations.PointAdditionCommutes
  intro c p q hf hpy hqy
  by_cases hne : p = q
  · rw [hne]
  by_cases hp : p = Point.infinity
  · rw [hp, ecPlus_infinity_left, ecPlus_infinity_right]
  by_cases hq : q = Point.infinity
  · rw [hq, ecPlus_infinity_left, ecPlus_infinity_right]
  have hp' : p.isInf = false := Bool.eq_false_iff.2 (mt (Point.isInf_iff p).1 hp)
  have hq' : q.isInf = false := Bool.eq_false_iff.2 (mt (Point.isInf_iff q).1 hq)
  by_cases hopp : p.x = q.x ∧ q.y = p.x ^^^ p.y
  · rw [ecPlus_of_opposite hne hp' hq' hopp, ecPlus_of_opposite (Ne.symm hne) hq' hp' (opposite_symm hopp)]
  · rw [ecPlus_of_chord hne hp' hq' hopp, ecPlus_of_chord (Ne.symm hne) hq' hp' (mt opposite_symm hopp),
      Nat.xor_comm q.x, Nat.xor_comm q.y]
    cases hinv : feInv c (p.x ^^^ q.x) with
    | error e => rfl
    | ok inv =>
      have hslope := feMul_quotient hf hinv (p.y ^^^ q.y)
      rw [pmod_of_deg_lt (deg_xor_lt_of_lt hpy hqy)] at hslope
      exact congrArg Except.ok (chordPoint_comm hf hslope)

/-- Settles O49: the loop over one more bit is one more pass. -/
theorem scalarMultiplicationIsDoubleAndAdd : Obligations.ScalarMultiplicationIsDoubleAndAdd := by
  unfold Obligations.ScalarMultiplicationIsDoubleAndAdd
  intro c p
  exact ⟨ecTimes_zero c p, ecTimes_one c p, fun k hk => ⟨ecTimes_bit c p false hk, ecTimes_bit c p true hk⟩⟩

/-- Settles O50: every formula is a sum of reduced products and of coordinates that fit. -/
theorem coordinatesFitTheirSlots : Obligations.CoordinatesFitTheirSlots := by
  unfold Obligations.CoordinatesFitTheirSlots
  intro c p q r k w hf hfw ha hpx hpy hqx hqy h
  have hp : CoordsBelow w p := ⟨hpx, hpy⟩
  have hdouble (u v : Point) (hu : CoordsBelow w u) (h : ecDouble c u = .ok v) : CoordsBelow w v :=
    coordsBelow_ecDouble hf hfw ha hu h
  have hplus (u u' v : Point) (hu : CoordsBelow w u) (hu' : CoordsBelow w u') (h : ecPlus c u u' = .ok v) :
      CoordsBelow w v := coordsBelow_ecPlus hf hfw ha hu hu' h
  rcases h with h | h | h
  · exact hplus p q r hp ⟨hqx, hqy⟩ h
  · exact hdouble p r hp h
  · exact ecTimes_induction hp (coordsBelow_infinity w) hdouble hplus h

end Sys2Proof.Machine
end

section
/-! SUPPORT. The group law keeps the curve (41_ec_point R144, R145, R147; 95_test_vectors L1.4), first in any
commutative ring, then for the residues modulo the record's modulus. -/

namespace Sys2Proof.Machine

/-! ### The curve over a commutative ring -/

section
variable {R : Type*} [CommRing R] {a b x₁ y₁ x₂ y₂ x₃ lam : R}

/-- `y² + xy = x³ + ax² + b` (41_ec_point R147). -/
def OnCurveEq (a b x y : R) : Prop := y ^ 2 + x * y = x ^ 3 + a * x ^ 2 + b

/-- The line of slope `lam` through a point of the curve meets it in `x₁`, `x₂`, `x₃` if the coefficients of `x²` and of
`x` are those of `(x - x₁)(x - x₂)(x - x₃)`; the negative of the third point is on the curve. -/
theorem onCurveEq_third (hp : OnCurveEq a b x₁ y₁) (hx : x₁ + x₂ + x₃ = lam ^ 2 + lam - a)
    (hlin : x₁ * x₂ + x₁ * x₃ + x₂ * x₃ = 2 * lam ^ 2 * x₁ - 2 * lam * y₁ - y₁ + lam * x₁) :
    OnCurveEq a b x₃ (-(lam * (x₃ - x₁) + y₁) - x₃) := by
  unfold OnCurveEq at *
  linear_combination hp + (x₃ - x₁) * hlin - (x₃ - x₁) * (x₃ + x₁) * hx

/-- A chord meets the curve in a third point, the difference of the `x` being a unit (41_ec_point R144, case 5). -/
theorem onCurveEq_chord (hp : OnCurveEq a b x₁ y₁) (hq : OnCurveEq a b x₂ y₂) (hunit : IsUnit (x₂ - x₁))
    (hlam : lam * (x₂ - x₁) = y₂ - y₁) (hx : x₁ + x₂ + x₃ = lam ^ 2 + lam - a) :
    OnCurveEq a b x₃ (-(lam * (x₃ - x₁) + y₁) - x₃) := by
  obtain rfl : y₂ = y₁ + lam * (x₂ - x₁) := by linear_combination -hlam
  refine onCurveEq_third hp hx (hunit.mul_left_cancel ?_)
  unfold OnCurveEq at hp hq
  linear_combination hq - hp + (x₂ - x₁) * (x₁ + x₂) * hx

/-- A tangent meets the curve in a third point (41_ec_point R145). -/
theorem onCurveEq_tangent (hp : OnCurveEq a b x₁ y₁) (hlam : lam * (2 * y₁ + x₁) = 3 * x₁ ^ 2 + 2 * a * x₁ - y₁)
    (hx : x₁ + x₁ + x₃ = lam ^ 2 + lam - a) :
    OnCurveEq a b x₃ (-(lam * (x₃ - x₁) + y₁) - x₃) := by
  refine onCurveEq_third hp hx ?_
  linear_combination hlam + 2 * x₁ * hx

/-- The chord in characteristic 2, with the slope as a quotient (41_ec_point R144, case 5). -/
theorem onCurveEq_chord_of_two_eq_zero {inv : R} (h2 : (2 : R) = 0) (hp : OnCurveEq a b x₁ y₁)
    (hq : OnCurveEq a b x₂ y₂) (hinv : (x₁ + x₂) * inv = 1) (hlam : lam = (y₁ + y₂) * inv)
    (hx : x₃ = lam ^ 2 + lam + x₁ + x₂ + a) : OnCurveEq a b x₃ (lam * (x₁ + x₃) + x₃ + y₁) := by
  have hunit : IsUnit (x₂ - x₁) := IsUnit.of_mul_eq_one inv (by linear_combination hinv - x₁ * inv * h2)
  have hslope : lam * (x₁ + x₂) = y₁ + y₂ := by linear_combination (x₁ + x₂) * hlam + (y₁ + y₂) * hinv
  convert onCurveEq_chord (x₃ := x₃) (lam := lam) hp hq hunit ?slope ?sum using 1
  case slope => linear_combination hslope + (y₁ - lam * x₁) * h2
  case sum => linear_combination hx + (x₁ + x₂ + a) * h2
  linear_combination (lam * x₃ + x₃ + y₁) * h2

/-- The tangent in characteristic 2, with the slope as `x` plus a quotient (41_ec_point R145). -/
theorem onCurveEq_tangent_of_two_eq_zero {inv : R} (h2 : (2 : R) = 0) (hp : OnCurveEq a b x₁ y₁)
    (hinv : x₁ * inv = 1) (hlam : lam = x₁ + y₁ * inv) (hx : x₃ = lam ^ 2 + lam + a) :
    OnCurveEq a b x₃ (lam * (x₃ + x₁) + x₃ + y₁) := by
  have hslope : lam * x₁ = x₁ ^ 2 + y₁ := by linear_combination x₁ * hlam + y₁ * hinv
  convert onCurveEq_tangent (x₃ := x₃) (lam := lam) hp ?slope ?sum using 1
  case slope => linear_combination hslope + (lam * y₁ - x₁ ^ 2 - a * x₁ + y₁) * h2
  case sum => linear_combination hx + (x₁ + a) * h2
  linear_combination (lam * x₃ + x₃ + y₁) * h2

end

/-! ### Curve membership by residues (41_ec_point R147) -/

section
variable {c : Curve} (hf : 1 ≤ deg c.f)
include hf

/-- A finite point is on the curve if its residues are and the coefficient b, which enters unreduced, is reduced. -/
theorem onCurve_iff_residue {p : Point} (hp : p.isInf = false) :
    onCurve c p = true ↔ deg c.b < deg c.f ∧
      OnCurveEq (residue c.f c.a) (residue c.f c.b) (residue c.f p.x) (residue c.f p.y) := by
  have hleft := deg_xor_lt_of_lt (deg_feSqr_lt hf p.y) (deg_feMul_lt hf p.x p.y)
  have hright := deg_xor_lt_of_lt (deg_feMul_lt hf (feSqr c p.x) p.x) (deg_feMul_lt hf c.a (feSqr c p.x))
  have hdef : onCurve c p = true ↔
      feSqr c p.y ^^^ feMul c p.x p.y = feMul c (feSqr c p.x) p.x ^^^ feMul c c.a (feSqr c p.x) ^^^ c.b := by
    rw [onCurve, hp, Bool.false_or, beq_iff_eq]
  have hresidue : OnCurveEq (residue c.f c.a) (residue c.f c.b) (residue c.f p.x) (residue c.f p.y) ↔
      residue c.f (feSqr c p.y ^^^ feMul c p.x p.y) =
        residue c.f (feMul c (feSqr c p.x) p.x ^^^ feMul c c.a (feSqr c p.x) ^^^ c.b) := by
    simp only [OnCurveEq, residue_xor, residue_feMul hf, residue_feSqr hf, pow_succ _ 2]
  rw [hdef, hresidue]
  constructor
  · intro heq
    refine ⟨?_, congrArg _ heq⟩
    rw [← Nat.xor_xor_cancel_left (feMul c (feSqr c p.x) p.x ^^^ feMul c c.a (feSqr c p.x)) c.b, ← heq]
    exact deg_xor_lt_of_lt hright hleft
  · rintro ⟨hb, heq⟩
    exact eq_of_residue_eq hleft (deg_xor_lt_of_lt hright hb) heq

theorem onCurve_chordPoint {p q : Point} {inv : Nat} (hp : p.isInf = false) (hq : q.isInf = false)
    (hpc : onCurve c p = true) (hqc : onCurve c q = true) (hinv : feInv c (p.x ^^^ q.x) = .ok inv) :
    onCurve c (chordPoint c p q (feMul c (p.y ^^^ q.y) inv)) = true := by
  cases hr : (chordPoint c p q (feMul c (p.y ^^^ q.y) inv)).isInf with
  | true => rw [onCurve, hr, Bool.true_or]
  | false =>
    obtain ⟨hb, hpeq⟩ := (onCurve_iff_residue hf hp).1 hpc
    obtain ⟨-, hqeq⟩ := (onCurve_iff_residue hf hq).1 hqc
    refine (onCurve_iff_residue hf hr).2 ⟨hb, ?_⟩
    have hone := feInv_spec hf hinv
    rw [residue_xor] at hone
    simp only [chordPoint, residue_xor, residue_feMul hf, residue_feSqr hf]
    exact onCurveEq_chord_of_two_eq_zero (two_eq_zero c.f) hpeq hqeq hone rfl rfl

theorem onCurve_tangentPoint {p : Point} {inv : Nat} (hp : p.isInf = false) (hpc : onCurve c p = true)
    (hinv : feInv c p.x = .ok inv) : onCurve c (tangentPoint c p (p.x ^^^ feMul c p.y inv)) = true := by
  cases hr : (tangentPoint c p (p.x ^^^ feMul c p.y inv)).isInf with
  | true => rw [onCurve, hr, Bool.true_or]
  | false =>
    obtain ⟨hb, hpeq⟩ := (onCurve_iff_residue hf hp).1 hpc
    refine (onCurve_iff_residue hf hr).2 ⟨hb, ?_⟩
    simp only [tangentPoint, residue_xor, residue_feMul hf, residue_feSqr hf]
    exact onCurveEq_tangent_of_two_eq_zero (two_eq_zero c.f) hpeq (feInv_spec hf hinv) rfl rfl

theorem onCurve_ecDouble {p r : Point} (hp : onCurve c p = true) (h : ecDouble c p = .ok r) : onCurve c r = true := by
  rcases ecDouble_eq_ok h with rfl | ⟨hfinite, inv, hinv, rfl⟩
  · rfl
  · exact onCurve_tangentPoint hf hfinite hp hinv

theorem onCurve_ecPlus {p q r : Point} (hp : onCurve c p = true) (hq : onCurve c q = true) (h : ecPlus c p q = .ok r) :
    onCurve c r = true := by
  rcases ecPlus_eq_ok h with h | rfl | rfl | rfl | ⟨hpf, hqf, inv, hinv, rfl⟩
  · exact onCurve_ecDouble hf hp h
  · exact hq
  · exact hp
  · rfl
  · exact onCurve_chordPoint hf hpf hqf hp hq hinv

end

end Sys2Proof.Machine
end

section
/-! The statement of 95_test_vectors L1.4, and the statements of 42_ecdh R170 and R172. -/

namespace Sys2Proof.Machine

/-- Settles O48: chord and tangent meet the curve again, also where the residues are no field. -/
theorem pointSumsStayOnTheCurve : Obligations.PointSumsStayOnTheCurve := by
  unfold Obligations.PointSumsStayOnTheCurve
  intro c p q r hf hp hq
  exact ⟨onCurve_ecPlus hf hp hq, onCurve_ecDouble hf hp⟩

/-- Settles O55: ECDH_GENPUB is the command that reads a curve and computes a multiple of its base point. -/
theorem ecdhGenpubCommand : Obligations.EcdhGenpubCommand := by
  unfold Obligations.EcdhGenpubCommand
  refine ⟨fun c hcmd => decode_of_row hcmd rfl rfl, fun pub d crv s => ?_⟩
  exact pointCommand_of_curveRule (fun c => ecTimes c c.base (s.fe d crv.fsb)) rfl (ecdhGenpub_regions_iff s pub d crv)

/-- Settles O57: ECDH_SHARED is the command that reads a curve and stores the x coordinate of a multiple. -/
theorem ecdhSharedCommand : Obligations.EcdhSharedCommand := by
  unfold Obligations.EcdhSharedCommand
  refine ⟨fun c hcmd => decode_of_row hcmd rfl rfl, fun secret d peer crv s => ?_⟩
  have hrule : ruleOf (.ecdhShared secret d peer crv) s =
      curveRule crv s (s.inRange d crv.fsb && s.inRange peer (packedLen crv.fsb) && s.inRange secret crv.fsb) fun c =>
        ecTimes c (s.readPoint crv.fsb peer) (s.fe d crv.fsb) >>= fun z =>
          .ok { result := 0, writes := writeFE secret crv.fsb z.x } := rfl
  have hregions := ecdhShared_regions_iff s secret d peer crv
  refine ⟨curveChecks_of_curveRule hrule hregions, fun hruns => ?_⟩
  have hcompute := ruleOf_of_curveRuns hrule hregions hruns
  refine ⟨fun z hz => stores_of_ruleOf ?ok, fun herr => failsWith_of_ruleOf .noinv ?noinv⟩
  case ok =>
    rw [hcompute, hz]
    rfl
  case noinv =>
    rw [hcompute, herr]
    rfl

end Sys2Proof.Machine
end
